-- ==== Sys2Proof/Word.lean ====
section
/-! DEFINITION. The words of the unit: 16-bit half-words, 32-bit mantissas, bytes, and a Float as the pair
(mantissa, exponent) that the procedures of files 41 to 49 work on. -/

namespace Sys2Proof

/-- A 16-bit field or immediate (R10, R52). -/
abbrev Half := BitVec 16

/-- A 32-bit mantissa, `msw` over `lsw` (R10). -/
abbrev Mant := BitVec 32

/-- A character of the text buffer (R20, R43). -/
abbrev Byte := BitVec 8

/-- A 32-bit command word (R50). -/
abbrev Command := BitVec 32

/-- A register number as the command word carries it: 4 bits, of which only 0..7 are legal (R50, R51). -/
abbrev RegNum := BitVec 4

/-- A Float as the procedures see it: a mantissa and an exponent. The exponent is an unbounded integer, as the
pseudocode of the spec has it (section 5 of 00_scope.md, D31); a register stores it in 16 bits. -/
structure Flt where
  mant : Mant
  exp : Int
  deriving DecidableEq, Repr

/-- The numeric value of a Float: the signed mantissa times 2^(exp − 30) (R11). -/
def Flt.value (f : Flt) : ℚ := (f.mant.toInt : ℚ) * (2 : ℚ) ^ (f.exp - 30)

/-- The two exceptions of the unit (R175). -/
inductive Exc where
  | divideByZero
  | sqrtOfNegative
  deriving DecidableEq, Repr

end Sys2Proof
end

