-- ==== Sys2Proof/Config.lean ====
section
/-! DEFINITION. The parameters of R4 and the shape of the decimal constant table `DEC_ROM`. The bit patterns of
that table are in Machine/Rom.lean. -/

namespace Sys2Proof.Config

/-- `NF`, the number of Float registers (R4, R15). -/
abbrev numFloats : Nat := 8

/-- `TBMAX`, the bytes of the text buffer (R4, R20). -/
abbrev textBytes : Nat := 64

/-- `MIN_EXP` (R14). -/
abbrev minExp : Int := -512

/-- `MAX_EXP` (R14). -/
abbrev maxExp : Int := 511

/-- The parameter `DEC_ROM` (R22, D19): LOG10_2 and the three tables. The procedures that use it take it as an
argument. -/
structure DecRom where
  /-- LOG10_2 (R21). -/
  log10_2 : Flt
  /-- 10^(2^k) for k = 0..7 (R21). -/
  power10 : List Flt
  /-- 10^(−2^k) for k = 0..7 (R21). -/
  negPower10 : List Flt
  /-- 0.5 · 10^(−k) for k = 0..9 (R21). -/
  rounding : List Flt
  deriving DecidableEq, Repr

end Sys2Proof.Config
end

