-- ==== Sys2Proof/Syntax.lean ====
section
/-! DEFINITION. The 31 commands of R53, one constructor for each row of spec/opcode_table.json, and the reasons for
which a word is no command. A register operand is the 4-bit field of the word, so that a term with an illegal
register number can be written down; `WellFormed` refuses it. -/

namespace Sys2Proof

/-- The commands of the unit. `rd` is the receiver, `rs` the operand, `imm` the field `imm16` (R50, R53). -/
inductive Instr where
  /-- SETZ Fd (R70). -/
  | setz (rd : RegNum)
  /-- SET Fd, Fs (R71). -/
  | set (rd rs : RegNum)
  /-- SETI Fd, #imm (R72). -/
  | seti (rd : RegNum) (imm : Half)
  /-- LDPINF Fd (R74). -/
  | ldpinf (rd : RegNum)
  /-- LDNINF Fd (R75). -/
  | ldninf (rd : RegNum)
  /-- MAXE (R76). -/
  | maxe
  /-- MINE (R77). -/
  | mine
  /-- WRM Fd, #imm (R78). -/
  | wrm (rd : RegNum) (imm : Half)
  /-- WRL Fd, #imm (R79). -/
  | wrl (rd : RegNum) (imm : Half)
  /-- WRE Fd, #imm (R80). -/
  | wre (rd : RegNum) (imm : Half)
  /-- RDM Fd (R81). -/
  | rdm (rd : RegNum)
  /-- RDL Fd (R82). -/
  | rdl (rd : RegNum)
  /-- RDE Fd (R83). -/
  | rde (rd : RegNum)
  /-- NEG Fd (R121). -/
  | neg (rd : RegNum)
  /-- ADD Fd, Fs (R123). -/
  | add (rd rs : RegNum)
  /-- ADDI Fd, #imm (R126). -/
  | addi (rd : RegNum) (imm : Half)
  /-- SUB Fd, Fs (R125). -/
  | sub (rd rs : RegNum)
  /-- SUBI Fd, #imm (R127). -/
  | subi (rd : RegNum) (imm : Half)
  /-- MUL Fd, Fs (R131). -/
  | mul (rd rs : RegNum)
  /-- MULI Fd, #imm (R132). -/
  | muli (rd : RegNum) (imm : Half)
  /-- DIV Fd, Fs (R136). -/
  | div (rd rs : RegNum)
  /-- DIVI Fd, #imm (R137). -/
  | divi (rd : RegNum) (imm : Half)
  /-- SQRT Fd (R141). -/
  | sqrt (rd : RegNum)
  /-- NORM Fd (R112). -/
  | norm (rd : RegNum)
  /-- CMP Fd, Fs (R146). -/
  | cmp (rd rs : RegNum)
  /-- CMPI Fd, #imm (R147). -/
  | cmpi (rd : RegNum) (imm : Half)
  /-- ISZ Fd (R148). -/
  | isz (rd : RegNum)
  /-- ISN Fd (R149). -/
  | isn (rd : RegNum)
  /-- ISP Fd (R150). -/
  | isp (rd : RegNum)
  /-- D2F Fd (R167). -/
  | d2f (rd : RegNum)
  /-- F2D Fd, #imm (R158). -/
  | f2d (rd : RegNum) (imm : Half)
  deriving DecidableEq, Repr

/-- Why a word is no command: the three ways in which R54 lets a word be reserved. -/
inductive Reserved where
  /-- The `op` field is in no row of the table. -/
  | opcode
  /-- A field that the format does not use is not zero. -/
  | mustBeZero
  /-- A register number is 8..15. -/
  | registerNumber
  deriving DecidableEq, Repr

end Sys2Proof
end

