-- ==== Sys2Proof/WellFormed.lean ====
section
/-! DEFINITION. Which terms of `Instr` are legal commands: every register number is below `NF` (R51). -/

namespace Sys2Proof

/-- A register number that names one of `F0` .. `F7` (R51). -/
abbrev LegalReg (r : RegNum) : Prop := r.toNat < Config.numFloats

/-- The register numbers that a command carries, the receiver first (R51, R53). -/
def Instr.regs : Instr → List RegNum
  | .setz rd => [rd]
  | .set rd rs => [rd, rs]
  | .seti rd _ => [rd]
  | .ldpinf rd => [rd]
  | .ldninf rd => [rd]
  | .maxe => []
  | .mine => []
  | .wrm rd _ => [rd]
  | .wrl rd _ => [rd]
  | .wre rd _ => [rd]
  | .rdm rd => [rd]
  | .rdl rd => [rd]
  | .rde rd => [rd]
  | .neg rd => [rd]
  | .add rd rs => [rd, rs]
  | .addi rd _ => [rd]
  | .sub rd rs => [rd, rs]
  | .subi rd _ => [rd]
  | .mul rd rs => [rd, rs]
  | .muli rd _ => [rd]
  | .div rd rs => [rd, rs]
  | .divi rd _ => [rd]
  | .sqrt rd => [rd]
  | .norm rd => [rd]
  | .cmp rd rs => [rd, rs]
  | .cmpi rd _ => [rd]
  | .isz rd => [rd]
  | .isn rd => [rd]
  | .isp rd => [rd]
  | .d2f rd => [rd]
  | .f2d rd _ => [rd]

/-- A legal command: each register number it carries is below 8 (R51, R54). -/
abbrev WellFormed (i : Instr) : Prop := ∀ r ∈ i.regs, LegalReg r

end Sys2Proof
end

