-- ==== Sys2Proof/Decode.lean ====
section
/-! DEFINITION. From a command word to a command and back (R50 to R54). Decoding is total: a word is a command, or
it is rejected by name. -/

namespace Sys2Proof

/-- The field `op`, bits 31:24 (R50). -/
def opField (w : Command) : BitVec 8 := w.extractLsb' 24 8

/-- The field `rd`, bits 23:20 (R50). -/
def rdField (w : Command) : RegNum := w.extractLsb' 20 4

/-- The field `rs`, bits 19:16 (R50). -/
def rsField (w : Command) : RegNum := w.extractLsb' 16 4

/-- The field `imm16`, bits 15:0 (R50). -/
def immField (w : Command) : Half := w.extractLsb' 0 16

/-- Format RR: `imm16` must be zero, both register numbers below 8 (R51). -/
def decodeRR (w : Command) (mk : RegNum → RegNum → Instr) : Except Reserved Instr :=
  if immField w ≠ 0 then .error .mustBeZero
  else if ¬ LegalReg (rdField w) then .error .registerNumber
  else if ¬ LegalReg (rsField w) then .error .registerNumber
  else .ok (mk (rdField w) (rsField w))

/-- Format RI: the `rs` field must be zero, `rd` below 8 (R51). -/
def decodeRI (w : Command) (mk : RegNum → Half → Instr) : Except Reserved Instr :=
  if rsField w ≠ 0 then .error .mustBeZero
  else if ¬ LegalReg (rdField w) then .error .registerNumber
  else .ok (mk (rdField w) (immField w))

/-- Format R1: `rs` and `imm16` must be zero, `rd` below 8 (R51). -/
def decodeR1 (w : Command) (mk : RegNum → Instr) : Except Reserved Instr :=
  if rsField w ≠ 0 then .error .mustBeZero
  else if immField w ≠ 0 then .error .mustBeZero
  else if ¬ LegalReg (rdField w) then .error .registerNumber
  else .ok (mk (rdField w))

/-- Format N0: `rd`, `rs` and `imm16` must be zero (R51). -/
def decodeN0 (w : Command) (i : Instr) : Except Reserved Instr :=
  if rdField w ≠ 0 then .error .mustBeZero
  else if rsField w ≠ 0 then .error .mustBeZero
  else if immField w ≠ 0 then .error .mustBeZero
  else .ok i

/-- The command that a word stands for (R53), or the reason why it is reserved (R54). -/
def decode (w : Command) : Except Reserved Instr :=
  match (opField w).toNat with
  | 0x10 => decodeR1 w .setz
  | 0x11 => decodeRR w .set
  | 0x12 => decodeRI w .seti
  | 0x13 => decodeR1 w .ldpinf
  | 0x14 => decodeR1 w .ldninf
  | 0x15 => decodeN0 w .maxe
  | 0x16 => decodeN0 w .mine
  | 0x18 => decodeRI w .wrm
  | 0x19 => decodeRI w .wrl
  | 0x1A => decodeRI w .wre
  | 0x1C => decodeR1 w .rdm
  | 0x1D => decodeR1 w .rdl
  | 0x1E => decodeR1 w .rde
  | 0x20 => decodeR1 w .neg
  | 0x21 => decodeRR w .add
  | 0x22 => decodeRI w .addi
  | 0x23 => decodeRR w .sub
  | 0x24 => decodeRI w .subi
  | 0x25 => decodeRR w .mul
  | 0x26 => decodeRI w .muli
  | 0x27 => decodeRR w .div
  | 0x28 => decodeRI w .divi
  | 0x29 => decodeR1 w .sqrt
  | 0x2A => decodeR1 w .norm
  | 0x30 => decodeRR w .cmp
  | 0x31 => decodeRI w .cmpi
  | 0x32 => decodeR1 w .isz
  | 0x33 => decodeR1 w .isn
  | 0x34 => decodeR1 w .isp
  | 0x40 => decodeR1 w .d2f
  | 0x41 => decodeRI w .f2d
  | _ => .error .opcode

/-- The rows of the opcode table: the mask of the format's fixed bits and the match `op << 24` (R51, R53). -/
def opcodeRows : List (Command × Command) :=
  [(0xFF8FFFFF#32, 0x10000000#32), (0xFF88FFFF#32, 0x11000000#32), (0xFF8F0000#32, 0x12000000#32), (0xFF8FFFFF#32, 0x13000000#32),
   (0xFF8FFFFF#32, 0x14000000#32), (0xFFFFFFFF#32, 0x15000000#32), (0xFFFFFFFF#32, 0x16000000#32), (0xFF8F0000#32, 0x18000000#32),
   (0xFF8F0000#32, 0x19000000#32), (0xFF8F0000#32, 0x1A000000#32), (0xFF8FFFFF#32, 0x1C000000#32), (0xFF8FFFFF#32, 0x1D000000#32),
   (0xFF8FFFFF#32, 0x1E000000#32), (0xFF8FFFFF#32, 0x20000000#32), (0xFF88FFFF#32, 0x21000000#32), (0xFF8F0000#32, 0x22000000#32),
   (0xFF88FFFF#32, 0x23000000#32), (0xFF8F0000#32, 0x24000000#32), (0xFF88FFFF#32, 0x25000000#32), (0xFF8F0000#32, 0x26000000#32),
   (0xFF88FFFF#32, 0x27000000#32), (0xFF8F0000#32, 0x28000000#32), (0xFF8FFFFF#32, 0x29000000#32), (0xFF8FFFFF#32, 0x2A000000#32),
   (0xFF88FFFF#32, 0x30000000#32), (0xFF8F0000#32, 0x31000000#32), (0xFF8FFFFF#32, 0x32000000#32), (0xFF8FFFFF#32, 0x33000000#32),
   (0xFF8FFFFF#32, 0x34000000#32), (0xFF8FFFFF#32, 0x40000000#32), (0xFF8F0000#32, 0x41000000#32)]

/-- What the decoder reads from a table row's word. A command is one 32-bit value presented whole, so there is no
byte order (R44, R50); bits at and above `nbits` are zero. -/
def decodeTableWord (nbits w : Nat) : Option Instr := (decode (BitVec.ofNat 32 (w % 2 ^ nbits))).toOption

/-- The operation code of a command (R53). -/
def Instr.opcode : Instr → BitVec 8
  | .setz _ => 0x10
  | .set _ _ => 0x11
  | .seti _ _ => 0x12
  | .ldpinf _ => 0x13
  | .ldninf _ => 0x14
  | .maxe => 0x15
  | .mine => 0x16
  | .wrm _ _ => 0x18
  | .wrl _ _ => 0x19
  | .wre _ _ => 0x1A
  | .rdm _ => 0x1C
  | .rdl _ => 0x1D
  | .rde _ => 0x1E
  | .neg _ => 0x20
  | .add _ _ => 0x21
  | .addi _ _ => 0x22
  | .sub _ _ => 0x23
  | .subi _ _ => 0x24
  | .mul _ _ => 0x25
  | .muli _ _ => 0x26
  | .div _ _ => 0x27
  | .divi _ _ => 0x28
  | .sqrt _ => 0x29
  | .norm _ => 0x2A
  | .cmp _ _ => 0x30
  | .cmpi _ _ => 0x31
  | .isz _ => 0x32
  | .isn _ => 0x33
  | .isp _ => 0x34
  | .d2f _ => 0x40
  | .f2d _ _ => 0x41

/-- What stands in the `rd` field of a command's word: zero where the format has none (R51). -/
def Instr.rdPart : Instr → RegNum
  | .maxe | .mine => 0
  | .setz rd | .ldpinf rd | .ldninf rd | .rdm rd | .rdl rd | .rde rd | .neg rd | .sqrt rd | .norm rd
  | .isz rd | .isn rd | .isp rd | .d2f rd => rd
  | .seti rd _ | .wrm rd _ | .wrl rd _ | .wre rd _ | .addi rd _ | .subi rd _ | .muli rd _ | .divi rd _
  | .cmpi rd _ | .f2d rd _ => rd
  | .set rd _ | .add rd _ | .sub rd _ | .mul rd _ | .div rd _ | .cmp rd _ => rd

/-- What stands in the `rs` field: zero but for the format RR (R51). -/
def Instr.rsPart : Instr → RegNum
  | .set _ rs | .add _ rs | .sub _ rs | .mul _ rs | .div _ rs | .cmp _ rs => rs
  | .setz _ | .ldpinf _ | .ldninf _ | .maxe | .mine | .rdm _ | .rdl _ | .rde _ | .neg _ | .sqrt _ | .norm _
  | .isz _ | .isn _ | .isp _ | .d2f _ | .seti _ _ | .wrm _ _ | .wrl _ _ | .wre _ _ | .addi _ _ | .subi _ _
  | .muli _ _ | .divi _ _ | .cmpi _ _ | .f2d _ _ => 0

/-- What stands in the `imm16` field: zero but for the format RI (R51). -/
def Instr.immPart : Instr → Half
  | .seti _ imm | .wrm _ imm | .wrl _ imm | .wre _ imm | .addi _ imm | .subi _ imm | .muli _ imm | .divi _ imm
  | .cmpi _ imm | .f2d _ imm => imm
  | .setz _ | .ldpinf _ | .ldninf _ | .maxe | .mine | .rdm _ | .rdl _ | .rde _ | .neg _ | .sqrt _ | .norm _
  | .isz _ | .isn _ | .isp _ | .d2f _ | .set _ _ | .add _ _ | .sub _ _ | .mul _ _ | .div _ _ | .cmp _ _ => 0

/-- A word from its four fields (R50). -/
def commandWord (op : BitVec 8) (rd rs : RegNum) (imm : Half) : Command := op ++ rd ++ rs ++ imm

/-- The word of a command (R50, R51, R53). -/
def encode (i : Instr) : Command := commandWord i.opcode i.rdPart i.rsPart i.immPart

/-- The pseudo-command NEW Fd (R57). -/
def pseudoNew (rd : RegNum) : Instr := .setz rd

/-- The pseudo-command COPY Fd, Fs (R57). -/
def pseudoCopy (rd rs : RegNum) : Instr := .set rd rs

end Sys2Proof
end

