-- ==== Sys2Proof/Machine/Flags.lean ====
section
/-! DEFINITION. The truth values and carry bits that the procedures compute. The unit has no flag register (R26):
these are returned values, used inside one command or written to `IRES` as 1 or 0 (R17). -/

namespace Sys2Proof.Machine

/-- The sign of a mantissa, bit 31 (R10). -/
def signBit (m : Mant) : Bool := m.getLsbD 31

/-- `mant_bit30` (R102). -/
def mantBit30 (m : Mant) : Bool := m.getLsbD 30

/-- `mant_isMaxNeg` (R101). -/
def mantIsMaxNeg (m : Mant) : Bool := m == 0x80000000#32

/-- The zero test: both mantissa halves zero, the exponent not looked at (R148). -/
def isZero (m : Mant) : Bool := m == 0#32

/-- The negative test: `msw` below zero (R149). -/
def isNeg (m : Mant) : Bool := signBit m

/-- The positive test: neither zero nor negative (R150). -/
def isPos (m : Mant) : Bool := !isZero m && !isNeg m

/-- A bit as a mantissa, 0 or 1. -/
def bitMant (b : Bool) : Mant := if b then 1#32 else 0#32

/-- A bit as a half-word, 0 or 1: a truth value in `IRES` (R17), a round bit as an integer to add (R94). -/
def bitHalf (b : Bool) : Half := if b then 1#16 else 0#16

/-- `add_carry`: the carry out of the sum of two half-words, found without a carry flag (R105). -/
def addCarry (a b : Half) : Bool :=
  if a.getLsbD 15 && b.getLsbD 15 then true
  else if !a.getLsbD 15 && !b.getLsbD 15 then false
  else ((a &&& 0x7FFF#16) + (b &&& 0x7FFF#16)).getLsbD 15

/-- `sub_borrow`: the borrow of `a − b` on half-words (R105). -/
def subBorrow (a b : Half) : Bool :=
  if a.getLsbD 15 = b.getLsbD 15 then decide (b.toInt > a.toInt) else b.getLsbD 15

/-- A Float is canonical: the exponent in range and the mantissa of one of the four classes (R12). -/
def canonical (f : Flt) : Bool :=
  decide (Config.minExp ≤ f.exp) && decide (f.exp ≤ Config.maxExp) &&
  (if isZero f.mant then decide (f.exp = Config.minExp)
   else f.mant == 0xC0000000#32 || (signBit f.mant != mantBit30 f.mant && !mantIsMaxNeg f.mant))

end Sys2Proof.Machine
end

