-- ==== Sys2Proof/Machine/Rom.lean ====
section
/-! DEFINITION. The constant ROM (R21): the sentinels (R13), the decimal constants `DEC_ROM` (R22) and the shift masks
(R23). No command writes it, so it is no part of the state (R191, R196). -/

namespace Sys2Proof.Machine

/-- `ZERO` (R13). -/
def fltZero : Flt := ⟨0x00000000#32, Config.minExp⟩

/-- `INF` (R13). -/
def fltInf : Flt := ⟨0x7FFFFFFF#32, Config.maxExp⟩

/-- `NEG_INF` (R13). -/
def fltNegInf : Flt := ⟨0x80000001#32, Config.maxExp⟩

/-- 1.0, the start of `set_pow10` and of `place` (R155, R166). -/
def fltOne : Flt := ⟨0x40000000#32, 0⟩

/-- The default `DEC_ROM`: each entry the Float nearest to its real value (R22, D19; log entry 11). -/
def decRom : Config.DecRom where
  log10_2 := ⟨0x4D104D42#32, -2⟩
  power10 :=
    [⟨0x50000000#32, 3⟩, ⟨0x64000000#32, 6⟩, ⟨0x4E200000#32, 13⟩, ⟨0x5F5E1000#32, 26⟩,
     ⟨0x470DE4E0#32, 53⟩, ⟨0x4EE2D6D4#32, 106⟩, ⟨0x613C0FA5#32, 212⟩, ⟨0x49DD23E5#32, 425⟩]
  negPower10 :=
    [⟨0x66666666#32, -4⟩, ⟨0x51EB851F#32, -7⟩, ⟨0x68DB8BAC#32, -14⟩, ⟨0x55E63B89#32, -27⟩,
     ⟨0x734ACA5F#32, -54⟩, ⟨0x67D88F57#32, -107⟩, ⟨0x543FF514#32, -213⟩, ⟨0x6EE8233E#32, -426⟩]
  rounding :=
    [⟨0x40000000#32, -1⟩, ⟨0x66666666#32, -5⟩, ⟨0x51EB851F#32, -8⟩, ⟨0x4189374C#32, -11⟩,
     ⟨0x68DB8BAC#32, -15⟩, ⟨0x53E2D624#32, -18⟩, ⟨0x431BDE83#32, -21⟩, ⟨0x6B5FCA6B#32, -25⟩,
     ⟨0x55E63B89#32, -28⟩, ⟨0x44B82FA1#32, -31⟩]

/-- The word with the bottom `n` bits set, for `n` = 0..30 (R23). -/
def shrMask (n : Nat) : Mant := BitVec.ofNat 32 (2 ^ n - 1)

/-- `shrMaskH[n]` (R23). -/
def shrMaskH (n : Nat) : Half := (shrMask n).extractLsb' 16 16

/-- `shrMaskL[n]` (R23). -/
def shrMaskL (n : Nat) : Half := (shrMask n).extractLsb' 0 16

end Sys2Proof.Machine
end

