-- ==== Sys2Proof/Machine/Kernel.lean ====
section
/-! DEFINITION. The mantissa kernel (R90 to R104). Each primitive works on the mantissa only; the caller keeps the
exponent. -/

namespace Sys2Proof.Machine

/-- The mantissa of two halves, `msw` high (R10). -/
def mantOf (msw lsw : Half) : Mant := msw ++ lsw

/-- The high half of a mantissa (R10). -/
def mswOf (m : Mant) : Half := m.extractLsb' 16 16

/-- The low half of a mantissa (R10). -/
def lswOf (m : Mant) : Half := m.extractLsb' 0 16

/-- `mant_set`: copy a mantissa (R91). -/
def mantSet (d : Flt) : Mant := d.mant

/-- `mant_setInt`: sign-extend an integer (R92). -/
def mantSetInt (i : Half) : Mant := mantOf (if i.getLsbD 15 then 0xFFFF#16 else 0x0000#16) i

/-- `mant_add`: the sum and the unsigned carry out of bit 31 (R93). -/
def mantAdd (m d : Mant) : Mant × Bool :=
  let t := m.setWidth 33 + d.setWidth 33
  (t.setWidth 32, t.getLsbD 32)

/-- `mant_addInt`: add a sign-extended integer (R94). -/
def mantAddInt (m : Mant) (i : Half) : Mant := m + i.signExtend 32

/-- `mant_neg`: complement `msw`, `lsw` becomes its complement plus one, with a carry into `msw` when that wraps to
zero (R95). -/
def mantNeg (m : Mant) : Mant :=
  let l := ~~~(lswOf m) + 1#16
  let h := ~~~(mswOf m)
  mantOf (if l = 0#16 then h + 1#16 else h) l

/-- `mant_sub`: negate, then add (R96). -/
def mantSub (m d : Mant) : Mant := (mantAdd m (mantNeg d)).1

/-- `mant_SHL1`: shift left by one, and the bit shifted out (R97). -/
def mantShl1 (m : Mant) : Mant × Bool := (m <<< 1, m.getLsbD 31)

/-- `mant_SHR1`: logical shift right by one (R98). -/
def mantShr1 (m : Mant) : Mant := m >>> 1

/-- `mant_SRA`: arithmetic shift right, and the last bit shifted out (R99, D16). -/
def mantSra (m : Mant) (n : Nat) : Mant × Bool :=
  if n = 0 then (m, false)
  else if n > 31 then (if signBit m then 0xFFFFFFFF#32 else 0x00000000#32, signBit m)
  else (m.sshiftRight n, m.getLsbD (n - 1))

/-- `mant_ROL`: rotate left, for `n` = 0..31 (R100). -/
def mantRol (m : Mant) (n : Nat) : Mant := if n = 0 then m else (m <<< n) ||| (m >>> (32 - n))

/-- The source's own way to shift right by `n` = 1..30: clear the bottom `n` bits with the masks, rotate left by
`32 − n`, fill the top `n` bits with the sign (R23, R100). -/
def mantSraByRotate (m : Mant) (n : Nat) : Mant :=
  let r := mantRol (m &&& ~~~(mantOf (shrMaskH n) (shrMaskL n))) (32 - n)
  if signBit m then r ||| ~~~(0xFFFFFFFF#32 >>> n) else r

/-- `mant_ucompare`: −1, 0 or +1 by the unsigned values (R103). -/
def mantUcompare (m d : Mant) : Int := if m.toNat < d.toNat then -1 else if m.toNat = d.toNat then 0 else 1

/-- The iterations of `mant_longUmult` that are left: the 64-bit accumulator doubles, takes the operand in when bit 30
of the receiver is set, and the receiver moves left (R104). -/
def longUmultLoop : Nat → Mant → Mant → BitVec 64 → BitVec 64
  | 0, _, _, acc => acc
  | n + 1, x, m, acc =>
    let acc := acc <<< 1
    longUmultLoop n (x <<< 1) m (if mantBit30 x then acc + m.setWidth 64 else acc)

/-- `mant_longUmult`: 31 iterations; the high word for the receiver, the low word for the operand (R104). -/
def mantLongUmult (x m : Mant) : Mant × Mant :=
  let acc := longUmultLoop 31 x m 0#64
  (acc.extractLsb' 32 32, acc.extractLsb' 0 32)

end Sys2Proof.Machine
end

