-- ==== Sys2Proof/Machine/State.lean ====
section
/-! DEFINITION. The state of the unit (R28), the reasons for which a step can stop, and the state after reset (R190). -/

namespace Sys2Proof.Machine

/-- One Float register: three 16-bit fields (R10) and a valid bit for each (R16). -/
structure FloatReg where
  msw : Half
  lsw : Half
  exp : Half
  mswValid : Bool
  lswValid : Bool
  expValid : Bool
  deriving DecidableEq, Repr

/-- The written bytes of the text buffer `TB` (R20): pairs of a byte index and a byte, indices strictly rising and
below 64. An index that is not listed has not been written and holds no defined value (R42, R190). -/
abbrev Memory := List Host.Cell

/-- What the host can do to the unit between two commands (R58, D36), less its reads, which change nothing (R46). -/
inductive HostEvent where
  /-- The host presents a command word and waits for its completion (R50, R58). -/
  | command (w : Command)
  /-- The host writes one byte of the text buffer (R20, R42). -/
  | writeText (index : Nat) (c : Byte)
  /-- The host writes `TLEN` (R19). -/
  | writeTlen (n : BitVec 7)
  /-- The host applies reset (R190). -/
  | reset
  deriving DecidableEq, Repr

/-- The state of the unit, plus the model's own field `host`. -/
structure State where
  /-- The Float registers F0 .. F7 (R15). -/
  floats : Vector FloatReg 8
  /-- The integer result register `IRES` (R17). -/
  ires : BitVec 16
  /-- The error register `ERR` (R18). -/
  err : BitVec 16
  /-- The text length register `TLEN`, 7 bits (R19, R28). -/
  tlen : BitVec 7
  /-- The text buffer `TB` (R20). -/
  tb : Memory
  /-- DESIGN CHOICE, log entry 2: the host's actions still to come, in order. The spec keeps the list of commands
  outside the unit (R25); the interface of a step has no input, so the list stands here. -/
  host : List HostEvent
  deriving DecidableEq, Repr

/-- Why the machine stops with a fault. The unit's own two exceptions are no faults of the model: taking one is a
next state (R178). -/
inductive Fault where
  /-- Raised by a host write to a text byte 64 or above, an address that does not exist (R40). Safe. -/
  | noTextByte
  deriving DecidableEq, Repr

/-- Why a command has no next state. Each is a refusal of R184, at the edge of what the spec defines. -/
inductive Refusal where
  /-- Raised by an arm of `exec` that has no meaning yet; no arm is left so. Safe. -/
  | notModelled (mnemonic : String)
  /-- Raised by a step whose command word is reserved or malformed (R54, R184 item 2). Safe. -/
  | reservedWord (why : Reserved)
  /-- Raised by a meaning given a register number 8..15, which no legal word carries (R51, R54). Safe. -/
  | noSuchRegister
  /-- Raised by a read of a register field whose valid bit is clear: the spec forbids the read (R16, R59 item 3, R184
  item 3, R190, D9). Safe. -/
  | invalidField
  /-- Raised by a non-canonical operand of an arithmetic, compare or F2D command (R59 item 4, R184 item 4). Safe. -/
  | nonCanonical
  /-- Raised by NORM with an exponent outside −32737..32766 (R112, R184 item 5). Safe. -/
  | exponentRange
  /-- Raised by D2F with `TLEN` above 64 (R41, R184 item 6). Safe. -/
  | textTooLong
  /-- Raised by D2F over a byte of `TB` that nothing has written (R42, R167, R184 item 6). Safe. -/
  | unwrittenText
  deriving DecidableEq, Repr

/-- The outcome of a step of this machine. -/
abbrev Out := Host.Outcome State Fault Refusal

/-- A Float register after reset: no field is valid (R16, R190). DESIGN CHOICE, log entry 1: the unspecified fields
are zero. -/
def FloatReg.reset : FloatReg := ⟨0, 0, 0, false, false, false⟩

/-- The machine right after reset (R190): `ERR` is 0, no field is valid, no text byte is written. DESIGN CHOICE, log
entry 1: `IRES` and `TLEN`, which R190 leaves unspecified, are zero. -/
def State.reset : State where
  floats := Vector.replicate 8 FloatReg.reset
  ires := 0
  err := 0
  tlen := 0
  tb := []
  host := []

end Sys2Proof.Machine
end

