-- ==== Sys2Proof/Machine/Ops.lean ====
section
/-! DEFINITION. The operations that every command shares: the text buffer, the Float registers, the result register,
the checks before a command, taking a fault, and leaving the halted state by reset. -/

namespace Sys2Proof.Machine

/-! ## The text buffer (R20, R40 to R42) -/

/-- `MemRead(i, 1)`: the byte at index `i`, none where nothing has been written (R41, R42). -/
def Memory.read : Memory → Nat → Option Byte
  | [], _ => none
  | (a, b) :: rest, i => if i = a then some b else Memory.read rest i

/-- `MemWrite(i, 1, c)` (R41). The list keeps its rising order. -/
def Memory.write : Memory → Nat → Byte → Memory
  | [], i, c => [(i, c)]
  | (a, b) :: rest, i, c =>
    if i < a then (i, c) :: (a, b) :: rest
    else if i = a then (i, c) :: rest
    else (a, b) :: Memory.write rest i c

/-- Every index of the list is at least `lo` and below `TBMAX`, and the indices rise. -/
def Memory.wfFrom : Nat → Memory → Bool
  | _, [] => true
  | lo, (a, _) :: rest => decide (lo ≤ a) && decide (a < Config.textBytes) && Memory.wfFrom (a + 1) rest

/-- The canonical form of a text buffer: indices strictly rising, all below `TBMAX` (R20, R40). -/
def Memory.wf (tb : Memory) : Bool := Memory.wfFrom 0 tb

/-- The bytes at `i`, `i + 1`, …, `i + n − 1` in rising order (R41), none where one of them is unwritten. -/
def Memory.readText (tb : Memory) : Nat → Nat → Option (List Byte)
  | _, 0 => some []
  | i, n + 1 =>
    match Memory.read tb i, Memory.readText tb (i + 1) n with
    | some c, some cs => some (c :: cs)
    | _, _ => none

/-- The characters written at `i`, `i + 1`, … in rising order (R41). -/
def Memory.writeText (tb : Memory) : Nat → List Byte → Memory
  | _, [] => tb
  | i, c :: cs => Memory.writeText (Memory.write tb i c) (i + 1) cs

/-! ## Registers (R15 to R19) -/

/-- The register `F[r]`. A number that names no register reads as one with no valid field; `issue` has refused such
a command before. -/
def State.reg (s : State) (r : RegNum) : FloatReg := (s.floats[r.toNat]?).getD FloatReg.reset

/-- Put a register's contents in place. -/
def State.setReg (s : State) (r : RegNum) (f : FloatReg) : State :=
  { s with floats := s.floats.setIfInBounds r.toNat f }

/-- The contents of a register that holds the Float `v`: all three fields valid (R10, R16). -/
def FloatReg.ofFlt (v : Flt) : FloatReg :=
  ⟨mswOf v.mant, lswOf v.mant, BitVec.ofInt 16 v.exp, true, true, true⟩

/-- The Float that a register's three fields are (R10). -/
def FloatReg.toFlt (f : FloatReg) : Flt := ⟨mantOf f.msw f.lsw, f.exp.toInt⟩

/-- `F[r] <- v` (R16). -/
def State.putFloat (s : State) (r : RegNum) (v : Flt) : State := s.setReg r (FloatReg.ofFlt v)

/-- `F[r].msw <- v`: that field becomes valid, the others keep content and valid bit (R78). -/
def State.putMsw (s : State) (r : RegNum) (v : Half) : State :=
  s.setReg r { s.reg r with msw := v, mswValid := true }

/-- `F[r].lsw <- v` (R79). -/
def State.putLsw (s : State) (r : RegNum) (v : Half) : State :=
  s.setReg r { s.reg r with lsw := v, lswValid := true }

/-- `F[r].exp <- v` (R80). -/
def State.putExp (s : State) (r : RegNum) (v : Half) : State :=
  s.setReg r { s.reg r with exp := v, expValid := true }

/-- `IRES <- v` (R17). -/
def State.putIres (s : State) (v : Half) : State := { s with ires := v }

/-- The text of F2D: the characters from index 0 on, then `TLEN` (R41, R158). -/
def State.putText (s : State) (cs : List Byte) : State :=
  { s with tb := s.tb.writeText 0 cs, tlen := BitVec.ofNat 7 cs.length }

/-! ## Before a command, faults, reset -/

/-- The first two checks of R59: a halted unit changes nothing (R18, R58; log entry 4), and a register number 8..15
is no command (R51, R54). -/
def issue (regs : List RegNum) (s : State) (k : Out) : Out :=
  if s.err ≠ 0 then .next s
  else if ∀ r ∈ regs, LegalReg r then k
  else .refused .noSuchRegister

/-- Go on with what was read, or refuse (R59, R184). -/
def withRead {α : Type} (x : Except Refusal α) (k : α → Out) : Out :=
  match x with
  | .ok a => k a
  | .error e => .refused e

/-- The code that `ERR` takes (R175). -/
def errCode : Exc → BitVec 16
  | .divideByZero => 3
  | .sqrtOfNegative => 4

/-- Taking a fault: `ERR` takes the code, nothing else changes, and the unit is halted (R178). -/
def takeFault (e : Exc) (s : State) : State := { s with err := errCode e }

/-- The end of a command that can raise an exception: its result goes to `F[rd]`, or the fault is taken (R178). -/
def finish (r : Except Exc Flt) (rd : RegNum) (s : State) : Out :=
  match r with
  | .ok v => .next (s.putFloat rd v)
  | .error e => .next (takeFault e s)

/-- Reset: the only way out of the halted state (R179, R190). The host's actions still to come are the model's own
and stay. -/
def resetUnit (s : State) : State := { State.reset with host := s.host }

end Sys2Proof.Machine
end

