-- ==== Sys2Proof/Machine/Operands.lean ====
section
/-! DEFINITION. The operand forms: register fields, whole Floats, canonical Floats, and the immediate (R52, R59). -/

namespace Sys2Proof.Machine

/-- Read `F[r].msw`; refused where its valid bit is clear (R16, R59 item 3, R184 item 3). -/
def readMsw (s : State) (r : RegNum) : Except Refusal Half :=
  if (s.reg r).mswValid then .ok (s.reg r).msw else .error .invalidField

/-- Read `F[r].lsw` (R16, R59 item 3). -/
def readLsw (s : State) (r : RegNum) : Except Refusal Half :=
  if (s.reg r).lswValid then .ok (s.reg r).lsw else .error .invalidField

/-- Read `F[r].exp` (R16, R59 item 3). -/
def readExp (s : State) (r : RegNum) : Except Refusal Half :=
  if (s.reg r).expValid then .ok (s.reg r).exp else .error .invalidField

/-- Read the mantissa of `F[r]`, its fields `msw` and `lsw` (R148, R150). -/
def readMant (s : State) (r : RegNum) : Except Refusal Mant :=
  if (s.reg r).mswValid && (s.reg r).lswValid then .ok (mantOf (s.reg r).msw (s.reg r).lsw)
  else .error .invalidField

/-- Read `F[r]`, all three fields, any bit pattern (R59 item 3). -/
def readFloat (s : State) (r : RegNum) : Except Refusal Flt :=
  if (s.reg r).mswValid && (s.reg r).lswValid && (s.reg r).expValid then .ok (s.reg r).toFlt
  else .error .invalidField

/-- Read a Float that must be canonical (R59 items 3 and 4). -/
def readCanonical (s : State) (r : RegNum) : Except Refusal Flt :=
  match readFloat s r with
  | .ok a => if canonical a then .ok a else .error .nonCanonical
  | .error e => .error e

/-- Read receiver and operand, both canonical: the valid bits of both are looked at before either value (R59). -/
def readCanonicalPair (s : State) (rd rs : RegNum) : Except Refusal (Flt × Flt) :=
  match readFloat s rd, readFloat s rs with
  | .ok a, .ok b => if canonical a && canonical b then .ok (a, b) else .error .nonCanonical
  | .error e, _ => .error e
  | .ok _, .error e => .error e

/-- `n_digits` of F2D: the signed immediate, clamped to 1..10 (R158). -/
def clampDigits (imm : Half) : Nat :=
  if imm.toInt < 1 then 1 else if imm.toInt > 10 then 10 else imm.toInt.toNat

end Sys2Proof.Machine
end

