-- ==== Sys2Proof/Machine/Normalizer.lean ====
section
/-! DEFINITION. The block `mantissa_normalizer`: `normalize` (R110), `denormalize` (R111), `set_int` (R73) and the
command NORM (R112). -/

namespace Sys2Proof.Machine

/-- Step 3 of `normalize`: shift left while the two top bits agree; none is the collapse to ZERO at `MIN_EXP` (R110,
D13). The first argument bounds the shifts; 31 are the most that occur. -/
def normShift : Nat → Mant → Int → Option Flt
  | 0, m, e => some ⟨m, e⟩
  | n + 1, m, e =>
    if signBit m ≠ mantBit30 m then some ⟨m, e⟩
    else if e = Config.minExp then none
    else normShift n (mantShl1 m).1 (e - 1)

/-- Step 5 of `normalize`: the range clamp (R110). -/
def normClamp (m : Mant) (e : Int) : Flt :=
  if e < Config.minExp then fltZero
  else if e > Config.maxExp then (if signBit m then fltNegInf else fltInf)
  else ⟨m, e⟩

/-- Steps 4 and 5 of `normalize` (R110). -/
def normFinish (m : Mant) (e : Int) : Flt :=
  if mantIsMaxNeg m then
    if e = Config.maxExp then fltNegInf else normClamp 0xC0000000#32 (e + 1)
  else normClamp m e

/-- `normalize` (R110; the clamp on the path of step 1 is D12). -/
def fpNormalize (f : Flt) : Flt :=
  if f.mant = 0xC0000000#32 then normClamp f.mant f.exp
  else if isZero f.mant then fltZero
  else
    match normShift 32 f.mant f.exp with
    | none => fltZero
    | some g => normFinish g.mant g.exp

/-- `denormalize`: shift right to a larger exponent and hand back the last bit shifted out (R111). -/
def fpDenormalize (f : Flt) (t : Int) : Flt × Bool :=
  if t > f.exp then
    let r := mantSra f.mant (t - f.exp).toNat
    (⟨r.1, t⟩, r.2)
  else (f, false)

/-- `set_int`: the Float of a 16-bit integer (R73, D35). -/
def setInt (i : Half) : Flt := fpNormalize ⟨mantSetInt i, 30⟩

/-- NORM Fd (R112). Outside −32737..32766 the spec defines no result (D31). -/
def execNorm (rd : RegNum) (s : State) : Out :=
  issue [rd] s (withRead (readFloat s rd) fun f =>
    if f.exp < -32737 ∨ f.exp > 32766 then .refused .exponentRange
    else .next (s.putFloat rd (fpNormalize f)))

end Sys2Proof.Machine
end

