-- ==== Sys2Proof/Machine/Adder.lean ====
section
/-! DEFINITION. The block `fp_adder`: negate, add, subtract (R120 to R127). -/

namespace Sys2Proof.Machine

/-- `fp_neg` (R120, D14). -/
def fpNeg (f : Flt) : Flt := ⟨mantNeg f.mant, f.exp⟩

/-- The sum of two aligned Floats with the round bit `rb`, before the last `normalize` (R122). `m` and `t` are the
aligned mantissas, `e` the common exponent. -/
def addAligned (m t : Mant) (e : Int) (rb : Bool) : Flt :=
  let sa := signBit m
  if sa = signBit t then
    let s := mantAddInt (mantAdd m t).1 (bitHalf rb)
    if signBit s ≠ sa then
      if e = Config.maxExp then (if sa then fltNegInf else fltInf)
      else ⟨mantShr1 s ||| (if sa then 0x80000000#32 else 0#32), e + 1⟩
    else ⟨s, e⟩
  else ⟨(mantAdd m t).1, e⟩

/-- `fp_add` (R122; the round bit counts only where the signs agree, D15). -/
def fpAdd (a b : Flt) : Flt :=
  let da := fpDenormalize a b.exp
  let db := fpDenormalize b da.1.exp
  fpNormalize (addAligned da.1.mant db.1.mant da.1.exp (da.2 || db.2))

/-- `fp_sub`: negate, add, negate (R124). -/
def fpSub (a b : Flt) : Flt := fpNeg (fpAdd (fpNeg a) b)

/-- NEG Fd (R121). -/
def execNeg (rd : RegNum) (s : State) : Out :=
  issue [rd] s (withRead (readFloat s rd) fun f => .next (s.putFloat rd (fpNeg f)))

/-- ADD Fd, Fs (R123). -/
def execAdd (rd rs : RegNum) (s : State) : Out :=
  issue [rd, rs] s (withRead (readCanonicalPair s rd rs) fun p => .next (s.putFloat rd (fpAdd p.1 p.2)))

/-- ADDI Fd, #imm (R126). -/
def execAddi (rd : RegNum) (imm : Half) (s : State) : Out :=
  issue [rd] s (withRead (readCanonical s rd) fun a => .next (s.putFloat rd (fpAdd a (setInt imm))))

/-- SUB Fd, Fs (R125). -/
def execSub (rd rs : RegNum) (s : State) : Out :=
  issue [rd, rs] s (withRead (readCanonicalPair s rd rs) fun p => .next (s.putFloat rd (fpSub p.1 p.2)))

/-- SUBI Fd, #imm (R127). -/
def execSubi (rd : RegNum) (imm : Half) (s : State) : Out :=
  issue [rd] s (withRead (readCanonical s rd) fun a => .next (s.putFloat rd (fpSub a (setInt imm))))

end Sys2Proof.Machine
end

