-- ==== Sys2Proof/Machine/Compare.lean ====
section
/-! DEFINITION. Comparison and sign tests (R145 to R150). -/

namespace Sys2Proof.Machine

/-- `fp_compare`: the sign of the difference (R145). -/
def fpCompare (a b : Flt) : Int :=
  let c := fpSub a b
  if isNeg c.mant then -1 else if isZero c.mant then 0 else 1

/-- CMP Fd, Fs (R146). -/
def execCmp (rd rs : RegNum) (s : State) : Out :=
  issue [rd, rs] s (withRead (readCanonicalPair s rd rs) fun p =>
    .next (s.putIres (BitVec.ofInt 16 (fpCompare p.1 p.2))))

/-- CMPI Fd, #imm (R147, D20). -/
def execCmpi (rd : RegNum) (imm : Half) (s : State) : Out :=
  issue [rd] s (withRead (readCanonical s rd) fun a =>
    .next (s.putIres (BitVec.ofInt 16 (fpCompare a (setInt imm)))))

/-- ISZ Fd (R148). -/
def execIsz (rd : RegNum) (s : State) : Out :=
  issue [rd] s (withRead (readMant s rd) fun m => .next (s.putIres (bitHalf (isZero m))))

/-- ISN Fd: only `msw` is read (R149). -/
def execIsn (rd : RegNum) (s : State) : Out :=
  issue [rd] s (withRead (readMsw s rd) fun h => .next (s.putIres (bitHalf (isNeg (mantOf h 0)))))

/-- ISP Fd (R150). -/
def execIsp (rd : RegNum) (s : State) : Out :=
  issue [rd] s (withRead (readMant s rd) fun m => .next (s.putIres (bitHalf (isPos m))))

end Sys2Proof.Machine
end

