-- ==== Sys2Proof/Machine/Multiplier.lean ====
section
/-! DEFINITION. The block `fp_multiplier` (R130 to R132). -/

namespace Sys2Proof.Machine

/-- The absolute value that multiply and divide work with (R130, R135). -/
def mantAbs (m : Mant) : Mant := if signBit m then mantNeg m else m

/-- Shift the pair (hi, lo) left by one, the top bit of `lo` into the bottom of `hi` (R130). -/
def shiftPair (p : Mant × Mant) : Mant × Mant := ((p.1 <<< 1) ||| bitMant (signBit p.2), p.2 <<< 1)

/-- Round the magnitude by the first bit below the kept ones; a sum that reaches the sign bit becomes 0x40000000 with
the exponent one larger (R130). -/
def roundMagnitude (hi : Mant) (e : Int) (up : Bool) : Flt :=
  if up then
    let h := mantAddInt hi 1#16
    if signBit h then ⟨0x40000000#32, e + 1⟩ else ⟨h, e⟩
  else ⟨hi, e⟩

/-- `fp_mult` (R130). -/
def fpMult (a b : Flt) : Flt :=
  let p := shiftPair (mantLongUmult (mantAbs a.mant) (mantAbs b.mant))
  let e := a.exp + b.exp + 1
  let r :=
    if mantBit30 p.1 then roundMagnitude p.1 e (signBit p.2)
    else
      let p := shiftPair p
      roundMagnitude p.1 (e - 1) (signBit p.2)
  fpNormalize ⟨if signBit a.mant ≠ signBit b.mant then mantNeg r.mant else r.mant, r.exp⟩

/-- MUL Fd, Fs (R131). -/
def execMul (rd rs : RegNum) (s : State) : Out :=
  issue [rd, rs] s (withRead (readCanonicalPair s rd rs) fun p => .next (s.putFloat rd (fpMult p.1 p.2)))

/-- MULI Fd, #imm (R132, D20). -/
def execMuli (rd : RegNum) (imm : Half) (s : State) : Out :=
  issue [rd] s (withRead (readCanonical s rd) fun a => .next (s.putFloat rd (fpMult a (setInt imm))))

end Sys2Proof.Machine
end

