-- ==== Sys2Proof/Machine/Divider.lean ====
section
/-! DEFINITION. The block `fp_divider` (R135 to R137). -/

namespace Sys2Proof.Machine

/-- The iterations of the long division that are left: the running remainder `A`, the divisor `B`, the quotient `q`
(R135). The answer is the last remainder and the quotient. -/
def divLoop : Nat → Mant → Mant → Mant → Mant × Mant
  | 0, A, _, q => (A, q)
  | n + 1, A, B, q =>
    let q := (mantShl1 q).1
    if mantUcompare A B ≥ 0 then divLoop n (mantShl1 (mantSub A B)).1 B (q ||| 1#32)
    else divLoop n (mantShl1 A).1 B q

/-- The division of magnitudes: pre-align, 31 iterations, one more compare to round; the quotient and the correction
of the exponent (R135, D18). -/
def divMagnitude (A B : Mant) : Flt :=
  let pre := decide (mantUcompare A B < 0)
  let adj : Int := if pre then -1 else 0
  let r := divLoop 31 (if pre then (mantShl1 A).1 else A) B 0#32
  roundMagnitude r.2 adj (decide (mantUcompare r.1 B ≥ 0))

/-- `fp_div`, or DivideByZero before anything else (R135, R176). -/
def fpDiv (a b : Flt) : Except Exc Flt :=
  if isZero b.mant then .error .divideByZero
  else
    let q := divMagnitude (mantAbs a.mant) (mantAbs b.mant)
    .ok (fpNormalize ⟨if signBit a.mant ≠ signBit b.mant then mantNeg q.mant else q.mant, a.exp - b.exp + q.exp⟩)

/-- DIV Fd, Fs (R136). -/
def execDiv (rd rs : RegNum) (s : State) : Out :=
  issue [rd, rs] s (withRead (readCanonicalPair s rd rs) fun p => finish (fpDiv p.1 p.2) rd s)

/-- DIVI Fd, #imm (R137, D20). -/
def execDivi (rd : RegNum) (imm : Half) (s : State) : Out :=
  issue [rd] s (withRead (readCanonical s rd) fun a => finish (fpDiv a (setInt imm)) rd s)

end Sys2Proof.Machine
end

