-- ==== Sys2Proof/Machine/ToDecimal.lean ====
section
/-! DEFINITION. The block `fp_to_decimal_converter`: power of ten, floor, `to_string`, F2D (R155 to R159). Characters
are ASCII codes (R43). -/

namespace Sys2Proof.Machine

/-- The products of `set_pow10` that are left: one table entry for each bit of `a`, from bit 0 up (R155). -/
def powLoop : List Flt → Nat → Flt → Flt
  | [], _, r => r
  | p :: ps, a, r => powLoop ps (a / 2) (if a % 2 = 1 then fpMult r p else r)

/-- `set_pow10` (R155). -/
def setPow10 (rom : Config.DecRom) (n : Int) : Flt :=
  powLoop (if n > 0 then rom.power10 else rom.negPower10) n.natAbs fltOne

/-- `fp_floor`: the low half-word of the mantissa moved to exponent 30 (R156; out of range as written, log entry 10). -/
def fpFloor (f : Flt) : Half := lswOf (fpDenormalize f 30).1.mant

/-- The code of a decimal digit (R43). -/
def digitChar (d : Nat) : Byte := BitVec.ofNat 8 (0x30 + d)

/-- Step 7 of `to_string`: `n` digits, the point after the first (R157). The digit is the code 0x30 + d, with no check
of d, as the pseudocode has it (log entry 10). -/
def emitDigits : Nat → Bool → Flt → List Byte
  | 0, _, _ => []
  | n + 1, first, w =>
    let d := fpFloor w
    let rest := emitDigits n false (fpMult (fpSub w (setInt d)) (setInt 10))
    (0x30#16 + d).setWidth 8 :: (if first then 0x2E#8 :: rest else rest)

/-- Step 8 of `to_string`: the letter e, the sign, three digits (R157, R159). -/
def emitExponent (e : Int) : List Byte :=
  let n := e.natAbs
  [0x65#8, if e < 0 then 0x2D#8 else 0x2B#8, digitChar (n / 100), digitChar (n / 10 % 10), digitChar (n % 10)]

/-- The multiplication by 0.1 of steps 5 and 6, the decimal exponent one larger (R157, D23). -/
def tenth (rom : Config.DecRom) (w : Flt) (e : Int) : Flt × Int := (fpMult w (rom.negPower10.headD fltOne), e + 1)

/-- Step 5 of `to_string` (R157). -/
def bracket (rom : Config.DecRom) (w : Flt) (e : Int) : Flt × Int :=
  if fpCompare w (setInt 10) ≥ 0 then tenth rom w e
  else if fpCompare w (setInt 1) < 0 then (fpMult w (setInt 10), e - 1)
  else (w, e)

/-- Step 6 of `to_string`: add the rounding constant, then bracket below 10 again (R157). -/
def roundDecimal (rom : Config.DecRom) (w : Flt) (e : Int) (nd : Nat) : Flt × Int :=
  let w := fpAdd w (rom.rounding.getD (nd - 1) fltZero)
  if fpCompare w (setInt 10) ≥ 0 then tenth rom w e else (w, e)

/-- Steps 3 to 6 of `to_string` on the magnitude `w`: the scaled and rounded value and the decimal exponent (R157,
D23). -/
def scaleDecimal (rom : Config.DecRom) (w : Flt) (nd : Nat) : Flt × Int :=
  let exp10 := (fpFloor (fpMult (setInt (BitVec.ofInt 16 w.exp)) rom.log10_2)).toInt
  let p := bracket rom (fpMult w (setPow10 rom (-exp10))) exp10
  roundDecimal rom p.1 p.2 nd

/-- `to_string` (R157) for `nd` = 1..10. -/
def toText (rom : Config.DecRom) (f : Flt) (nd : Nat) : List Byte :=
  if f = fltInf then [0x2B#8, 0x69#8, 0x6E#8, 0x66#8, 0x2E#8]
  else if f = fltNegInf then [0x2D#8, 0x69#8, 0x6E#8, 0x66#8, 0x2E#8]
  else
    let neg := isNeg f.mant
    let w := if neg then fpNeg f else f
    let p := scaleDecimal rom w nd
    (if neg then [0x2D#8] else []) ++ emitDigits nd true p.1 ++
      emitExponent (if isZero f.mant then 0 else p.2)

/-- F2D Fd, #imm (R158). -/
def execF2d (rd : RegNum) (imm : Half) (s : State) : Out :=
  issue [rd] s (withRead (readCanonical s rd) fun f => .next (s.putText (toText decRom f (clampDigits imm))))

end Sys2Proof.Machine
end

