-- ==== Sys2Proof/Machine/FromDecimal.lean ====
section
/-! DEFINITION. The block `decimal_to_fp_converter`: the scan of R165, `set_string` (R166) and D2F (R167). Characters
are ASCII codes (R43). -/

namespace Sys2Proof.Machine

/-- The white space of phase 1 (R165): the space and the codes 9 to 13. -/
def isSpaceChar (c : Byte) : Bool := c == 0x20#8 || (decide (9 ≤ c.toNat) && decide (c.toNat ≤ 13))

/-- `0`..`9` (R165). -/
def isDigitChar (c : Byte) : Bool := decide (0x30 ≤ c.toNat) && decide (c.toNat ≤ 0x39)

/-- `+` or `-` (R165). -/
def isSignChar (c : Byte) : Bool := c == 0x2B#8 || c == 0x2D#8

/-- The value of a digit character. -/
def digitOf (c : Byte) : Nat := c.toNat - 0x30

/-- The value of a digit character as a Float (R166). -/
def digitFlt (c : Byte) : Flt := setInt (BitVec.ofNat 16 (digitOf c))

/-- Phase 1: leading white space is skipped (R165). -/
def skipSpaces : List Byte → List Byte
  | [] => []
  | c :: cs => if isSpaceChar c then skipSpaces cs else c :: cs

/-- Phase 2: any number of signs, the last one decides (R165, D21). -/
def scanSigns : Bool → List Byte → Bool × List Byte
  | neg, [] => (neg, [])
  | neg, c :: cs => if isSignChar c then scanSigns (c == 0x2D#8) cs else (neg, c :: cs)

/-- Phase 3: integer digits, r becomes 10 · r + d (R166). -/
def scanInteger : Flt → List Byte → Flt × List Byte
  | r, [] => (r, [])
  | r, c :: cs =>
    if isDigitChar c then scanInteger (fpAdd (fpMult r (setInt 10)) (digitFlt c)) cs else (r, c :: cs)

/-- Phase 4 after the point: each digit moves `place` one down and adds digit × place (R166, D22). -/
def scanFraction (rom : Config.DecRom) : Flt → Flt → List Byte → Flt × List Byte
  | _, r, [] => (r, [])
  | place, r, c :: cs =>
    if isDigitChar c then
      let place := fpMult place (rom.negPower10.headD fltOne)
      scanFraction rom place (fpAdd r (fpMult (digitFlt c) place)) cs
    else (r, c :: cs)

/-- Phase 5 after the sign: exponent digits, saturating at 160 (R165, R166). -/
def scanExponent : Nat → List Byte → Nat
  | x, [] => x
  | x, c :: cs => if isDigitChar c then scanExponent (min (x * 10 + digitOf c) 160) cs else x

/-- Phase 4 with its point (R165). -/
def parseFraction (rom : Config.DecRom) (r : Flt) : List Byte → Flt × List Byte
  | [] => (r, [])
  | c :: cs => if c = 0x2E#8 then scanFraction rom fltOne r cs else (r, c :: cs)

/-- Phase 5 with its letter and at most one sign: the decimal exponent, 0 where there is none (R165, R166). -/
def parseExponent : List Byte → Int
  | [] => 0
  | c :: cs =>
    if c = 0x65#8 ∨ c = 0x45#8 then
      match cs with
      | [] => 0
      | d :: ds =>
        if d = 0x2D#8 then -(scanExponent 0 ds : Int)
        else if d = 0x2B#8 then (scanExponent 0 ds : Int)
        else (scanExponent 0 (d :: ds) : Int)
    else 0

/-- `set_string` (R166): a stray character ends the text, and the phases completed before it count (D21). -/
def setString (rom : Config.DecRom) (cs : List Byte) : Flt :=
  let sg := scanSigns false (skipSpaces cs)
  let ip := scanInteger fltZero sg.2
  let fp := parseFraction rom ip.1 ip.2
  fpMult (if sg.1 then fpNeg fp.1 else fp.1) (setPow10 rom (parseExponent fp.2))

/-- D2F Fd (R167): the text is `TB[0 .. TLEN−1]`, every byte of which must have been written (R41, R42). -/
def execD2f (rd : RegNum) (s : State) : Out :=
  issue [rd] s
    (if s.tlen.toNat > Config.textBytes then .refused .textTooLong
     else
      match s.tb.readText 0 s.tlen.toNat with
      | none => .refused .unwrittenText
      | some cs => .next (s.putFloat rd (setString decRom cs)))

end Sys2Proof.Machine
end

