-- ==== Sys2Proof/Machine/Lifecycle.lean ====
section
/-! DEFINITION. Creating, copying and raw access: SETZ SET SETI LDPINF LDNINF MAXE MINE WRM WRL WRE RDM RDL RDE
(R70 to R83). -/

namespace Sys2Proof.Machine

/-- SETZ Fd (R70). -/
def execSetz (rd : RegNum) (s : State) : Out := issue [rd] s (.next (s.putFloat rd fltZero))

/-- SET Fd, Fs: the three fields, any bit pattern (R71). -/
def execSet (rd rs : RegNum) (s : State) : Out :=
  issue [rd, rs] s (withRead (readFloat s rs) fun f => .next (s.putFloat rd f))

/-- SETI Fd, #imm (R72). -/
def execSeti (rd : RegNum) (imm : Half) (s : State) : Out := issue [rd] s (.next (s.putFloat rd (setInt imm)))

/-- LDPINF Fd (R74). -/
def execLdpinf (rd : RegNum) (s : State) : Out := issue [rd] s (.next (s.putFloat rd fltInf))

/-- LDNINF Fd (R75). -/
def execLdninf (rd : RegNum) (s : State) : Out := issue [rd] s (.next (s.putFloat rd fltNegInf))

/-- MAXE (R76). -/
def execMaxe (s : State) : Out := issue [] s (.next (s.putIres (BitVec.ofInt 16 Config.maxExp)))

/-- MINE (R77). -/
def execMine (s : State) : Out := issue [] s (.next (s.putIres (BitVec.ofInt 16 Config.minExp)))

/-- WRM Fd, #imm (R78). -/
def execWrm (rd : RegNum) (imm : Half) (s : State) : Out := issue [rd] s (.next (s.putMsw rd imm))

/-- WRL Fd, #imm (R79). -/
def execWrl (rd : RegNum) (imm : Half) (s : State) : Out := issue [rd] s (.next (s.putLsw rd imm))

/-- WRE Fd, #imm (R80). -/
def execWre (rd : RegNum) (imm : Half) (s : State) : Out := issue [rd] s (.next (s.putExp rd imm))

/-- RDM Fd (R81). -/
def execRdm (rd : RegNum) (s : State) : Out :=
  issue [rd] s (withRead (readMsw s rd) fun v => .next (s.putIres v))

/-- RDL Fd (R82). -/
def execRdl (rd : RegNum) (s : State) : Out :=
  issue [rd] s (withRead (readLsw s rd) fun v => .next (s.putIres v))

/-- RDE Fd (R83). -/
def execRde (rd : RegNum) (s : State) : Out :=
  issue [rd] s (withRead (readExp s rd) fun v => .next (s.putIres v))

end Sys2Proof.Machine
end

