-- ==== Sys2Proof/Machine/Sqrt.lean ====
section
/-! DEFINITION. The block `fp_sqrt` (R140, R141). -/

namespace Sys2Proof.Machine

/-- The Newton steps that are left: `x` becomes `(x + n/x)/2`, the halving being a decrement of the exponent (R140,
D17). -/
def newton : Nat → Flt → Flt → Except Exc Flt
  | 0, _, x => .ok x
  | k + 1, n, x =>
    match fpDiv n x with
    | .error e => .error e
    | .ok t => let y := fpAdd x t; newton k n ⟨y.mant, y.exp - 1⟩

/-- `fp_sqrt`, or SqrtOfNegative (R140, R177). The first guess keeps the mantissa and halves the exponent, rounded
toward minus infinity; exactly 6 iterations (D17). -/
def fpSqrt (n : Flt) : Except Exc Flt :=
  if isNeg n.mant then .error .sqrtOfNegative
  else if isZero n.mant then .ok n
  else
    match newton 6 n ⟨n.mant, n.exp / 2⟩ with
    | .error e => .error e
    | .ok x => .ok (fpNormalize x)

/-- SQRT Fd (R141). -/
def execSqrt (rd : RegNum) (s : State) : Out :=
  issue [rd] s (withRead (readCanonical s rd) fun n => finish (fpSqrt n) rd s)

end Sys2Proof.Machine
end

