-- ==== Sys2Proof/Machine/Dispatch.lean ====
section
/-! DEFINITION. The meaning of each command, one arm for each constructor of `Instr`. -/

namespace Sys2Proof.Machine

-- What a command does to the state (R53).
def exec (i : Instr) (s : State) : Host.Outcome State Fault Refusal :=
  match i with
  | .setz rd => Sys2Proof.Machine.execSetz rd s
  | .set rd rs => Sys2Proof.Machine.execSet rd rs s
  | .seti rd imm => Sys2Proof.Machine.execSeti rd imm s
  | .ldpinf rd => Sys2Proof.Machine.execLdpinf rd s
  | .ldninf rd => Sys2Proof.Machine.execLdninf rd s
  | .maxe => Sys2Proof.Machine.execMaxe s
  | .mine => Sys2Proof.Machine.execMine s
  | .wrm rd imm => Sys2Proof.Machine.execWrm rd imm s
  | .wrl rd imm => Sys2Proof.Machine.execWrl rd imm s
  | .wre rd imm => Sys2Proof.Machine.execWre rd imm s
  | .rdm rd => Sys2Proof.Machine.execRdm rd s
  | .rdl rd => Sys2Proof.Machine.execRdl rd s
  | .rde rd => Sys2Proof.Machine.execRde rd s
  | .neg rd => Sys2Proof.Machine.execNeg rd s
  | .add rd rs => Sys2Proof.Machine.execAdd rd rs s
  | .addi rd imm => Sys2Proof.Machine.execAddi rd imm s
  | .sub rd rs => Sys2Proof.Machine.execSub rd rs s
  | .subi rd imm => Sys2Proof.Machine.execSubi rd imm s
  | .mul rd rs => Sys2Proof.Machine.execMul rd rs s
  | .muli rd imm => Sys2Proof.Machine.execMuli rd imm s
  | .div rd rs => Sys2Proof.Machine.execDiv rd rs s
  | .divi rd imm => Sys2Proof.Machine.execDivi rd imm s
  | .sqrt rd => Sys2Proof.Machine.execSqrt rd s
  | .norm rd => Sys2Proof.Machine.execNorm rd s
  | .cmp rd rs => Sys2Proof.Machine.execCmp rd rs s
  | .cmpi rd imm => Sys2Proof.Machine.execCmpi rd imm s
  | .isz rd => Sys2Proof.Machine.execIsz rd s
  | .isn rd => Sys2Proof.Machine.execIsn rd s
  | .isp rd => Sys2Proof.Machine.execIsp rd s
  | .d2f rd => Sys2Proof.Machine.execD2f rd s
  | .f2d rd imm => Sys2Proof.Machine.execF2d rd imm s

end Sys2Proof.Machine
end

