-- ==== Sys2Proof/Machine/HostPort.lean ====
section
/-! DEFINITION. The host's side of the unit (R42, R58, D36): what it writes, what it reads, and what becomes of a word
that is no command. -/

namespace Sys2Proof.Machine

/-- The host writes one byte of the text buffer (R20, R42). Only the indices 0..63 exist (R40). -/
def hostWriteText (i : Nat) (c : Byte) (s : State) : Out :=
  if i < Config.textBytes then .next { s with tb := s.tb.write i c } else .fault .noTextByte

/-- The host writes `TLEN` (R19). A value above 64 fits the register and is refused by D2F (R41). -/
def hostWriteTlen (n : BitVec 7) (s : State) : Out := .next { s with tlen := n }

/-- The host reads `IRES` (R17, R58). -/
def hostReadIres (s : State) : BitVec 16 := s.ires

/-- The host reads `ERR` (R18, R58). -/
def hostReadErr (s : State) : BitVec 16 := s.err

/-- The host reads `TLEN` (R19, R58). -/
def hostReadTlen (s : State) : BitVec 7 := s.tlen

/-- The host reads a text byte, none where it has not been written (R20, R42). -/
def hostReadText (s : State) (i : Nat) : Option Byte := s.tb.read i

/-- A reserved or malformed word: refused, with no error code (R54, R184 item 2); a halted unit comes first (R59). -/
def rejectWord (why : Reserved) (s : State) : Out := issue [] s (.refused (.reservedWord why))

/-- The state in which the host's next action is to present the word `w`. -/
def presentWord (s : State) (w : Command) : State := { s with host := .command w :: s.host }

end Sys2Proof.Machine
end

