-- ==== Sys2Proof/Machine/Step.lean ====
section
/-! DEFINITION. One step of the machine: the host's next action. The unit has no program counter and no fetch (R25,
R49): the host presents each word. -/

namespace Sys2Proof.Machine

/-- The unit is given a command word (R50, R58). -/
def runWord (w : Command) (s : State) : Out :=
  match decode w with
  | .ok i => exec i s
  | .error why => rejectWord why s

/-- One action of the host. -/
def hostAction (e : HostEvent) (s : State) : Out :=
  match e with
  | .command w => runWord w s
  | .writeText i c => hostWriteText i c s
  | .writeTlen n => hostWriteTlen n s
  | .reset => .next (resetUnit s)

/-- One step: the next action of the host is taken off the list and done. With no action to come nothing happens
(log entry 2). -/
def step (s : State) : Host.Outcome State Fault Refusal :=
  match s.host with
  | [] => .next s
  | e :: rest => hostAction e { s with host := rest }

/-- The state in which the host's next action is to present the table row's word (log entry 3). -/
def State.withFetchWord (s : State) (nbits w : Nat) : State := presentWord s (BitVec.ofNat 32 (w % 2 ^ nbits))

end Sys2Proof.Machine
end

