-- ==== Sys2Proof/Safety.lean ====
section
/-! DEFINITION. The terms in which the claims speak: halted and running, the invariant, what a register holds, and the
frames of the commands. -/

namespace Sys2Proof.Safety

open Sys2Proof.Machine

/-- The unit is halted (R18, R178). -/
abbrev Halted (s : State) : Prop := s.err ≠ 0

/-- The unit accepts commands (R18, R190). -/
abbrev Running (s : State) : Prop := s.err = 0

/-- `ERR` holds one of its three values (R18). -/
abbrev LegalErr (s : State) : Prop := s.err = 0 ∨ s.err = 3 ∨ s.err = 4

/-- The invariant that every step keeps: `ERR` holds one of its three values (R18), and the text buffer keeps its
canonical form, with no index outside 0..63 (R20, R40). -/
structure Inv (s : State) : Prop where
  err : LegalErr s
  tb : s.tb.wf = true

/-- All three fields of `F[r]` are valid and are the Float `v` (R10, R16). -/
structure Holds (s : State) (r : RegNum) (v : Flt) : Prop where
  msw : (s.reg r).mswValid = true
  lsw : (s.reg r).lswValid = true
  exp : (s.reg r).expValid = true
  val : (s.reg r).toFlt = v

/-- `F[r]` holds the canonical Float `v` (R12, R59). -/
structure HoldsCanonical (s : State) (r : RegNum) (v : Flt) : Prop where
  holds : Holds s r v
  canon : canonical v = true

/-- Everything but the Float registers is as it was (the frame of R41, R17, R18). -/
structure SameOutsideFloats (s t : State) : Prop where
  ires : t.ires = s.ires
  err : t.err = s.err
  tlen : t.tlen = s.tlen
  text : ∀ i, t.tb.read i = s.tb.read i
  host : t.host = s.host

/-- `F[r]` has become the Float `v`, valid in all three fields, and nothing else has changed. -/
structure OnlyFloat (s t : State) (r : RegNum) (v : Flt) : Prop where
  msw : (t.reg r).msw = mswOf v.mant
  lsw : (t.reg r).lsw = lswOf v.mant
  exp : (t.reg r).exp = BitVec.ofInt 16 v.exp
  mswValid : (t.reg r).mswValid = true
  lswValid : (t.reg r).lswValid = true
  expValid : (t.reg r).expValid = true
  others : ∀ q, q ≠ r → t.reg q = s.reg q
  rest : SameOutsideFloats s t

/-- `IRES` has become `v`, and nothing else has changed. -/
structure OnlyIres (s t : State) (v : Half) : Prop where
  ires : t.ires = v
  floats : ∀ q, t.reg q = s.reg q
  err : t.err = s.err
  tlen : t.tlen = s.tlen
  text : ∀ i, t.tb.read i = s.tb.read i
  host : t.host = s.host

/-- `ERR` has become the code `c`, and nothing else has changed (R178). -/
structure OnlyErr (s t : State) (c : BitVec 16) : Prop where
  err : t.err = c
  floats : ∀ q, t.reg q = s.reg q
  ires : t.ires = s.ires
  tlen : t.tlen = s.tlen
  text : ∀ i, t.tb.read i = s.tb.read i
  host : t.host = s.host

/-- The text buffer holds the characters `cs` from index 0 on, with their number in `TLEN`; the bytes behind them and
everything else are as they were (R41, R158). -/
structure OnlyText (s t : State) (cs : List Byte) : Prop where
  tlen : t.tlen.toNat = cs.length
  text : ∀ i (h : i < cs.length), t.tb.read i = some cs[i]
  behind : ∀ i, cs.length ≤ i → t.tb.read i = s.tb.read i
  floats : ∀ q, t.reg q = s.reg q
  ires : t.ires = s.ires
  err : t.err = s.err
  host : t.host = s.host

/-- The text that D2F reads: `TLEN` is at most 64 and every byte below it has been written (R167). -/
structure HoldsText (s : State) (cs : List Byte) : Prop where
  length : cs.length = s.tlen.toNat
  fits : s.tlen.toNat ≤ Config.textBytes
  text : ∀ i (h : i < cs.length), s.tb.read i = some cs[i]

/-- All three fields of `F[r]` are valid (R16). -/
abbrev WholeValid (s : State) (r : RegNum) : Prop :=
  (s.reg r).mswValid = true ∧ (s.reg r).lswValid = true ∧ (s.reg r).expValid = true

/-- Every register field that the command reads has its valid bit set (R59 item 3). -/
def FieldsValid (i : Instr) (s : State) : Prop :=
  match i with
  | .setz _ | .seti _ _ | .ldpinf _ | .ldninf _ | .maxe | .mine | .wrm _ _ | .wrl _ _ | .wre _ _ | .d2f _ => True
  | .set _ rs => WholeValid s rs
  | .rdm rd | .isn rd => (s.reg rd).mswValid = true
  | .rdl rd => (s.reg rd).lswValid = true
  | .rde rd => (s.reg rd).expValid = true
  | .isz rd | .isp rd => (s.reg rd).mswValid = true ∧ (s.reg rd).lswValid = true
  | .neg rd | .norm rd | .sqrt rd | .addi rd _ | .subi rd _ | .muli rd _ | .divi rd _ | .cmpi rd _ | .f2d rd _ =>
    WholeValid s rd
  | .add rd rs | .sub rd rs | .mul rd rs | .div rd rs | .cmp rd rs => WholeValid s rd ∧ WholeValid s rs

/-- Every Float that an arithmetic, compare or F2D command reads is canonical (R59 item 4). -/
def OperandsCanonical (i : Instr) (s : State) : Prop :=
  match i with
  | .setz _ | .seti _ _ | .ldpinf _ | .ldninf _ | .maxe | .mine | .wrm _ _ | .wrl _ _ | .wre _ _ | .d2f _
  | .set _ _ | .rdm _ | .isn _ | .rdl _ | .rde _ | .isz _ | .isp _ | .neg _ | .norm _ => True
  | .sqrt rd | .addi rd _ | .subi rd _ | .muli rd _ | .divi rd _ | .cmpi rd _ | .f2d rd _ =>
    canonical (s.reg rd).toFlt = true
  | .add rd rs | .sub rd rs | .mul rd rs | .div rd rs | .cmp rd rs =>
    canonical (s.reg rd).toFlt = true ∧ canonical (s.reg rs).toFlt = true

/-- The commands that write a Float register (R15). -/
def writesFloat : Instr → Bool
  | .setz _ | .set _ _ | .seti _ _ | .ldpinf _ | .ldninf _ | .wrm _ _ | .wrl _ _ | .wre _ _ | .neg _ | .add _ _
  | .addi _ _ | .sub _ _ | .subi _ _ | .mul _ _ | .muli _ _ | .div _ _ | .divi _ _ | .sqrt _ | .norm _ | .d2f _ => true
  | .maxe | .mine | .rdm _ | .rdl _ | .rde _ | .cmp _ _ | .cmpi _ _ | .isz _ | .isn _ | .isp _ | .f2d _ _ => false

/-- The commands that write `IRES` (R17). -/
def writesIres : Instr → Bool
  | .maxe | .mine | .rdm _ | .rdl _ | .rde _ | .cmp _ _ | .cmpi _ _ | .isz _ | .isn _ | .isp _ => true
  | .setz _ | .set _ _ | .seti _ _ | .ldpinf _ | .ldninf _ | .wrm _ _ | .wrl _ _ | .wre _ _ | .neg _ | .add _ _
  | .addi _ _ | .sub _ _ | .subi _ _ | .mul _ _ | .muli _ _ | .div _ _ | .divi _ _ | .sqrt _ | .norm _ | .d2f _
  | .f2d _ _ => false

/-- The commands whose result is canonical whatever they read: those of the first column of R12, without the raw
writes and the copies SET and NEG. -/
def producesCanonical : Instr → Bool
  | .setz _ | .seti _ _ | .ldpinf _ | .ldninf _ | .add _ _ | .addi _ _ | .sub _ _ | .subi _ _ | .mul _ _ | .muli _ _
  | .div _ _ | .divi _ _ | .sqrt _ | .norm _ | .d2f _ => true
  | .set _ _ | .wrm _ _ | .wrl _ _ | .wre _ _ | .neg _ | .maxe | .mine | .rdm _ | .rdl _ | .rde _ | .cmp _ _
  | .cmpi _ _ | .isz _ | .isn _ | .isp _ | .f2d _ _ => false

/-- A host action that reaches no text byte that does not exist (R40). -/
def EventFits : HostEvent → Prop
  | .writeText i _ => i < Config.textBytes
  | .command _ | .writeTlen _ | .reset => True

/-- A character that starts no phase of the scan of R165: a stray character. -/
def isStray (c : Byte) : Bool :=
  !isSpaceChar c && !isSignChar c && !isDigitChar c && c != 0x2E#8 && c != 0x65#8 && c != 0x45#8

/-- The number that a list of digit characters stands for, `n` the number read so far. -/
def decimalNumber : Nat → List Byte → Nat
  | n, [] => n
  | n, c :: cs => decimalNumber (n * 10 + digitOf c) cs

/-- `f` is the one canonical Float nearest to the real number `x`: every other one is further away (R22). -/
def NearestFloat (f : Flt) (x : ℝ) : Prop :=
  canonical f = true ∧ ∀ g : Flt, canonical g = true → g ≠ f → |x - (f.value : ℝ)| < |x - (g.value : ℝ)|

/-- A safe run: `k` steps from `s` meet no fault of the model. -/
def SafeFor (k : Nat) (s : State) : Prop := ∀ r, Sys2Proof.core.run k s ≠ .fault r

end Sys2Proof.Safety
end

