-- ==== Sys2Proof/Certificates/Slice0/Obligations.lean ====
section
/-! DEFINITION. The statements for the provers, each a Prop about the model. What each formalises of the spec is in its
docstring and in OBLIGATIONS.json. -/

open Sys2Proof Sys2Proof.Machine Sys2Proof.Safety

/-- Decoding the word of any legal command gives that command back (30_encoding.md R50; 30_encoding.md R51;
30_encoding.md R53). -/
def Obligations.DecodeOfEncode : Prop :=
  ∀ i : Instr, WellFormed i → decode (encode i) = .ok i

/-- A word that decodes is the word of the command it decodes to, and that command is legal (30_encoding.md R50;
30_encoding.md R51; 30_encoding.md R54). -/
def Obligations.EncodeOfDecode : Prop :=
  ∀ (w : Command) (i : Instr), decode w = .ok i → WellFormed i ∧ encode i = w

/-- A word is a command exactly when a row of the opcode table matches it under its mask (30_encoding.md R51;
30_encoding.md R53; 30_encoding.md R54). -/
def Obligations.DecodesExactlyTheTable : Prop :=
  ∀ w : Command, (∃ i, decode w = .ok i) ↔ ∃ row ∈ opcodeRows, w &&& row.1 = row.2

/-- The example words of R56 decode to the commands the spec writes beside them (30_encoding.md R53; 30_encoding.md
R56). -/
def Obligations.SampleWordsDecode : Prop :=
  decode 0x21010000#32 = .ok (.add 0 1) ∧ decode 0x12000163#32 = .ok (.seti 0 355) ∧
  decode 0x1220FF6A#32 = .ok (.seti 2 (-150)) ∧ decode 0x41000006#32 = .ok (.f2d 0 6) ∧
  decode 0x29300000#32 = .ok (.sqrt 3) ∧ decode 0x15000000#32 = .ok .maxe

/-- A word that no row of the table matches is refused by a running unit (30_encoding.md R54; 60_exceptions.md R184). -/
def Obligations.ReservedWordsRefused : Prop :=
  ∀ (s : State) (w : Command) (rest : List HostEvent), Running s → s.host = .command w :: rest →
    (∀ row ∈ opcodeRows, w &&& row.1 ≠ row.2) → ∃ why, step s = .refused (.reservedWord why)

/-- A command with a register number 8..15 is refused by a running unit (30_encoding.md R51; 30_encoding.md R54). -/
def Obligations.IllegalRegisterNumbersRefused : Prop :=
  ∀ (i : Instr) (s : State), Running s → ¬ WellFormed i → exec i s = .refused .noSuchRegister

/-- A step runs the command at the head of the model's list host (log entries 2 and 3, DESIGN CHOICE) (30_encoding.md
R50; 30_encoding.md R58). That the word stands at the head of the field host and is taken off it is the model's
own form of the presentation: log entries 2 and 3, DESIGN CHOICE. -/
def Obligations.StepRunsPresentedCommand : Prop :=
  ∀ (s : State) (w : Command) (rest : List HostEvent) (i : Instr), s.host = .command w :: rest → decode w = .ok i →
    step s = exec i { s with host := rest }

/-- While ERR is not 0 a command changes nothing (as a next state: the model's choice, log entry 4) (10_state.md R18;
60_exceptions.md R178; 93_implementation_defined.md section 2). -/
def Obligations.HaltedUnitChangesNothing : Prop :=
  ∀ (s : State), Halted s →
    (∀ (w : Command) (rest : List HostEvent), s.host = .command w :: rest → step s = .next { s with host := rest }) ∧
    ∀ i : Instr, exec i s = .next s

/-- After reset ERR is 0, no register field is valid and no text byte is written (70_reset_and_hazards.md R190;
10_state.md R16; 20_memory.md R42). -/
def Obligations.ResetLeavesUnreadableRegisters : Prop :=
  State.reset.err = 0 ∧ (∀ r : RegNum, LegalReg r → (State.reset.reg r).mswValid = false ∧
    (State.reset.reg r).lswValid = false ∧ (State.reset.reg r).expValid = false) ∧
    ∀ i : Nat, State.reset.tb.read i = none

/-- A reset leaves every state for one with ERR 0 and nothing readable (host keeps its rest: log entry 22, DESIGN
CHOICE) (70_reset_and_hazards.md R190; 60_exceptions.md R179). The clause t.host = rest rests on no rule: it is
the model's choice, log entry 22, DESIGN CHOICE (unsafe). -/
def Obligations.ResetLeavesTheHaltedState : Prop :=
  ∀ (s : State) (rest : List HostEvent), s.host = .reset :: rest →
    ∃ t, step s = .next t ∧ t.err = 0 ∧ t.host = rest ∧ (∀ i, t.tb.read i = none) ∧
      ∀ r : RegNum, (t.reg r).mswValid = false ∧ (t.reg r).lswValid = false ∧ (t.reg r).expValid = false

/-- Every step keeps ERR at 0, 3 or 4 and the text buffer in its canonical form within 0..63 (10_state.md R18;
10_state.md R20; 20_memory.md R40; 20_memory.md R41). -/
def Obligations.EveryStepKeepsTheInvariant : Prop :=
  ∀ s t : State, Inv s → step s = .next t → Inv t

/-- The invariant holds right after reset (70_reset_and_hazards.md R190; 10_state.md R18). -/
def Obligations.ResetHasTheInvariant : Prop :=
  Inv State.reset

/-- A running unit's ERR becomes 3 exactly on a zero divisor of DIV or DIVI, 4 exactly on a negative SQRT operand
(10_state.md R18; 60_exceptions.md R175; 60_exceptions.md R176; 60_exceptions.md R177). -/
def Obligations.ErrIsWrittenOnlyByDivAndSqrt : Prop :=
  ∀ (i : Instr) (s t : State), Running s → exec i s = .next t →
    (t.err = 0 ∨ t.err = 3 ∨ t.err = 4) ∧
    (t.err = 3 ↔ (∃ rd rs, i = .div rd rs ∧ (s.reg rs).msw = 0 ∧ (s.reg rs).lsw = 0) ∨ ∃ rd, i = .divi rd 0) ∧
    (t.err = 4 ↔ ∃ rd, i = .sqrt rd ∧ (s.reg rd).msw.getLsbD 15 = true)

/-- Taking a fault writes ERR and nothing else (60_exceptions.md R178). -/
def Obligations.FaultChangesOnlyErr : Prop :=
  ∀ (i : Instr) (s t : State), exec i s = .next t → t.err ≠ s.err →
    Running s ∧ (t.err = 3 ∨ t.err = 4) ∧ OnlyErr s t t.err

/-- Only CMP CMPI ISZ ISN ISP MAXE MINE RDM RDL RDE write IRES (10_state.md R17). -/
def Obligations.IresWrittenOnlyByItsCommands : Prop :=
  ∀ (i : Instr) (s t : State), writesIres i = false → exec i s = .next t → t.ires = s.ires

/-- No command but F2D changes the text buffer or TLEN (20_memory.md R41). -/
def Obligations.TextWrittenOnlyByF2d : Prop :=
  ∀ (i : Instr) (s t : State), (∀ rd imm, i ≠ .f2d rd imm) → exec i s = .next t →
    t.tlen = s.tlen ∧ ∀ k, t.tb.read k = s.tb.read k

/-- A command changes at most the Float register in its rd field, and only if it is a command that writes one
(10_state.md R15; 10_state.md R29). -/
def Obligations.OnlyTheReceiverChanges : Prop :=
  ∀ (i : Instr) (s t : State) (q : RegNum), exec i s = .next t → (q ≠ i.rdPart ∨ writesFloat i = false) →
    t.reg q = s.reg q

/-- No command clears a valid bit (10_state.md R16). -/
def Obligations.ValidBitsStaySet : Prop :=
  ∀ (i : Instr) (s t : State) (q : RegNum), exec i s = .next t →
    ((s.reg q).mswValid = true → (t.reg q).mswValid = true) ∧
    ((s.reg q).lswValid = true → (t.reg q).lswValid = true) ∧
    ((s.reg q).expValid = true → (t.reg q).expValid = true)

/-- A running unit refuses a command that reads a field whose valid bit is clear (10_state.md R16; 30_encoding.md R59;
60_exceptions.md R184). -/
def Obligations.InvalidFieldsRefused : Prop :=
  ∀ (i : Instr) (s : State), Running s → WellFormed i → ¬ FieldsValid i s → exec i s = .refused .invalidField

/-- A running unit refuses an arithmetic, compare or F2D command with a non-canonical operand (30_encoding.md R59;
60_exceptions.md R184). -/
def Obligations.NonCanonicalOperandsRefused : Prop :=
  ∀ (i : Instr) (s : State), Running s → WellFormed i → FieldsValid i s → ¬ OperandsCanonical i s →
    exec i s = .refused .nonCanonical

/-- Every command whose preconditions hold answers a next state (30_encoding.md R59; 42_normalizer.md R112;
49_decimal_to_fp.md R167). -/
def Obligations.ReadyCommandsComplete : Prop :=
  ∀ (i : Instr) (s : State), Running s → WellFormed i → FieldsValid i s → OperandsCanonical i s →
    (∀ rd, i = .norm rd → -32737 ≤ (s.reg rd).exp.toInt ∧ (s.reg rd).exp.toInt ≤ 32766) →
    (∀ rd, i = .d2f rd → ∃ cs, HoldsText s cs) → ∃ t, exec i s = .next t

/-- What a command writes to a register is canonical; raw writes apart, SET and NEG where what they read is canonical
(10_state.md R12; 43_adder.md R120). -/
def Obligations.WrittenFloatsAreCanonical : Prop :=
  (∀ (i : Instr) (s t : State), Running s → producesCanonical i = true → exec i s = .next t → t.err = 0 →
    ∃ v, HoldsCanonical t i.rdPart v) ∧
  (∀ (rd rs : RegNum) (s t : State) (v : Flt), Running s → HoldsCanonical s rs v → exec (.set rd rs) s = .next t →
    HoldsCanonical t rd v) ∧
  ∀ (rd : RegNum) (s t : State) (v : Flt), Running s → HoldsCanonical s rd v → exec (.neg rd) s = .next t →
    HoldsCanonical t rd ⟨-v.mant, v.exp⟩

/-- A text byte or a length that the host writes reads back, nothing else changes (TLEN 65..127: log entry 9; host:
log entry 2) (10_state.md R19; 10_state.md R20; 20_memory.md R42). R19 gives TLEN the lengths 0..64: that a write
of 65..127 leaves that value is the model's, log entry 9, DEDUCED (unsafe); the clause t.host = rest is the
model's, log entry 2, DESIGN CHOICE. -/
def Obligations.HostWritesReachTheText : Prop :=
  ∀ (s : State) (rest : List HostEvent),
    (∀ i c, s.host = .writeText i c :: rest → i < 64 → ∃ t, step s = .next t ∧ t.tb.read i = some c ∧
      (∀ k, k ≠ i → t.tb.read k = s.tb.read k) ∧ t.tlen = s.tlen ∧ t.err = s.err ∧ t.ires = s.ires ∧
      (∀ q, t.reg q = s.reg q) ∧ t.host = rest) ∧
    ∀ n, s.host = .writeTlen n :: rest → ∃ t, step s = .next t ∧ t.tlen = n ∧ (∀ k, t.tb.read k = s.tb.read k) ∧
      t.err = s.err ∧ t.ires = s.ires ∧ (∀ q, t.reg q = s.reg q) ∧ t.host = rest

/-- Only a host write to a text byte 64 or above ends a run in a fault of the model (noTextByte: log entry 9, DEDUCED)
(20_memory.md R40). R40 says which bytes exist: that a host write to another ends in the fault noTextByte is the
model's, log entry 9, DEDUCED. The unit's own exceptions are next states (log entry 14). -/
def Obligations.RunsFaultOnlyOnMissingTextBytes : Prop :=
  (∀ (k : Nat) (s : State), (∀ e ∈ s.host, EventFits e) → SafeFor k s) ∧
  ∀ (s : State) (i : Nat) (c : Byte) (rest : List HostEvent), s.host = .writeText i c :: rest → 64 ≤ i →
    step s = .fault .noTextByte

/-- SETZ, LDPINF and LDNINF load ZERO, INF and NEG_INF into F[rd] and change nothing else (R70; R74; R75). -/
def Obligations.ConstantLoadResults : Prop :=
  ∀ (rd : RegNum) (s : State), LegalReg rd → Running s →
    (encode (.setz rd) = commandWord 0x10 rd 0 0 ∧
      ∃ t, exec (.setz rd) s = .next t ∧ OnlyFloat s t rd ⟨0x00000000#32, -512⟩) ∧
    (encode (.ldpinf rd) = commandWord 0x13 rd 0 0 ∧
      ∃ t, exec (.ldpinf rd) s = .next t ∧ OnlyFloat s t rd ⟨0x7FFFFFFF#32, 511⟩) ∧
    encode (.ldninf rd) = commandWord 0x14 rd 0 0 ∧
      ∃ t, exec (.ldninf rd) s = .next t ∧ OnlyFloat s t rd ⟨0x80000001#32, 511⟩

/-- SET copies the three fields of F[rs] to F[rd], canonical or not, and changes nothing else (R71). -/
def Obligations.SetCopiesAnyBitPattern : Prop :=
  ∀ (rd rs : RegNum) (s : State) (v : Flt), LegalReg rd → LegalReg rs → Running s → Holds s rs v →
    encode (.set rd rs) = commandWord 0x11 rd rs 0 ∧
    ∃ t, exec (.set rd rs) s = .next t ∧ OnlyFloat s t rd v ∧ (t.reg rd).msw = (s.reg rs).msw ∧
      (t.reg rd).lsw = (s.reg rs).lsw ∧ (t.reg rd).exp = (s.reg rs).exp

/-- SETI loads normalize of the sign-extended immediate at exponent 30, a canonical Float of exactly that value
(40_lifecycle_and_access.md R72; 40_lifecycle_and_access.md R73). R73 marks normalize(sext_32(imm), 30) as derived
from rules R11, R92, R110 (decision D35): log entry 12, DEDUCED. -/
def Obligations.SetiLoadsTheIntegerExactly : Prop :=
  ∀ (rd : RegNum) (imm : Half) (s : State), LegalReg rd → Running s →
    encode (.seti rd imm) = commandWord 0x12 rd 0 imm ∧
    ∃ t, exec (.seti rd imm) s = .next t ∧ OnlyFloat s t rd (fpNormalize ⟨imm.signExtend 32, 30⟩) ∧
      canonical (fpNormalize ⟨imm.signExtend 32, 30⟩) = true ∧
      (fpNormalize ⟨imm.signExtend 32, 30⟩).value = (imm.toInt : ℚ)

/-- MAXE returns 511 and MINE -512 in IRES, and nothing else changes (R76; R77). -/
def Obligations.ExponentLimitResults : Prop :=
  ∀ s : State, Running s →
    (encode .maxe = 0x15000000#32 ∧ ∃ t, exec .maxe s = .next t ∧ OnlyIres s t 0x01FF#16) ∧
    encode .mine = 0x16000000#32 ∧ ∃ t, exec .mine s = .next t ∧ OnlyIres s t 0xFE00#16

/-- WRM, WRL and WRE write one field and its valid bit and leave the other fields and valid bits (R78; R79; R80). -/
def Obligations.RawFieldWriteResults : Prop :=
  ∀ (rd : RegNum) (imm : Half) (s : State), LegalReg rd → Running s →
    (encode (.wrm rd imm) = commandWord 0x18 rd 0 imm ∧ ∃ t, exec (.wrm rd imm) s = .next t ∧
      t.reg rd = { s.reg rd with msw := imm, mswValid := true } ∧
      (∀ q, q ≠ rd → t.reg q = s.reg q) ∧ SameOutsideFloats s t) ∧
    (encode (.wrl rd imm) = commandWord 0x19 rd 0 imm ∧ ∃ t, exec (.wrl rd imm) s = .next t ∧
      t.reg rd = { s.reg rd with lsw := imm, lswValid := true } ∧
      (∀ q, q ≠ rd → t.reg q = s.reg q) ∧ SameOutsideFloats s t) ∧
    encode (.wre rd imm) = commandWord 0x1A rd 0 imm ∧ ∃ t, exec (.wre rd imm) s = .next t ∧
      t.reg rd = { s.reg rd with exp := imm, expValid := true } ∧
      (∀ q, q ≠ rd → t.reg q = s.reg q) ∧ SameOutsideFloats s t

/-- RDM, RDL and RDE return one field in IRES and change nothing else (R81; R82; R83). -/
def Obligations.RawFieldReadResults : Prop :=
  ∀ (rd : RegNum) (s : State), LegalReg rd → Running s →
    (encode (.rdm rd) = commandWord 0x1C rd 0 0 ∧ ((s.reg rd).mswValid = true →
      ∃ t, exec (.rdm rd) s = .next t ∧ OnlyIres s t (s.reg rd).msw)) ∧
    (encode (.rdl rd) = commandWord 0x1D rd 0 0 ∧ ((s.reg rd).lswValid = true →
      ∃ t, exec (.rdl rd) s = .next t ∧ OnlyIres s t (s.reg rd).lsw)) ∧
    encode (.rde rd) = commandWord 0x1E rd 0 0 ∧ ((s.reg rd).expValid = true →
      ∃ t, exec (.rde rd) s = .next t ∧ OnlyIres s t (s.reg rd).exp)

/-- NORM replaces F[rd] by its normalized value, and is refused outside the exponent range of R112 (R112). -/
def Obligations.NormResult : Prop :=
  ∀ (rd : RegNum) (s : State) (v : Flt), LegalReg rd → Running s → Holds s rd v →
    encode (.norm rd) = commandWord 0x2A rd 0 0 ∧
    (-32737 ≤ v.exp ∧ v.exp ≤ 32766 → ∃ t, exec (.norm rd) s = .next t ∧ OnlyFloat s t rd (fpNormalize v)) ∧
    (v.exp < -32737 ∨ 32766 < v.exp → exec (.norm rd) s = .refused .exponentRange)

/-- NEG negates the mantissa of F[rd], any bit pattern, and leaves its exponent and everything else (R121). -/
def Obligations.NegResult : Prop :=
  ∀ (rd : RegNum) (s : State) (v : Flt), LegalReg rd → Running s → Holds s rd v →
    encode (.neg rd) = commandWord 0x20 rd 0 0 ∧
    ∃ t, exec (.neg rd) s = .next t ∧ OnlyFloat s t rd ⟨-v.mant, v.exp⟩ ∧ (t.reg rd).exp = (s.reg rd).exp ∧
      (v.mant = 0x80000000#32 ∨ v.mant = 0#32 → t.reg rd = s.reg rd)

/-- ADD, SUB and MUL put the sum, difference, product of both registers into F[rd] and change nothing else
(43_adder.md R123; 43_adder.md R125; 44_multiplier.md R131; 70_reset_and_hazards.md R195). -/
def Obligations.RegisterArithmeticResults : Prop :=
  ∀ (rd rs : RegNum) (s : State) (a b : Flt), LegalReg rd → LegalReg rs → Running s → HoldsCanonical s rd a →
    HoldsCanonical s rs b →
    (encode (.add rd rs) = commandWord 0x21 rd rs 0 ∧
      ∃ t, exec (.add rd rs) s = .next t ∧ OnlyFloat s t rd (fpAdd a b)) ∧
    (encode (.sub rd rs) = commandWord 0x23 rd rs 0 ∧
      ∃ t, exec (.sub rd rs) s = .next t ∧ OnlyFloat s t rd (fpSub a b)) ∧
    encode (.mul rd rs) = commandWord 0x25 rd rs 0 ∧
      ∃ t, exec (.mul rd rs) s = .next t ∧ OnlyFloat s t rd (fpMult a b)

/-- ADDI, SUBI and MULI work with the Float of the signed immediate and change only F[rd] (43_adder.md R126;
43_adder.md R127; 44_multiplier.md R132). -/
def Obligations.ImmediateArithmeticResults : Prop :=
  ∀ (rd : RegNum) (imm : Half) (s : State) (a : Flt), LegalReg rd → Running s → HoldsCanonical s rd a →
    (encode (.addi rd imm) = commandWord 0x22 rd 0 imm ∧
      ∃ t, exec (.addi rd imm) s = .next t ∧ OnlyFloat s t rd (fpAdd a (setInt imm))) ∧
    (encode (.subi rd imm) = commandWord 0x24 rd 0 imm ∧
      ∃ t, exec (.subi rd imm) s = .next t ∧ OnlyFloat s t rd (fpSub a (setInt imm))) ∧
    encode (.muli rd imm) = commandWord 0x26 rd 0 imm ∧
      ∃ t, exec (.muli rd imm) s = .next t ∧ OnlyFloat s t rd (fpMult a (setInt imm))

/-- DIV and DIVI put the quotient into F[rd], or on a zero divisor set ERR to 3 and change nothing else (45_divider.md
R136; 45_divider.md R137; 60_exceptions.md R176). -/
def Obligations.DivideResults : Prop :=
  ∀ (rd : RegNum) (s : State) (a : Flt), LegalReg rd → Running s → HoldsCanonical s rd a →
    (∀ (rs : RegNum) (b : Flt), LegalReg rs → HoldsCanonical s rs b →
      encode (.div rd rs) = commandWord 0x27 rd rs 0 ∧
      (b.mant ≠ 0 → ∃ q t, fpDiv a b = .ok q ∧ exec (.div rd rs) s = .next t ∧ OnlyFloat s t rd q) ∧
      (b.mant = 0 → ∃ t, exec (.div rd rs) s = .next t ∧ OnlyErr s t 3)) ∧
    ∀ imm : Half,
      encode (.divi rd imm) = commandWord 0x28 rd 0 imm ∧
      (imm ≠ 0 → ∃ q t, fpDiv a (setInt imm) = .ok q ∧ exec (.divi rd imm) s = .next t ∧ OnlyFloat s t rd q) ∧
      (imm = 0 → ∃ t, exec (.divi rd imm) s = .next t ∧ OnlyErr s t 3)

/-- SQRT of a non-negative operand always has a canonical result (its six divisions never fault); a negative one sets
ERR to 4 (46_sqrt.md R140; 46_sqrt.md R141; 60_exceptions.md R176; 60_exceptions.md R177). -/
def Obligations.SqrtResult : Prop :=
  ∀ (rd : RegNum) (s : State) (n : Flt), LegalReg rd → Running s → HoldsCanonical s rd n →
    encode (.sqrt rd) = commandWord 0x29 rd 0 0 ∧
    (n.mant.getLsbD 31 = false → ∃ v t, fpSqrt n = .ok v ∧ canonical v = true ∧
      exec (.sqrt rd) s = .next t ∧ OnlyFloat s t rd v ∧ (n.mant = 0 → v = n)) ∧
    (n.mant.getLsbD 31 = true → ∃ t, exec (.sqrt rd) s = .next t ∧ OnlyErr s t 4)

/-- CMP and CMPI return -1, 0 or +1 in IRES by the sign of the rounded difference and change nothing else
(47_compare_and_tests.md R146; 47_compare_and_tests.md R147). -/
def Obligations.CompareResults : Prop :=
  ∀ (rd : RegNum) (s : State) (a : Flt), LegalReg rd → Running s → HoldsCanonical s rd a →
    (∀ (rs : RegNum) (b : Flt), LegalReg rs → HoldsCanonical s rs b →
      encode (.cmp rd rs) = commandWord 0x30 rd rs 0 ∧ ∃ t, exec (.cmp rd rs) s = .next t ∧
      OnlyIres s t (if (fpSub a b).mant.toInt < 0 then 0xFFFF#16 else if (fpSub a b).mant = 0 then 0#16 else 1#16)) ∧
    ∀ imm : Half, encode (.cmpi rd imm) = commandWord 0x31 rd 0 imm ∧ ∃ t, exec (.cmpi rd imm) s = .next t ∧
      OnlyIres s t (if (fpSub a (setInt imm)).mant.toInt < 0 then 0xFFFF#16
        else if (fpSub a (setInt imm)).mant = 0 then 0#16 else 1#16)

/-- ISZ, ISN and ISP return 1 or 0 in IRES by msw and lsw alone; exactly one of them gives 1 (47_compare_and_tests.md
R148; 47_compare_and_tests.md R149; 47_compare_and_tests.md R150). That exactly one of the three gives 1 is a
sentence of R150 that the spec marks as derived from R148 and R149. -/
def Obligations.SignTestResults : Prop :=
  ∀ (rd : RegNum) (s : State), LegalReg rd → Running s →
    (encode (.isz rd) = commandWord 0x32 rd 0 0 ∧ ((s.reg rd).mswValid = true ∧ (s.reg rd).lswValid = true →
      ∃ t, exec (.isz rd) s = .next t ∧
        OnlyIres s t (if (s.reg rd).msw = 0 ∧ (s.reg rd).lsw = 0 then 1#16 else 0#16))) ∧
    (encode (.isn rd) = commandWord 0x33 rd 0 0 ∧ ((s.reg rd).mswValid = true →
      ∃ t, exec (.isn rd) s = .next t ∧
        OnlyIres s t (if (s.reg rd).msw.getLsbD 15 = true then 1#16 else 0#16))) ∧
    (encode (.isp rd) = commandWord 0x34 rd 0 0 ∧ ((s.reg rd).mswValid = true ∧ (s.reg rd).lswValid = true →
      ∃ t, exec (.isp rd) s = .next t ∧
        OnlyIres s t (if (s.reg rd).msw.getLsbD 15 = false ∧ ((s.reg rd).msw ≠ 0 ∨ (s.reg rd).lsw ≠ 0)
          then 1#16 else 0#16))) ∧
    ∀ m : Mant, (isZero m = true ∧ isNeg m = false ∧ isPos m = false) ∨
      (isZero m = false ∧ isNeg m = true ∧ isPos m = false) ∨ (isZero m = false ∧ isNeg m = false ∧ isPos m = true)

/-- F2D writes the decimal text to TB from index 0 and its length to TLEN, and changes nothing else
(48_fp_to_decimal.md R158; 20_memory.md R41). -/
def Obligations.F2dResult : Prop :=
  ∀ (rd : RegNum) (imm : Half) (s : State) (f : Flt), LegalReg rd → Running s → HoldsCanonical s rd f →
    encode (.f2d rd imm) = commandWord 0x41 rd 0 imm ∧
    ∃ t, exec (.f2d rd imm) s = .next t ∧
      OnlyText s t (toText decRom f (if imm.toInt < 1 then 1 else if 10 < imm.toInt then 10 else imm.toNat))

/-- D2F puts the value of the text TB[0..TLEN-1] into F[rd]; a text too long or not written is refused
(49_decimal_to_fp.md R167; 20_memory.md R41; 20_memory.md R42). -/
def Obligations.D2fResult : Prop :=
  ∀ (rd : RegNum) (s : State), LegalReg rd → Running s →
    encode (.d2f rd) = commandWord 0x40 rd 0 0 ∧
    (∀ cs, HoldsText s cs → canonical (setString decRom cs) = true ∧
      ∃ t, exec (.d2f rd) s = .next t ∧ OnlyFloat s t rd (setString decRom cs)) ∧
    (64 < s.tlen.toNat → exec (.d2f rd) s = .refused .textTooLong) ∧
    (s.tlen.toNat ≤ 64 → (∃ i < s.tlen.toNat, s.tb.read i = none) → exec (.d2f rd) s = .refused .unwrittenText)

/-- mant_neg by halves is negation modulo 2^32 (R95). -/
def Obligations.MantissaNegationBySplitHalves : Prop :=
  (∀ m : Mant, (mantNeg m).toNat = (2 ^ 32 - m.toNat) % 2 ^ 32 ∧ lswOf (mantNeg m) = ~~~(lswOf m) + 1 ∧
    mswOf (mantNeg m) = if ~~~(lswOf m) + 1 = 0 then ~~~(mswOf m) + 1 else ~~~(mswOf m)) ∧
  mantNeg 0x80000000#32 = 0x80000000#32

/-- 31 iterations of shift-and-add give the exact product of x[30:0] and m, split into two words (R104). -/
def Obligations.LongMultiplyIsExact : Prop :=
  ∀ x m : Mant, (mantLongUmult x m).1.toNat * 2 ^ 32 + (mantLongUmult x m).2.toNat = x.toNat % 2 ^ 31 * m.toNat ∧
    (x.toNat < 2 ^ 31 → m.toNat < 2 ^ 31 →
      (mantLongUmult x m).1.toNat * 2 ^ 32 + (mantLongUmult x m).2.toNat < 2 ^ 62)

/-- mant_SRA divides rounding down and returns the last bit shifted out, for every count; denormalize shifts by it
(41_mantissa_kernel.md R99; 41_mantissa_kernel.md R100; 10_state.md R23; 42_normalizer.md R111). -/
def Obligations.ArithmeticShiftAndDenormalize : Prop :=
  (∀ (m : Mant) (n : Nat), (mantSra m n).1.toInt = m.toInt / 2 ^ n ∧ (n = 0 → (mantSra m n).2 = false) ∧
    (1 ≤ n → ((mantSra m n).2 = true ↔ m.toInt / 2 ^ (n - 1) % 2 = 1)) ∧
    (1 ≤ n → n ≤ 30 → mantSraByRotate m n = (mantSra m n).1)) ∧
  ∀ (f : Flt) (t : Int), (t ≤ f.exp → fpDenormalize f t = (f, false)) ∧
    ∀ n : Nat, 1 ≤ n → t = f.exp + n → (fpDenormalize f t).1.exp = t ∧
      (fpDenormalize f t).1.mant.toInt = f.mant.toInt / 2 ^ n ∧
      (fpDenormalize f t).1.mant.toInt + (if (fpDenormalize f t).2 = true then 1 else 0) =
        (2 * f.mant.toInt + 2 ^ n) / 2 ^ (n + 1)

/-- The carry and borrow rules on half-words give the true unsigned carry and borrow (41_mantissa_kernel.md R105). The
spec marks this sentence of R105 as derived by cases on the two top bits. -/
def Obligations.HalfWordCarryRules : Prop :=
  ∀ a b : Half, (addCarry a b = true ↔ 2 ^ 16 ≤ a.toNat + b.toNat) ∧ (subBorrow a b = true ↔ a.toNat < b.toNat)

/-- normalize gives a canonical Float for every input and leaves canonical Floats as they are (42_normalizer.md R114;
42_normalizer.md R110; 10_state.md R12). -/
def Obligations.NormalizeIsCanonicalAndIdempotent : Prop :=
  (∀ f : Flt, canonical (fpNormalize f) = true) ∧ (∀ f : Flt, canonical f = true → fpNormalize f = f) ∧
  ∀ f : Flt, fpNormalize (fpNormalize f) = fpNormalize f

/-- normalize keeps every value in range, flushes those below 2^-512 to ZERO and saturates those from 2^512 on
(42_normalizer.md R114; 10_state.md R11). -/
def Obligations.NormalizeKeepsTheValue : Prop :=
  ∀ f : Flt, (|f.value| < 2 ^ (-512 : Int) → fpNormalize f = fltZero) ∧
    (2 ^ (512 : Int) ≤ f.value → fpNormalize f = fltInf) ∧ (f.value ≤ -2 ^ (512 : Int) → fpNormalize f = fltNegInf) ∧
    (2 ^ (-512 : Int) ≤ |f.value| → |f.value| < 2 ^ (512 : Int) →
      if f.value = -2 ^ (-512 : Int) ∧ -512 < f.exp then fpNormalize f = fltZero
      else (fpNormalize f).value = f.value)

/-- fp_add commutes on all Floats, and ZERO is neutral for canonical ones (43_adder.md R122; 43_adder.md R128). -/
def Obligations.AddCommutesWithZeroNeutral : Prop :=
  (∀ a b : Flt, fpAdd a b = fpAdd b a) ∧
  ∀ a : Flt, canonical a = true → fpAdd a fltZero = a ∧ fpSub a fltZero = a

/-- At equal exponents fp_add is exact, but for an underflow to ZERO, -2^31 at exponent 511, and an overflow that
drops a 1 (43_adder.md R128; 43_adder.md R122). -/
def Obligations.AddIsExactAtEqualExponents : Prop :=
  ∀ a b : Flt, canonical a = true → canonical b = true → a.exp = b.exp →
    ∀ S : Int, S = a.mant.toInt + b.mant.toInt →
    (-2 ^ 31 ≤ S → S < 2 ^ 31 →
      if S = -2 ^ 31 ∧ a.exp = 511 then fpAdd a b = fltNegInf
      else if S ≠ 0 ∧ S ≠ -2 ^ 30 ∧ -2 ^ 30 ≤ S * 2 ^ (a.exp + 512).toNat ∧ S * 2 ^ (a.exp + 512).toNat < 2 ^ 30 then
        fpAdd a b = fltZero
      else (fpAdd a b).value = a.value + b.value) ∧
    (S < -2 ^ 31 ∨ 2 ^ 31 ≤ S →
      (a.exp = 511 → fpAdd a b = if S < 0 then fltNegInf else fltInf) ∧
      (a.exp < 511 → 2 ∣ S → (fpAdd a b).value = a.value + b.value))

/-- x + x raises the exponent, x - x is ZERO, x / x is 1, compare(x, x) is 0 (70_reset_and_hazards.md R195;
43_adder.md R128; 45_divider.md R136; 47_compare_and_tests.md R145). -/
def Obligations.SameOperandArithmetic : Prop :=
  ∀ x : Flt, canonical x = true → fpSub x x = fltZero ∧ fpCompare x x = 0 ∧
    (x.mant ≠ 0 → fpDiv x x = .ok ⟨0x40000000#32, 0⟩ ∧
      (x.exp < 511 → fpAdd x x = ⟨x.mant, x.exp + 1⟩))

/-- fp_mult commutes, 1 is neutral and ZERO absorbs, for canonical operands (44_multiplier.md R131; 44_multiplier.md
R130). -/
def Obligations.MultiplyIsCommutativeWithUnitAndZero : Prop :=
  ∀ a b : Flt, canonical a = true → canonical b = true →
    fpMult a b = fpMult b a ∧ fpMult a ⟨0x40000000#32, 0⟩ = a ∧ fpMult a fltZero = fltZero

/-- fp_mult is the exact product of the magnitudes rounded half up to 31 bits, signed and normalized (44_multiplier.md
R130). -/
def Obligations.MultiplyRoundsTheExactProduct : Prop :=
  ∀ a b : Flt, canonical a = true → canonical b = true → a.mant ≠ 0 → b.mant ≠ 0 →
    ∀ P q : Nat, ∀ e : Int, P = a.mant.toInt.natAbs * b.mant.toInt.natAbs →
    q = (if 2 ^ 61 ≤ P then (P + 2 ^ 30) / 2 ^ 31 else (P + 2 ^ 29) / 2 ^ 30) →
    e = (if 2 ^ 61 ≤ P then a.exp + b.exp + 1 else a.exp + b.exp) →
    fpMult a b = fpNormalize
      ⟨(if (a.mant.toInt < 0 ↔ b.mant.toInt < 0) then 1 else -1) * BitVec.ofNat 32 (if q = 2 ^ 31 then 2 ^ 30 else q),
        if q = 2 ^ 31 then e + 1 else e⟩

/-- fp_div is the exact quotient of the pre-aligned magnitudes rounded half up to 31 bits; the overflow of that
rounding never happens (45_divider.md R135). -/
def Obligations.DivideRoundsTheExactQuotient : Prop :=
  ∀ a b : Flt, canonical a = true → canonical b = true → b.mant ≠ 0 →
    ∀ A B N : Nat, A = a.mant.toInt.natAbs → B = b.mant.toInt.natAbs →
    N = (if A < B then 2 * A else A) * 2 ^ 30 →
    (2 * N + B) / (2 * B) < 2 ^ 31 ∧
    fpDiv a b = .ok (fpNormalize
      ⟨(if (a.mant.toInt < 0 ↔ b.mant.toInt < 0) then 1 else -1) * BitVec.ofNat 32 ((2 * N + B) / (2 * B)),
        a.exp - b.exp - (if A < B then 1 else 0)⟩)

/-- A compare result that is not 0 has the sign of the true difference of the values (47_compare_and_tests.md R145). -/
def Obligations.CompareIsNeverWrongInSign : Prop :=
  ∀ a b : Flt, canonical a = true → canonical b = true →
    (fpCompare a b = 1 → b.value < a.value) ∧ (fpCompare a b = -1 → a.value < b.value)

/-- Each decimal constant is the Float nearest to its real value (log entry 11), the masks are 2^n - 1, powers
saturate (10_state.md R21; 10_state.md R22; 10_state.md R23; 70_reset_and_hazards.md R191; 48_fp_to_decimal.md
R155). The default DEC_ROM is log entry 11, DEDUCED. -/
def Obligations.DecimalConstantsAreNearest : Prop :=
  NearestFloat decRom.log10_2 (Real.logb 10 2) ∧
  (decRom.power10.length = 8 ∧ decRom.negPower10.length = 8 ∧ decRom.rounding.length = 10) ∧
  (∀ (k : Nat) (f : Flt), decRom.power10[k]? = some f → NearestFloat f (10 ^ 2 ^ k)) ∧
  (∀ (k : Nat) (f : Flt), decRom.negPower10[k]? = some f → NearestFloat f (1 / 10 ^ 2 ^ k)) ∧
  (∀ (k : Nat) (f : Flt), decRom.rounding[k]? = some f → NearestFloat f (1 / (2 * 10 ^ k))) ∧
  (∀ n : Nat, n ≤ 30 → (shrMaskH n).toNat * 2 ^ 16 + (shrMaskL n).toNat = 2 ^ n - 1) ∧
  ∀ n : Int, (155 ≤ n → n ≤ 255 → setPow10 decRom n = fltInf) ∧ (-255 ≤ n → n ≤ -155 → setPow10 decRom n = fltZero)

/-- A text of F2D has nd + 6 characters, one more when negative; the infinities have 5 (48_fp_to_decimal.md R159). -/
def Obligations.DecimalTextLengths : Prop :=
  ∀ (f : Flt) (nd : Nat), canonical f = true → 1 ≤ nd →
    (f = fltInf → toText decRom f nd = [0x2B, 0x69, 0x6E, 0x66, 0x2E]) ∧
    (f = fltNegInf → toText decRom f nd = [0x2D, 0x69, 0x6E, 0x66, 0x2E]) ∧
    (f ≠ fltInf → f ≠ fltNegInf →
      (toText decRom f nd).length = if f.mant.getLsbD 31 = true then nd + 7 else nd + 6)

/-- Every text of F2D is an optional minus, a digit, a point, nd - 1 digits, e, a sign, three digits: no digit is ever
outside 0..9 (48_fp_to_decimal.md R157; 48_fp_to_decimal.md R159; 93_implementation_defined.md U10). With the
default DEC_ROM, log entry 11, DEDUCED. So the check of a digit that U10 asks for is never needed, log entry 10,
DEDUCED. -/
def Obligations.DecimalTextFormat : Prop :=
  ∀ (f : Flt) (nd : Nat), canonical f = true → f ≠ fltInf → f ≠ fltNegInf → 1 ≤ nd → nd ≤ 10 →
    ∃ (d x y z sg : Byte) (ds : List Byte),
      toText decRom f nd = (if f.mant.getLsbD 31 = true then [0x2D] else []) ++ [d, 0x2E] ++ ds ++ [0x65, sg, x, y, z] ∧
      ds.length = nd - 1 ∧ (∀ c ∈ [d, x, y, z] ++ ds, isDigitChar c = true) ∧ (sg = 0x2B ∨ sg = 0x2D)

/-- A text with no digit in its mantissa parses as ZERO, with or without a point, whatever follows
(49_decimal_to_fp.md R165; 49_decimal_to_fp.md R166). -/
def Obligations.MissingMantissaParsesAsZero : Prop :=
  ∀ ws sg rest : List Byte, (∀ c ∈ ws, isSpaceChar c = true) → (∀ c ∈ sg, isSignChar c = true) →
    (∀ c ∈ rest.head?, isDigitChar c = false) →
    ((∀ c ∈ rest.head?, c ≠ 0x2E ∧ isSignChar c = false ∧ (sg = [] → isSpaceChar c = false)) →
      setString decRom (ws ++ sg ++ rest) = fltZero) ∧
    setString decRom (ws ++ sg ++ 0x2E :: rest) = fltZero

/-- A character that starts no phase of the scan is the same as the end of the text (49_decimal_to_fp.md R165;
49_decimal_to_fp.md R166). -/
def Obligations.StrayCharacterEndsTheText : Prop :=
  ∀ (cs ds : List Byte) (c : Byte), isStray c = true → setString decRom (cs ++ c :: ds) = setString decRom cs

/-- A text of at most nine digits parses to exactly the integer it writes (49_decimal_to_fp.md R165;
49_decimal_to_fp.md R166; 10_state.md R11). -/
def Obligations.IntegerTextsParseExactly : Prop :=
  ∀ cs : List Byte, cs.length ≤ 9 → (∀ c ∈ cs, isDigitChar c = true) →
    (setString decRom cs).value = (decimalNumber 0 cs : ℚ) ∧
    (setString decRom (0x2D :: cs)).value = -(decimalNumber 0 cs : ℚ)

/-- fp_add is the exact integer sum of the aligned mantissas, rounded or truncated and normalized; fp_sub negates
twice (43_adder.md R122; 43_adder.md R124; 42_normalizer.md R111). The round bit counts only where the signs
agree, and the bit of a shift past the word is the sign, by the decisions D15 and D16 (log entry 12, DEDUCED). -/
def Obligations.AddRoundsTheAlignedSum : Prop :=
  (∀ a b : Flt, canonical a = true → canonical b = true →
    ∀ (A B S : Int) (n : Nat), A = a.mant.toInt → B = b.mant.toInt → a.exp = b.exp + n →
    S = (if A < 0 ↔ B < 0 then A + (2 * B + 2 ^ n) / 2 ^ (n + 1) else A + B / 2 ^ n) →
    fpAdd b a = fpAdd a b ∧
    fpAdd a b =
      if -2 ^ 31 ≤ S ∧ S < 2 ^ 31 then fpNormalize ⟨BitVec.ofInt 32 S, a.exp⟩
      else if a.exp = 511 then (if A < 0 then fltNegInf else fltInf)
      else fpNormalize ⟨BitVec.ofInt 32 (S / 2), a.exp + 1⟩) ∧
  ∀ a b : Flt, fpSub a b = ⟨-(fpAdd ⟨-a.mant, a.exp⟩ b).mant, (fpAdd ⟨-a.mant, a.exp⟩ b).exp⟩
end

