-- ==== Sys2Proof/Laws/Encoding.lean ====
section
/-! SUPPORT. The fields of a word put together from four fields, and a word as its four fields. -/

namespace Sys2Proof

@[simp] theorem opField_commandWord (op : BitVec 8) (rd rs : RegNum) (imm : Half) :
    opField (commandWord op rd rs imm) = op := by
  apply BitVec.eq_of_getLsbD_eq
  intro i hi
  simp only [opField, commandWord, BitVec.getLsbD_extractLsb', BitVec.getLsbD_append]
  simp [hi, show ¬ 24 + i < 16 by omega, show ¬ 24 + i - 16 < 4 by omega, show ¬ 24 + i - 16 - 4 < 4 by omega,
    show 24 + i - 16 - 4 - 4 = i by omega]

@[simp] theorem rdField_commandWord (op : BitVec 8) (rd rs : RegNum) (imm : Half) :
    rdField (commandWord op rd rs imm) = rd := by
  apply BitVec.eq_of_getLsbD_eq
  intro i hi
  simp only [rdField, commandWord, BitVec.getLsbD_extractLsb', BitVec.getLsbD_append]
  simp [hi, show ¬ 20 + i < 16 by omega, show ¬ 20 + i - 16 < 4 by omega,
    show 20 + i - 16 - 4 = i by omega]

@[simp] theorem rsField_commandWord (op : BitVec 8) (rd rs : RegNum) (imm : Half) :
    rsField (commandWord op rd rs imm) = rs := by
  apply BitVec.eq_of_getLsbD_eq
  intro i hi
  simp only [rsField, commandWord, BitVec.getLsbD_extractLsb', BitVec.getLsbD_append]
  simp [hi]

@[simp] theorem immField_commandWord (op : BitVec 8) (rd rs : RegNum) (imm : Half) :
    immField (commandWord op rd rs imm) = imm := by
  apply BitVec.eq_of_getLsbD_eq
  intro i hi
  simp only [immField, commandWord, BitVec.getLsbD_extractLsb', BitVec.getLsbD_append]
  simp [hi]

/-- A word is its four fields. -/
theorem commandWord_fields (w : Command) : commandWord (opField w) (rdField w) (rsField w) (immField w) = w := by
  apply BitVec.eq_of_getLsbD_eq
  intro i hi
  simp only [commandWord, opField, rdField, rsField, immField, BitVec.getLsbD_append, BitVec.getLsbD_extractLsb']
  by_cases h₁ : i < 16
  · simp [h₁]
  · by_cases h₂ : i - 16 < 4
    · simp [h₁, h₂, show 16 + (i - 16) = i by omega]
    · by_cases h₃ : i - 16 - 4 < 4
      · simp [h₁, h₂, h₃, show 20 + (i - 16 - 4) = i by omega]
      · simp [h₁, h₂, h₃, show i - 16 - 4 - 4 < 8 by omega, show 24 + (i - 16 - 4 - 4) = i by omega]

end Sys2Proof
end

