-- ==== Sys2Proof/Laws/Memory.lean ====
section
/-! SUPPORT. The text buffer: what a byte reads after a write, and that every operation keeps the canonical form. -/

namespace Sys2Proof.Machine

/-- A byte reads what was written to it. -/
theorem Memory.read_write_same (tb : Memory) (i : Nat) (c : Byte) : (tb.write i c).read i = some c := by
  induction tb with
  | nil => simp [Memory.write, Memory.read]
  | cons p rest ih =>
    obtain ⟨a, b⟩ := p
    simp only [Memory.write]
    split
    · simp [Memory.read]
    · split
      · simp [Memory.read]
      · rename_i h₁ h₂
        simp [Memory.read, h₂, ih]

/-- A write leaves every other byte alone. -/
theorem Memory.read_write_other (tb : Memory) (i j : Nat) (c : Byte) (h : j ≠ i) :
    (tb.write i c).read j = tb.read j := by
  induction tb with
  | nil => simp [Memory.write, Memory.read, h]
  | cons p rest ih =>
    obtain ⟨a, b⟩ := p
    simp only [Memory.write]
    split
    · simp [Memory.read, h]
    · split
      · rename_i h₁ h₂
        subst h₂
        simp [Memory.read, h]
      · simp [Memory.read, ih]

/-- A canonical list from `lo` on is canonical from any smaller index on. -/
theorem Memory.wfFrom_mono {lo lo' : Nat} (tb : Memory) (h : lo' ≤ lo) (hw : Memory.wfFrom lo tb = true) :
    Memory.wfFrom lo' tb = true := by
  cases tb with
  | nil => rfl
  | cons p rest =>
    obtain ⟨a, b⟩ := p
    simp only [Memory.wfFrom, Bool.and_eq_true, decide_eq_true_eq] at hw ⊢
    exact ⟨⟨h.trans hw.1.1, hw.1.2⟩, hw.2⟩

/-- A write at an index that exists keeps the canonical form. -/
theorem Memory.wfFrom_write (tb : Memory) (lo i : Nat) (c : Byte) (hlo : lo ≤ i) (hi : i < Config.textBytes)
    (hw : Memory.wfFrom lo tb = true) : Memory.wfFrom lo (tb.write i c) = true := by
  induction tb generalizing lo with
  | nil => simp [Memory.write, Memory.wfFrom, hlo, hi]
  | cons p rest ih =>
    obtain ⟨a, b⟩ := p
    simp only [Memory.wfFrom, Bool.and_eq_true, decide_eq_true_eq] at hw
    simp only [Memory.write]
    split
    · rename_i h
      simp only [Memory.wfFrom, Bool.and_eq_true, decide_eq_true_eq]
      exact ⟨⟨hlo, hi⟩, ⟨h, hw.1.2⟩, hw.2⟩
    · split
      · rename_i h
        subst h
        simp only [Memory.wfFrom, Bool.and_eq_true, decide_eq_true_eq]
        exact ⟨⟨hlo, hi⟩, hw.2⟩
      · rename_i h₁ h₂
        simp only [Memory.wfFrom, Bool.and_eq_true, decide_eq_true_eq]
        exact ⟨hw.1, ih (a + 1) (by omega) hw.2⟩

/-- `Memory.write` keeps the canonical form. -/
theorem Memory.wf_write (tb : Memory) (i : Nat) (c : Byte) (hi : i < Config.textBytes) (hw : tb.wf = true) :
    (tb.write i c).wf = true := Memory.wfFrom_write tb 0 i c (Nat.zero_le i) hi hw

/-- `Memory.writeText` keeps the canonical form. -/
theorem Memory.wf_writeText (cs : List Byte) (tb : Memory) (i : Nat) (hi : i + cs.length ≤ Config.textBytes)
    (hw : tb.wf = true) : (tb.writeText i cs).wf = true := by
  induction cs generalizing tb i with
  | nil => exact hw
  | cons c cs ih =>
    simp only [List.length_cons] at hi
    exact ih _ (i + 1) (by omega) (Memory.wf_write tb i c (by omega) hw)

/-- Below the first index written every byte reads as before. -/
theorem Memory.read_writeText_below (cs : List Byte) (tb : Memory) (i j : Nat) (h : j < i) :
    (tb.writeText i cs).read j = tb.read j := by
  induction cs generalizing tb i with
  | nil => rfl
  | cons c cs ih =>
    exact (ih _ (i + 1) (by omega)).trans (Memory.read_write_other tb i j c (by omega))

/-- Behind the last index written every byte reads as before (R41). -/
theorem Memory.read_writeText_above (cs : List Byte) (tb : Memory) (i j : Nat) (h : i + cs.length ≤ j) :
    (tb.writeText i cs).read j = tb.read j := by
  induction cs generalizing tb i with
  | nil => rfl
  | cons c cs ih =>
    simp only [List.length_cons] at h
    exact (ih _ (i + 1) (by omega)).trans (Memory.read_write_other tb i j c (by omega))

/-- The bytes written read as the characters, in rising order (R41). -/
theorem Memory.read_writeText_inside (cs : List Byte) (tb : Memory) (i k : Nat) (h : k < cs.length) :
    (tb.writeText i cs).read (i + k) = some cs[k] := by
  induction cs generalizing tb i k with
  | nil => simp at h
  | cons c cs ih =>
    cases k with
    | zero =>
      simp only [Memory.writeText, Nat.add_zero, List.getElem_cons_zero]
      rw [Memory.read_writeText_below cs _ (i + 1) i (by omega), Memory.read_write_same]
    | succ k =>
      simp only [List.length_cons] at h
      have := ih (tb.write i c) (i + 1) k (by omega)
      simpa [Memory.writeText, Nat.add_assoc, Nat.add_comm 1 k] using this

/-- Reading a text: the bytes from `i` on are all written, and are the characters answered (R41, R42). -/
theorem Memory.readText_eq_some (tb : Memory) (i n : Nat) (cs : List Byte) :
    tb.readText i n = some cs ↔ cs.length = n ∧ ∀ k (h : k < cs.length), tb.read (i + k) = some cs[k] := by
  induction n generalizing i cs with
  | zero =>
    constructor
    · intro h
      simp only [Memory.readText, Option.some.injEq] at h
      subst h
      simp
    · rintro ⟨h, -⟩
      rw [List.length_eq_zero_iff.mp h]
      rfl
  | succ n ih =>
    constructor
    · intro h
      simp only [Memory.readText] at h
      split at h
      · rename_i c ds hc hd
        cases h
        obtain ⟨hl, hr⟩ := (ih (i + 1) ds).mp hd
        refine ⟨by simp [hl], fun k hk => ?_⟩
        cases k with
        | zero => simpa using hc
        | succ k =>
          simp only [List.length_cons] at hk
          simpa [Nat.add_assoc, Nat.add_comm 1 k] using hr k (by omega)
      · cases h
    · rintro ⟨hl, hr⟩
      cases cs with
      | nil => simp at hl
      | cons c ds =>
        have hc : tb.read i = some c := hr 0 (Nat.succ_pos _)
        have hd : tb.readText (i + 1) n = some ds := by
          refine (ih (i + 1) ds).mpr ⟨by simpa using hl, fun k hk => ?_⟩
          have h := hr (k + 1) (Nat.succ_lt_succ hk)
          rw [show i + (k + 1) = i + 1 + k by omega] at h
          exact h
        simp [Memory.readText, hc, hd]

end Sys2Proof.Machine
end

