-- ==== Sys2Proof/Laws/State.lean ====
section
/-! SUPPORT. One lemma for each field of the state and each update, so that no proof unfolds a record update; and what
a register reads after an update. -/

namespace Sys2Proof.Machine

variable (s : State) (r q : RegNum) (f : FloatReg) (v : Flt) (h : Half) (cs : List Byte) (e : Exc)

/-! ## setReg -/

@[simp] theorem State.setReg_ires : (s.setReg r f).ires = s.ires := rfl
@[simp] theorem State.setReg_err : (s.setReg r f).err = s.err := rfl
@[simp] theorem State.setReg_tlen : (s.setReg r f).tlen = s.tlen := rfl
@[simp] theorem State.setReg_tb : (s.setReg r f).tb = s.tb := rfl
@[simp] theorem State.setReg_host : (s.setReg r f).host = s.host := rfl

/-- A legal register reads what was put into it. -/
theorem State.reg_setReg_same (hr : LegalReg r) : (s.setReg r f).reg r = f := by
  have hr' : r.toNat < 8 := hr
  simp [State.reg, State.setReg, Vector.getElem?_setIfInBounds_self_of_lt hr']

/-- Every other register reads as before. -/
theorem State.reg_setReg_other (hq : q ≠ r) : (s.setReg r f).reg q = s.reg q := by
  have : r.toNat ≠ q.toNat := fun h => hq (BitVec.eq_of_toNat_eq h.symm)
  simp [State.reg, State.setReg, Vector.getElem?_setIfInBounds_ne this]

/-! ## putFloat -/

@[simp] theorem State.putFloat_ires : (s.putFloat r v).ires = s.ires := rfl
@[simp] theorem State.putFloat_err : (s.putFloat r v).err = s.err := rfl
@[simp] theorem State.putFloat_tlen : (s.putFloat r v).tlen = s.tlen := rfl
@[simp] theorem State.putFloat_tb : (s.putFloat r v).tb = s.tb := rfl
@[simp] theorem State.putFloat_host : (s.putFloat r v).host = s.host := rfl

theorem State.reg_putFloat_same (hr : LegalReg r) : (s.putFloat r v).reg r = FloatReg.ofFlt v :=
  State.reg_setReg_same s r _ hr

theorem State.reg_putFloat_other (hq : q ≠ r) : (s.putFloat r v).reg q = s.reg q :=
  State.reg_setReg_other s r q _ hq

/-! ## the raw fields -/

@[simp] theorem State.putMsw_ires : (s.putMsw r h).ires = s.ires := rfl
@[simp] theorem State.putMsw_err : (s.putMsw r h).err = s.err := rfl
@[simp] theorem State.putMsw_tlen : (s.putMsw r h).tlen = s.tlen := rfl
@[simp] theorem State.putMsw_tb : (s.putMsw r h).tb = s.tb := rfl
@[simp] theorem State.putMsw_host : (s.putMsw r h).host = s.host := rfl
@[simp] theorem State.putLsw_ires : (s.putLsw r h).ires = s.ires := rfl
@[simp] theorem State.putLsw_err : (s.putLsw r h).err = s.err := rfl
@[simp] theorem State.putLsw_tlen : (s.putLsw r h).tlen = s.tlen := rfl
@[simp] theorem State.putLsw_tb : (s.putLsw r h).tb = s.tb := rfl
@[simp] theorem State.putLsw_host : (s.putLsw r h).host = s.host := rfl
@[simp] theorem State.putExp_ires : (s.putExp r h).ires = s.ires := rfl
@[simp] theorem State.putExp_err : (s.putExp r h).err = s.err := rfl
@[simp] theorem State.putExp_tlen : (s.putExp r h).tlen = s.tlen := rfl
@[simp] theorem State.putExp_tb : (s.putExp r h).tb = s.tb := rfl
@[simp] theorem State.putExp_host : (s.putExp r h).host = s.host := rfl

theorem State.reg_putMsw_same (hr : LegalReg r) :
    (s.putMsw r h).reg r = { s.reg r with msw := h, mswValid := true } := State.reg_setReg_same s r _ hr
theorem State.reg_putMsw_other (hq : q ≠ r) : (s.putMsw r h).reg q = s.reg q := State.reg_setReg_other s r q _ hq
theorem State.reg_putLsw_same (hr : LegalReg r) :
    (s.putLsw r h).reg r = { s.reg r with lsw := h, lswValid := true } := State.reg_setReg_same s r _ hr
theorem State.reg_putLsw_other (hq : q ≠ r) : (s.putLsw r h).reg q = s.reg q := State.reg_setReg_other s r q _ hq
theorem State.reg_putExp_same (hr : LegalReg r) :
    (s.putExp r h).reg r = { s.reg r with exp := h, expValid := true } := State.reg_setReg_same s r _ hr
theorem State.reg_putExp_other (hq : q ≠ r) : (s.putExp r h).reg q = s.reg q := State.reg_setReg_other s r q _ hq

/-! ## putIres, putText, takeFault, resetUnit -/

@[simp] theorem State.putIres_ires : (s.putIres h).ires = h := rfl
@[simp] theorem State.putIres_reg : (s.putIres h).reg q = s.reg q := rfl
@[simp] theorem State.putIres_floats : (s.putIres h).floats = s.floats := rfl
@[simp] theorem State.putIres_err : (s.putIres h).err = s.err := rfl
@[simp] theorem State.putIres_tlen : (s.putIres h).tlen = s.tlen := rfl
@[simp] theorem State.putIres_tb : (s.putIres h).tb = s.tb := rfl
@[simp] theorem State.putIres_host : (s.putIres h).host = s.host := rfl

@[simp] theorem State.putText_tb : (s.putText cs).tb = s.tb.writeText 0 cs := rfl
@[simp] theorem State.putText_tlen : (s.putText cs).tlen = BitVec.ofNat 7 cs.length := rfl
@[simp] theorem State.putText_reg : (s.putText cs).reg q = s.reg q := rfl
@[simp] theorem State.putText_floats : (s.putText cs).floats = s.floats := rfl
@[simp] theorem State.putText_ires : (s.putText cs).ires = s.ires := rfl
@[simp] theorem State.putText_err : (s.putText cs).err = s.err := rfl
@[simp] theorem State.putText_host : (s.putText cs).host = s.host := rfl

@[simp] theorem takeFault_err : (takeFault e s).err = errCode e := rfl
@[simp] theorem takeFault_reg : (takeFault e s).reg q = s.reg q := rfl
@[simp] theorem takeFault_floats : (takeFault e s).floats = s.floats := rfl
@[simp] theorem takeFault_ires : (takeFault e s).ires = s.ires := rfl
@[simp] theorem takeFault_tlen : (takeFault e s).tlen = s.tlen := rfl
@[simp] theorem takeFault_tb : (takeFault e s).tb = s.tb := rfl
@[simp] theorem takeFault_host : (takeFault e s).host = s.host := rfl

@[simp] theorem resetUnit_err : (resetUnit s).err = 0 := rfl
@[simp] theorem resetUnit_tb : (resetUnit s).tb = [] := rfl
@[simp] theorem resetUnit_host : (resetUnit s).host = s.host := rfl
@[simp] theorem resetUnit_floats : (resetUnit s).floats = State.reset.floats := rfl
@[simp] theorem resetUnit_reg : (resetUnit s).reg q = State.reset.reg q := rfl

/-- After reset no field of any register is valid (R190). -/
theorem State.reset_reg : State.reset.reg q = FloatReg.reset := by
  unfold State.reg State.reset
  by_cases hq : q.toNat < 8
  · simp [Vector.getElem?_eq_getElem hq]
  · simp [Vector.getElem?_eq_none (Nat.le_of_not_lt hq)]

end Sys2Proof.Machine
end

