-- ==== Sys2Proof/Laws/Ops.lean ====
section
/-! SUPPORT. One lemma for each shared operation: everything it can do. -/

namespace Sys2Proof.Machine

open Sys2Proof.Safety

/-! ## Halves, mantissas, registers -/

theorem mantOf_halves (m : Mant) : mantOf (mswOf m) (lswOf m) = m := by
  apply BitVec.eq_of_getLsbD_eq
  intro i hi
  simp only [mantOf, mswOf, lswOf, BitVec.getLsbD_append, BitVec.getLsbD_extractLsb']
  by_cases h : i < 16
  · simp [h]
  · simp [h, show i - 16 < 16 by omega, show 16 + (i - 16) = i by omega]

@[simp] theorem mswOf_mantOf (h l : Half) : mswOf (mantOf h l) = h := by
  apply BitVec.eq_of_getLsbD_eq
  intro i hi
  simp only [mantOf, mswOf, BitVec.getLsbD_extractLsb', BitVec.getLsbD_append]
  simp [hi]

@[simp] theorem lswOf_mantOf (h l : Half) : lswOf (mantOf h l) = l := by
  apply BitVec.eq_of_getLsbD_eq
  intro i hi
  simp only [mantOf, lswOf, BitVec.getLsbD_extractLsb', BitVec.getLsbD_append]
  simp [hi]

/-- A Float whose exponent fits 16 bits comes back from a register. -/
theorem FloatReg.toFlt_ofFlt (v : Flt) (h₁ : -32768 ≤ v.exp) (h₂ : v.exp ≤ 32767) :
    (FloatReg.ofFlt v).toFlt = v := by
  have he : (BitVec.ofInt 16 v.exp).toInt = v.exp := by
    rw [BitVec.toInt_ofInt]
    exact Int.bmod_eq_of_le (by norm_num; omega) (by norm_num; omega)
  simp [FloatReg.ofFlt, FloatReg.toFlt, mantOf_halves, he]

/-- A register's own Float put back into it changes no field (R71). -/
theorem FloatReg.ofFlt_toFlt (f : FloatReg) :
    FloatReg.ofFlt f.toFlt = ⟨f.msw, f.lsw, f.exp, true, true, true⟩ := by
  simp [FloatReg.ofFlt, FloatReg.toFlt]

theorem canonical_exp {f : Flt} (h : canonical f = true) : Config.minExp ≤ f.exp ∧ f.exp ≤ Config.maxExp := by
  unfold canonical at h
  simp only [Bool.and_eq_true, decide_eq_true_eq] at h
  exact h.1

/-! ## issue, withRead, finish -/

/-- A running unit goes on with a command whose register numbers are legal. -/
theorem issue_running {regs : List RegNum} {s : State} {k : Out} (he : Running s) (hr : ∀ r ∈ regs, LegalReg r) :
    issue regs s k = k := by
  rw [issue, if_neg (not_not.mpr he), if_pos hr]

/-- A halted unit changes nothing (R18, R58). -/
theorem issue_halted {regs : List RegNum} {s : State} {k : Out} (he : Halted s) : issue regs s k = .next s := if_pos he

/-- If `issue` answers a next state, either the unit is halted and nothing changed, or the command ran. -/
theorem issue_next {regs : List RegNum} {s t : State} {k : Out} (h : issue regs s k = .next t) :
    (Halted s ∧ t = s) ∨ (Running s ∧ (∀ r ∈ regs, LegalReg r) ∧ k = .next t) := by
  unfold issue at h
  split at h
  · rename_i he
    cases h
    exact .inl ⟨he, rfl⟩
  · rename_i he
    split at h
    · rename_i hr
      exact .inr ⟨not_not.mp he, hr, h⟩
    · cases h

/-- If `issue` refuses, the unit is running, and a register number is illegal or the command refuses. -/
theorem issue_refused {regs : List RegNum} {s : State} {k : Out} {r : Refusal} (h : issue regs s k = .refused r) :
    Running s ∧ ((¬ ∀ q ∈ regs, LegalReg q) ∧ r = .noSuchRegister ∨ (∀ q ∈ regs, LegalReg q) ∧ k = .refused r) := by
  unfold issue at h
  split at h
  · cases h
  · rename_i he
    refine ⟨not_not.mp he, ?_⟩
    split at h
    · rename_i hr
      exact .inr ⟨hr, h⟩
    · rename_i hr
      cases h
      exact .inl ⟨hr, rfl⟩

/-- If `issue` answers a fault, so did the command. -/
theorem issue_fault {regs : List RegNum} {s : State} {k : Out} {r : Fault} (h : issue regs s k = .fault r) :
    k = .fault r := by
  unfold issue at h
  split at h
  · cases h
  · split at h
    · exact h
    · cases h

@[simp] theorem withRead_ok {α : Type} (a : α) (k : α → Out) : withRead (.ok a) k = k a := rfl
@[simp] theorem withRead_error {α : Type} (e : Refusal) (k : α → Out) : withRead (.error e) k = .refused e := rfl

/-- If a command that reads answers a next state, the read succeeded. -/
theorem withRead_next {α : Type} {x : Except Refusal α} {k : α → Out} {t : State} (h : withRead x k = .next t) :
    ∃ a, x = .ok a ∧ k a = .next t := by
  cases x with
  | ok a => exact ⟨a, rfl, h⟩
  | error e => cases h

@[simp] theorem finish_ok (v : Flt) (rd : RegNum) (s : State) : finish (.ok v) rd s = .next (s.putFloat rd v) := rfl
@[simp] theorem finish_error (e : Exc) (rd : RegNum) (s : State) : finish (.error e) rd s = .next (takeFault e s) := rfl

/-- A command that can raise ends in a next state: its result, or the fault taken (R178). -/
theorem finish_next {r : Except Exc Flt} {rd : RegNum} {s t : State} (h : finish r rd s = .next t) :
    (∃ v, r = .ok v ∧ t = s.putFloat rd v) ∨ (∃ e, r = .error e ∧ t = takeFault e s) := by
  cases r with
  | ok v => cases h; exact .inl ⟨v, rfl, rfl⟩
  | error e => cases h; exact .inr ⟨e, rfl, rfl⟩

/-! ## The reads -/

theorem readMsw_eq_ok {s : State} {r : RegNum} {v : Half} :
    readMsw s r = .ok v ↔ (s.reg r).mswValid = true ∧ (s.reg r).msw = v := by
  unfold readMsw; split <;> simp_all

theorem readLsw_eq_ok {s : State} {r : RegNum} {v : Half} :
    readLsw s r = .ok v ↔ (s.reg r).lswValid = true ∧ (s.reg r).lsw = v := by
  unfold readLsw; split <;> simp_all

theorem readExp_eq_ok {s : State} {r : RegNum} {v : Half} :
    readExp s r = .ok v ↔ (s.reg r).expValid = true ∧ (s.reg r).exp = v := by
  unfold readExp; split <;> simp_all

theorem readMant_eq_ok {s : State} {r : RegNum} {m : Mant} :
    readMant s r = .ok m ↔
      ((s.reg r).mswValid = true ∧ (s.reg r).lswValid = true) ∧ mantOf (s.reg r).msw (s.reg r).lsw = m := by
  unfold readMant; split <;> simp_all

/-- A whole Float is read exactly where the register holds it. -/
theorem readFloat_eq_ok {s : State} {r : RegNum} {v : Flt} : readFloat s r = .ok v ↔ Holds s r v := by
  unfold readFloat
  constructor
  · intro h
    split at h
    · rename_i hv
      simp only [Bool.and_eq_true] at hv
      cases h
      exact ⟨hv.1.1, hv.1.2, hv.2, rfl⟩
    · cases h
  · rintro ⟨h₁, h₂, h₃, h₄⟩
    simp [h₁, h₂, h₃, h₄]

theorem readCanonical_eq_ok {s : State} {r : RegNum} {v : Flt} :
    readCanonical s r = .ok v ↔ HoldsCanonical s r v := by
  unfold readCanonical
  constructor
  · intro h
    split at h
    · rename_i a ha
      split at h
      · rename_i hc
        cases h
        exact ⟨readFloat_eq_ok.mp ha, hc⟩
      · cases h
    · cases h
  · rintro ⟨h₁, h₂⟩
    simp [readFloat_eq_ok.mpr h₁, h₂]

theorem readCanonicalPair_eq_ok {s : State} {rd rs : RegNum} {p : Flt × Flt} :
    readCanonicalPair s rd rs = .ok p ↔ HoldsCanonical s rd p.1 ∧ HoldsCanonical s rs p.2 := by
  unfold readCanonicalPair
  constructor
  · intro h
    split at h
    · rename_i a b ha hb
      split at h
      · rename_i hc
        cases h
        simp only [Bool.and_eq_true] at hc
        exact ⟨⟨readFloat_eq_ok.mp ha, hc.1⟩, ⟨readFloat_eq_ok.mp hb, hc.2⟩⟩
      · cases h
    · cases h
    · cases h
  · rintro ⟨⟨h₁, h₂⟩, ⟨h₃, h₄⟩⟩
    simp [readFloat_eq_ok.mpr h₁, readFloat_eq_ok.mpr h₃, h₂, h₄]

/-- The text that D2F reads is the text the buffer holds (R167). -/
theorem readText_eq_holdsText {s : State} {cs : List Byte} (hf : s.tlen.toNat ≤ Config.textBytes) :
    s.tb.readText 0 s.tlen.toNat = some cs ↔ HoldsText s cs := by
  rw [Memory.readText_eq_some]
  constructor
  · rintro ⟨h₁, h₂⟩
    exact ⟨h₁, hf, fun i h => by simpa using h₂ i h⟩
  · rintro ⟨h₁, -, h₂⟩
    exact ⟨h₁, fun i h => by simpa using h₂ i h⟩

/-! ## The writes -/

/-- `F[r] <- v` writes that register and nothing else. -/
theorem onlyFloat_putFloat (s : State) (r : RegNum) (v : Flt) (hr : LegalReg r) :
    OnlyFloat s (s.putFloat r v) r v where
  msw := by rw [State.reg_putFloat_same s r v hr]; rfl
  lsw := by rw [State.reg_putFloat_same s r v hr]; rfl
  exp := by rw [State.reg_putFloat_same s r v hr]; rfl
  mswValid := by rw [State.reg_putFloat_same s r v hr]; rfl
  lswValid := by rw [State.reg_putFloat_same s r v hr]; rfl
  expValid := by rw [State.reg_putFloat_same s r v hr]; rfl
  others q hq := State.reg_putFloat_other s r q v hq
  rest := ⟨rfl, rfl, rfl, fun _ => rfl, rfl⟩

theorem onlyIres_putIres (s : State) (v : Half) : OnlyIres s (s.putIres v) v :=
  ⟨rfl, fun _ => rfl, rfl, rfl, fun _ => rfl, rfl⟩

/-- Taking a fault writes `ERR` and nothing else (R178). -/
theorem onlyErr_takeFault (s : State) (e : Exc) : OnlyErr s (takeFault e s) (errCode e) :=
  ⟨rfl, fun _ => rfl, rfl, rfl, fun _ => rfl, rfl⟩

/-- The text goes to the buffer and its length to `TLEN`, nothing else changes (R41, R158). -/
theorem onlyText_putText (s : State) (cs : List Byte) (h : cs.length < 128) : OnlyText s (s.putText cs) cs where
  tlen := by
    rw [State.putText_tlen, BitVec.toNat_ofNat]
    exact Nat.mod_eq_of_lt h
  text i hi := by simpa using Memory.read_writeText_inside cs s.tb 0 i hi
  behind i hi := Memory.read_writeText_above cs s.tb 0 i (by omega)
  floats _ := rfl
  ires := rfl
  err := rfl
  host := rfl

/-- What a register holds after `F[r] <- v` for a canonical `v`. -/
theorem holdsCanonical_putFloat (s : State) (r : RegNum) (v : Flt) (hr : LegalReg r) (hv : canonical v = true) :
    HoldsCanonical (s.putFloat r v) r v := by
  have he := canonical_exp hv
  simp only [Config.minExp, Config.maxExp] at he
  refine ⟨⟨?_, ?_, ?_, ?_⟩, hv⟩ <;> rw [State.reg_putFloat_same s r v hr]
  · rfl
  · rfl
  · rfl
  · exact FloatReg.toFlt_ofFlt v (by omega) (by omega)

/-! ## One step -/

/-- Without an action of the host nothing happens. -/
theorem step_idle {s : State} (h : s.host = []) : step s = .next s := by simp [step, h]

/-- The next action of the host is taken off the list and done. -/
theorem step_cons {s : State} {e : HostEvent} {rest : List HostEvent} (h : s.host = e :: rest) :
    step s = hostAction e { s with host := rest } := by simp [step, h]

/-! ## The length of a text -/

theorem emitDigits_length (n : Nat) (first : Bool) (w : Flt) :
    (emitDigits n first w).length = n + (if first && decide (0 < n) then 1 else 0) := by
  induction n generalizing first w with
  | zero => simp [emitDigits]
  | succ n ih => cases first <;> simp [emitDigits, ih]

/-- A text of F2D has at most `nd + 7` characters, so it fits the buffer (R159). -/
theorem toText_length_le (rom : Config.DecRom) (f : Flt) (nd : Nat) : (toText rom f nd).length ≤ nd + 7 := by
  unfold toText
  split
  · simp
  · split
    · simp
    · simp only [List.length_append, emitDigits_length, emitExponent]
      split <;> split <;> simp <;> omega

theorem clampDigits_bounds (imm : Half) : 1 ≤ clampDigits imm ∧ clampDigits imm ≤ 10 := by
  unfold clampDigits
  split
  · omega
  · split <;> omega

end Sys2Proof.Machine
end

