-- ==== Sys2Proof/Laws/PerInstr.lean ====
section
/-! SUPPORT. For every command: the four fields of its word are its parts, and a part that its format does not use is
zero (R50, R51). -/

namespace Sys2Proof.Laws.EncodedFields

/-- The fields of the command's word are the parts of the command. -/
def Statement (i : Instr) : Prop :=
  opField (encode i) = i.opcode ∧ rdField (encode i) = i.rdPart ∧ rsField (encode i) = i.rsPart ∧
    immField (encode i) = i.immPart

theorem of_encode (i : Instr) : Statement i := by simp [Statement, encode]

theorem setz (rd : RegNum) : Statement (.setz rd) := of_encode _
theorem set (rd rs : RegNum) : Statement (.set rd rs) := of_encode _
theorem seti (rd : RegNum) (imm : Half) : Statement (.seti rd imm) := of_encode _
theorem ldpinf (rd : RegNum) : Statement (.ldpinf rd) := of_encode _
theorem ldninf (rd : RegNum) : Statement (.ldninf rd) := of_encode _
theorem maxe : Statement .maxe := of_encode _
theorem mine : Statement .mine := of_encode _
theorem wrm (rd : RegNum) (imm : Half) : Statement (.wrm rd imm) := of_encode _
theorem wrl (rd : RegNum) (imm : Half) : Statement (.wrl rd imm) := of_encode _
theorem wre (rd : RegNum) (imm : Half) : Statement (.wre rd imm) := of_encode _
theorem rdm (rd : RegNum) : Statement (.rdm rd) := of_encode _
theorem rdl (rd : RegNum) : Statement (.rdl rd) := of_encode _
theorem rde (rd : RegNum) : Statement (.rde rd) := of_encode _
theorem neg (rd : RegNum) : Statement (.neg rd) := of_encode _
theorem add (rd rs : RegNum) : Statement (.add rd rs) := of_encode _
theorem addi (rd : RegNum) (imm : Half) : Statement (.addi rd imm) := of_encode _
theorem sub (rd rs : RegNum) : Statement (.sub rd rs) := of_encode _
theorem subi (rd : RegNum) (imm : Half) : Statement (.subi rd imm) := of_encode _
theorem mul (rd rs : RegNum) : Statement (.mul rd rs) := of_encode _
theorem muli (rd : RegNum) (imm : Half) : Statement (.muli rd imm) := of_encode _
theorem div (rd rs : RegNum) : Statement (.div rd rs) := of_encode _
theorem divi (rd : RegNum) (imm : Half) : Statement (.divi rd imm) := of_encode _
theorem sqrt (rd : RegNum) : Statement (.sqrt rd) := of_encode _
theorem norm (rd : RegNum) : Statement (.norm rd) := of_encode _
theorem cmp (rd rs : RegNum) : Statement (.cmp rd rs) := of_encode _
theorem cmpi (rd : RegNum) (imm : Half) : Statement (.cmpi rd imm) := of_encode _
theorem isz (rd : RegNum) : Statement (.isz rd) := of_encode _
theorem isn (rd : RegNum) : Statement (.isn rd) := of_encode _
theorem isp (rd : RegNum) : Statement (.isp rd) := of_encode _
theorem d2f (rd : RegNum) : Statement (.d2f rd) := of_encode _
theorem f2d (rd : RegNum) (imm : Half) : Statement (.f2d rd imm) := of_encode _

end Sys2Proof.Laws.EncodedFields
end

