-- ==== Sys2Proof/Machine/Assembler.lean ====
section
/-! DEFINITION. The written form of a command (R56): the mnemonic, then the operands separated by a comma and a space.
An immediate is written as a signed decimal number. -/

namespace Sys2Proof.Machine

/-- A register operand, F0 .. F7 (R56). -/
def writtenReg (r : RegNum) : String := "F" ++ Nat.repr r.toNat

/-- An immediate operand as a signed decimal number (R56). -/
def writtenImm (imm : Half) : String :=
  "#" ++ (if imm.toInt < 0 then "-" else "") ++ Nat.repr imm.toInt.natAbs

/-- Format RR (R51). -/
def writtenRR (m : String) (rd rs : RegNum) : String := m ++ " " ++ writtenReg rd ++ ", " ++ writtenReg rs

/-- Format RI (R51). -/
def writtenRI (m : String) (rd : RegNum) (imm : Half) : String :=
  m ++ " " ++ writtenReg rd ++ ", " ++ writtenImm imm

/-- Format R1 (R51). -/
def writtenR1 (m : String) (rd : RegNum) : String := m ++ " " ++ writtenReg rd

/-- The written form of a command (R56). -/
def written : Instr → String
  | .setz rd => writtenR1 "SETZ" rd
  | .set rd rs => writtenRR "SET" rd rs
  | .seti rd imm => writtenRI "SETI" rd imm
  | .ldpinf rd => writtenR1 "LDPINF" rd
  | .ldninf rd => writtenR1 "LDNINF" rd
  | .maxe => "MAXE"
  | .mine => "MINE"
  | .wrm rd imm => writtenRI "WRM" rd imm
  | .wrl rd imm => writtenRI "WRL" rd imm
  | .wre rd imm => writtenRI "WRE" rd imm
  | .rdm rd => writtenR1 "RDM" rd
  | .rdl rd => writtenR1 "RDL" rd
  | .rde rd => writtenR1 "RDE" rd
  | .neg rd => writtenR1 "NEG" rd
  | .add rd rs => writtenRR "ADD" rd rs
  | .addi rd imm => writtenRI "ADDI" rd imm
  | .sub rd rs => writtenRR "SUB" rd rs
  | .subi rd imm => writtenRI "SUBI" rd imm
  | .mul rd rs => writtenRR "MUL" rd rs
  | .muli rd imm => writtenRI "MULI" rd imm
  | .div rd rs => writtenRR "DIV" rd rs
  | .divi rd imm => writtenRI "DIVI" rd imm
  | .sqrt rd => writtenR1 "SQRT" rd
  | .norm rd => writtenR1 "NORM" rd
  | .cmp rd rs => writtenRR "CMP" rd rs
  | .cmpi rd imm => writtenRI "CMPI" rd imm
  | .isz rd => writtenR1 "ISZ" rd
  | .isn rd => writtenR1 "ISN" rd
  | .isp rd => writtenR1 "ISP" rd
  | .d2f rd => writtenR1 "D2F" rd
  | .f2d rd imm => writtenRI "F2D" rd imm

end Sys2Proof.Machine
end

