-- ==== Sys2Proof/Tests/Slice0.lean ====
section
/-! SUPPORT. The model's own tests: each expected value stands in the spec, at the place named in the comment before
it. Then, for each statement with hypotheses, a state and operands that meet them. -/

set_option Elab.async false

namespace Sys2Proof.Tests

open Sys2Proof.Machine Sys2Proof.Safety

/-! ## Helpers -/

/-- What a state shows after an outcome, none where there is no next state. -/
def after {α : Type} (o : Out) (f : State → α) : Option α :=
  match o with
  | .next t => some (f t)
  | .fault _ | .refused _ => none

/-- Why an outcome is a refusal. -/
def refusal (o : Out) : Option Refusal :=
  match o with
  | .refused r => some r
  | .next _ | .fault _ => none

/-- F0 and F1 loaded after reset. -/
def loaded (a b : Flt) : State := (State.reset.putFloat 0 a).putFloat 1 b

/-- The step in which the host presents the word `w`. -/
def present (w : Command) (s : State) : Out := step (presentWord s w)

/-- The Float in F0. -/
def f0 (t : State) : Flt := (t.reg 0).toFlt

/-- The text in the buffer. -/
def text (t : State) : Option (List Byte) := t.tb.readText 0 t.tlen.toNat

/-- A state whose text buffer holds `cs`. -/
def withText (cs : List Byte) : State := State.reset.putText cs

theorem exists_next {o : Out} (h : (after o fun _ => ()) = some ()) : ∃ t, o = .next t := by
  cases o with
  | next t => exact ⟨t, rfl⟩
  | fault r => cases h
  | refused r => cases h

/-! ## WellFormed refuses an illegal receiver and an illegal operand (R51) -/

theorem test_wellFormed_refuses_receiver : ¬ WellFormed (.setz 8) := by decide
theorem test_wellFormed_refuses_receiver_of_immediate : ¬ WellFormed (.f2d 15 6) := by decide
theorem test_wellFormed_refuses_operand : ¬ WellFormed (.add 0 8) := by decide
theorem test_wellFormed_accepts_last_register : WellFormed (.add 7 7) := by decide

/-! ## Decoding: words written out from the encoding of R50 to R53 and the examples of the command rules -/

theorem test_decode_setz : decodeTableWord 32 0x10300000 = some (.setz 3) := by decide
theorem test_decode_set : decodeTableWord 32 0x11010000 = some (.set 0 1) := by decide
theorem test_decode_seti : decodeTableWord 32 0x12000163 = some (.seti 0 355) := by decide
theorem test_decode_ldpinf : decodeTableWord 32 0x13100000 = some (.ldpinf 1) := by decide
theorem test_decode_ldninf : decodeTableWord 32 0x14100000 = some (.ldninf 1) := by decide
theorem test_decode_maxe : decodeTableWord 32 0x15000000 = some (.maxe) := by decide
theorem test_decode_mine : decodeTableWord 32 0x16000000 = some (.mine) := by decide
theorem test_decode_wrm : decodeTableWord 32 0x18008000 = some (.wrm 0 0x8000) := by decide
theorem test_decode_wrl : decodeTableWord 32 0x19000001 = some (.wrl 0 1) := by decide
theorem test_decode_wre : decodeTableWord 32 0x1A0001FF = some (.wre 0 511) := by decide
theorem test_decode_rdm : decodeTableWord 32 0x1C700000 = some (.rdm 7) := by decide
theorem test_decode_rdl : decodeTableWord 32 0x1D500000 = some (.rdl 5) := by decide
theorem test_decode_rde : decodeTableWord 32 0x1E200000 = some (.rde 2) := by decide
theorem test_decode_neg : decodeTableWord 32 0x20600000 = some (.neg 6) := by decide
theorem test_decode_add : decodeTableWord 32 0x21730000 = some (.add 7 3) := by decide
theorem test_decode_addi : decodeTableWord 32 0x22000001 = some (.addi 0 1) := by decide
theorem test_decode_sub : decodeTableWord 32 0x23230000 = some (.sub 2 3) := by decide
theorem test_decode_subi : decodeTableWord 32 0x24000003 = some (.subi 0 3) := by decide
theorem test_decode_mul : decodeTableWord 32 0x25200000 = some (.mul 2 0) := by decide
theorem test_decode_muli : decodeTableWord 32 0x26300004 = some (.muli 3 4) := by decide
theorem test_decode_div : decodeTableWord 32 0x27010000 = some (.div 0 1) := by decide
theorem test_decode_divi : decodeTableWord 32 0x28200002 = some (.divi 2 2) := by decide
theorem test_decode_sqrt : decodeTableWord 32 0x29300000 = some (.sqrt 3) := by decide
theorem test_decode_norm : decodeTableWord 32 0x2A400000 = some (.norm 4) := by decide
theorem test_decode_cmp : decodeTableWord 32 0x30100000 = some (.cmp 1 0) := by decide
theorem test_decode_cmpi : decodeTableWord 32 0x3100FF6A = some (.cmpi 0 (-150)) := by decide
theorem test_decode_isz : decodeTableWord 32 0x32200000 = some (.isz 2) := by decide
theorem test_decode_isn : decodeTableWord 32 0x33100000 = some (.isn 1) := by decide
theorem test_decode_isp : decodeTableWord 32 0x34700000 = some (.isp 7) := by decide
theorem test_decode_d2f : decodeTableWord 32 0x40500000 = some (.d2f 5) := by decide
theorem test_decode_f2d : decodeTableWord 32 0x41200009 = some (.f2d 2 9) := by decide

-- The field rd is 0101, rs 0010: 0010 0001 0101 0010 0000 0000 0000 0000 is ADD F5, F2 (R50, R53).
theorem test_decode_add_bits : decode 0b00100001010100100000000000000000#32 = .ok (.add 5 2) := rfl
-- Reserved words (R54): no row, a must-be-zero field, a register number 8..15.
theorem test_decode_zero_word : decode 0x00000000#32 = .error .opcode := rfl
theorem test_decode_op_2B : decode 0x2B000000#32 = .error .opcode := rfl
theorem test_decode_rs_of_setz : decode 0x10010000#32 = .error .mustBeZero := rfl
theorem test_decode_imm_of_add : decode 0x21000001#32 = .error .mustBeZero := rfl
theorem test_decode_rd_of_maxe : decode 0x15100000#32 = .error .mustBeZero := rfl
theorem test_decode_register_8 : decode 0x10800000#32 = .error .registerNumber := rfl
theorem test_decode_operand_8 : decode 0x21080000#32 = .error .registerNumber := rfl
-- The written form (R56).
theorem test_written_seti : written (.seti 2 (-150)) = "SETI F2, #-150" := by decide +kernel
theorem test_written_add : written (.add 0 1) = "ADD F0, F1" := by decide +kernel

/-! ## One step for each command; the values are the spec's own -/

-- R70
theorem test_setz : after (present 0x10000000#32 (loaded ⟨0x40000000#32, 0⟩ ⟨0x40000000#32, 0⟩)) f0 = some (⟨0x00000000#32, -512⟩ : Flt) := by
  decide +kernel
-- R71: any bit pattern
theorem test_set_raw : after (present 0x11010000#32 (loaded ⟨0x40000000#32, 0⟩ ⟨0x00000163#32, 30⟩)) f0 = some (⟨0x00000163#32, 30⟩ : Flt) := by
  decide +kernel
-- R72
theorem test_seti : after (present 0x12000163#32 (State.reset)) f0 = some (⟨0x58C00000#32, 8⟩ : Flt) := by
  decide +kernel
-- R72
theorem test_seti_min : after (present 0x12008000#32 (State.reset)) f0 = some (⟨0xC0000000#32, 15⟩ : Flt) := by
  decide +kernel
-- R74
theorem test_ldpinf : after (present 0x13100000#32 (State.reset)) (fun t => ((t.reg 1).msw, (t.reg 1).lsw, (t.reg 1).exp)) = some (0x7FFF, 0xFFFF, 0x01FF) := by
  decide +kernel
-- R75
theorem test_ldninf : after (present 0x14100000#32 (State.reset)) (fun t => ((t.reg 1).msw, (t.reg 1).lsw, (t.reg 1).exp)) = some (0x8000, 0x0001, 0x01FF) := by
  decide +kernel
-- R76
theorem test_maxe : after (present 0x15000000#32 (State.reset)) (·.ires) = some 511 := by
  decide +kernel
-- R77
theorem test_mine : after (present 0x16000000#32 (State.reset)) (·.ires) = some 0xFE00 := by
  decide +kernel
-- R78
theorem test_wrm : after (present 0x18008000#32 (State.reset)) (fun t => ((t.reg 0).msw, (t.reg 0).mswValid, (t.reg 0).lswValid)) = some (0x8000, true, false) := by
  decide +kernel
-- R79
theorem test_wrl : after (present 0x19000001#32 (State.reset)) (fun t => ((t.reg 0).lsw, (t.reg 0).lswValid, (t.reg 0).expValid)) = some (0x0001, true, false) := by
  decide +kernel
-- R80
theorem test_wre : after (present 0x1A0001FF#32 (State.reset)) (fun t => ((t.reg 0).exp, (t.reg 0).expValid, (t.reg 0).mswValid)) = some (0x01FF, true, false) := by
  decide +kernel
-- R81
theorem test_rdm : after (present 0x1C000000#32 (loaded ⟨0x6487EDE0#32, 1⟩ ⟨0x40000000#32, 0⟩)) (·.ires) = some 0x6487 := by
  decide +kernel
-- R82
theorem test_rdl : after (present 0x1D000000#32 (loaded ⟨0x6487EDE0#32, 1⟩ ⟨0x40000000#32, 0⟩)) (·.ires) = some 0xEDE0 := by
  decide +kernel
-- R83
theorem test_rde : after (present 0x1E000000#32 (loaded ⟨0x00000000#32, -512⟩ ⟨0x40000000#32, 0⟩)) (·.ires) = some 0xFE00 := by
  decide +kernel
-- R121
theorem test_neg : after (present 0x20000000#32 (loaded ⟨0x58C00000#32, 8⟩ ⟨0x40000000#32, 0⟩)) f0 = some (⟨0xA7400000#32, 8⟩ : Flt) := by
  decide +kernel
-- R121, U5
theorem test_neg_max_negative : after (present 0x20000000#32 (loaded ⟨0x80000000#32, 3⟩ ⟨0x40000000#32, 0⟩)) f0 = some (⟨0x80000000#32, 3⟩ : Flt) := by
  decide +kernel
-- R123
theorem test_add : after (present 0x21010000#32 (loaded ⟨0x60000000#32, 1⟩ ⟨0x50000000#32, 2⟩)) f0 = some (⟨0x40000000#32, 3⟩ : Flt) := by
  decide +kernel
-- R122: no round bit where the signs disagree
theorem test_add_saturated_operand : after (present 0x21010000#32 (loaded ⟨0x40000000#32, 0⟩ ⟨0xC0000000#32, -40⟩)) f0 = some (⟨0x7FFFFFFE#32, -1⟩ : Flt) := by
  decide +kernel
-- R126
theorem test_addi : after (present 0x22000001#32 (loaded ⟨0x40000000#32, 0⟩ ⟨0x40000000#32, 0⟩)) f0 = some (⟨0x40000000#32, 1⟩ : Flt) := by
  decide +kernel
-- R125
theorem test_sub : after (present 0x23010000#32 (loaded ⟨0x50000000#32, 2⟩ ⟨0x60000000#32, 1⟩)) f0 = some (⟨0x40000000#32, 1⟩ : Flt) := by
  decide +kernel
-- R124: the two orders round differently
theorem test_sub_rounds : after (present 0x23010000#32 (loaded ⟨0x7FFFFFFF#32, -1⟩ ⟨0x40000000#32, 0⟩)) f0 = some (⟨0x00000000#32, -512⟩ : Flt) := by
  decide +kernel
-- R127
theorem test_subi : after (present 0x24000003#32 (loaded ⟨0x6487EDE0#32, 1⟩ ⟨0x40000000#32, 0⟩)) f0 = some (⟨0x487EDE00#32, -3⟩ : Flt) := by
  decide +kernel
-- R131
theorem test_mul : after (present 0x25010000#32 (loaded ⟨0x40000000#32, 1⟩ ⟨0x60000000#32, 1⟩)) f0 = some (⟨0x60000000#32, 2⟩ : Flt) := by
  decide +kernel
-- R130: 10 × 0.1
theorem test_mul_round_overflow : after (present 0x25010000#32 (loaded ⟨0x50000000#32, 3⟩ ⟨0x66666666#32, -4⟩)) f0 = some (⟨0x40000000#32, 0⟩ : Flt) := by
  decide +kernel
-- R132
theorem test_muli : after (present 0x26000002#32 (loaded ⟨0xB5000000#32, 7⟩ ⟨0x40000000#32, 0⟩)) f0 = some (⟨0xB5000000#32, 8⟩ : Flt) := by
  decide +kernel
-- R136, scenario 1
theorem test_div : after (present 0x27010000#32 (loaded ⟨0x58C00000#32, 8⟩ ⟨0x71000000#32, 6⟩)) f0 = some (⟨0x6487EDE0#32, 1⟩ : Flt) := by
  decide +kernel
-- R176, scenario 6
theorem test_div_by_zero : after (present 0x27010000#32 (loaded ⟨0x40000000#32, 0⟩ ⟨0x00000000#32, -512⟩)) (fun t => (t.err, f0 t)) = some (3, ⟨0x40000000#32, 0⟩) := by
  decide +kernel
-- R137
theorem test_divi : after (present 0x28000003#32 (loaded ⟨0x40000000#32, 0⟩ ⟨0x40000000#32, 0⟩)) f0 = some (⟨0x55555555#32, -2⟩ : Flt) := by
  decide +kernel
-- R137
theorem test_divi_zero : after (present 0x28000000#32 (loaded ⟨0x40000000#32, 0⟩ ⟨0x40000000#32, 0⟩)) (fun t => (t.err, f0 t)) = some (3, ⟨0x40000000#32, 0⟩) := by
  decide +kernel
-- R141, scenario 5
theorem test_sqrt : after (present 0x29000000#32 (loaded ⟨0x40000000#32, 1⟩ ⟨0x40000000#32, 0⟩)) f0 = some (⟨0x5A82799A#32, 0⟩ : Flt) := by
  decide +kernel
-- R177, scenario 6
theorem test_sqrt_negative : after (present 0x29000000#32 (loaded ⟨0xC0000000#32, 0⟩ ⟨0x40000000#32, 0⟩)) (fun t => (t.err, f0 t)) = some (4, ⟨0xC0000000#32, 0⟩) := by
  decide +kernel
-- R112
theorem test_norm : after (present 0x2A000000#32 (loaded ⟨0xE0000000#32, 5⟩ ⟨0x40000000#32, 0⟩)) f0 = some (⟨0xC0000000#32, 4⟩ : Flt) := by
  decide +kernel
-- V5
theorem test_norm_collapse : after (present 0x2A000000#32 (loaded ⟨0xFFFFFFFF#32, -482⟩ ⟨0x40000000#32, 0⟩)) f0 = some (⟨0x00000000#32, -512⟩ : Flt) := by
  decide +kernel
-- R146
theorem test_cmp : after (present 0x30100000#32 (loaded ⟨0x58C00000#32, 8⟩ ⟨0x71000000#32, 6⟩)) (·.ires) = some 0xFFFF := by
  decide +kernel
-- R145
theorem test_cmp_not_antisymmetric : after (present 0x30010000#32 (loaded ⟨0x7FFFFFFF#32, -1⟩ ⟨0x40000000#32, 0⟩)) (·.ires) = some 0 := by
  decide +kernel
-- R147
theorem test_cmpi : after (present 0x3100000A#32 (loaded ⟨0x6487EDE0#32, 1⟩ ⟨0x40000000#32, 0⟩)) (·.ires) = some 0xFFFF := by
  decide +kernel
-- R148: the exponent is not examined
theorem test_isz : after (present 0x32000000#32 (loaded ⟨0x00000000#32, 17⟩ ⟨0x40000000#32, 0⟩)) (·.ires) = some 1 := by
  decide +kernel
-- R149
theorem test_isn : after (present 0x33000000#32 (loaded ⟨0xB5000000#32, 7⟩ ⟨0x40000000#32, 0⟩)) (·.ires) = some 1 := by
  decide +kernel
-- R150
theorem test_isp : after (present 0x34000000#32 (loaded ⟨0x6487EDE0#32, 1⟩ ⟨0x40000000#32, 0⟩)) (·.ires) = some 1 := by
  decide +kernel
-- R167, scenario 4
theorem test_d2f : after (present 0x40000000#32 (withText [0x2D, 0x31, 0x2E, 0x35, 0x45, 0x32])) f0 = some (⟨0xB5000000#32, 7⟩ : Flt) := by
  decide +kernel
-- R166
theorem test_d2f_fraction : after (present 0x40000000#32 (withText [0x33, 0x2E, 0x31, 0x34, 0x31, 0x35, 0x39])) f0 = some (⟨0x6487E7BF#32, 1⟩ : Flt) := by
  decide +kernel
-- R158, scenario 1
theorem test_f2d : after (present 0x41000006#32 (loaded ⟨0x6487EDE0#32, 1⟩ ⟨0x40000000#32, 0⟩)) (fun t => (t.tlen, text t)) = some (12, some [0x33, 0x2E, 0x31, 0x34, 0x31, 0x35, 0x39, 0x65, 0x2B, 0x30, 0x30, 0x30]) := by
  decide +kernel
-- R157, scenario 4
theorem test_f2d_minus_150 : after (present 0x41000003#32 (loaded ⟨0xB5000000#32, 7⟩ ⟨0x40000000#32, 0⟩)) text = some (some [0x2D, 0x31, 0x2E, 0x35, 0x30, 0x65, 0x2B, 0x30, 0x30, 0x32]) := by
  decide +kernel

/-! ## Refusals, the halted unit, reset -/

-- R182: a DIV whose divisor was never written is refused, not a DivideByZero.
theorem test_invalid_operand : refusal (present 0x27010000#32 (State.reset.putFloat 0 fltOne)) = some .invalidField := by
  decide +kernel
-- P7: arithmetic on a raw register before NORM.
theorem test_non_canonical : refusal (present 0x21010000#32 (loaded ⟨0x00000163#32, 30⟩ fltOne)) = some .nonCanonical := by
  decide +kernel
-- R112: the exponent range of NORM.
theorem test_norm_range : refusal (present 0x2A000000#32 (loaded ⟨1#32, -32738⟩ fltOne)) = some .exponentRange := by
  decide +kernel
-- R41: TLEN above 64; R42: a byte that nothing has written.
theorem test_text_too_long : refusal (present 0x40000000#32 { State.reset with tlen := 65 }) = some .textTooLong := by
  decide +kernel
theorem test_unwritten_text : refusal (present 0x40000000#32 { State.reset with tlen := 1 }) = some .unwrittenText := by
  decide +kernel
-- P4: after a fault every command changes nothing until reset.
theorem test_halted : after (present 0x10000000#32 { loaded fltOne fltOne with err := 4 }) (fun t => (t.err, f0 t)) =
    some (4, fltOne) := by decide +kernel
theorem test_reset : after (step { loaded fltOne fltOne with err := 4, host := [.reset] })
    (fun t => (t.err, (t.reg 0).mswValid)) = some (0, false) := by decide +kernel
-- R40: the text buffer has the bytes 0..63.
theorem test_host_write : after (step { State.reset with host := [.writeText 63 0x41] }) (fun t => t.tb.read 63) =
    some (some 0x41) := by decide +kernel
-- log entry 2: no action of the host, no change.
theorem test_idle : after (step State.reset) (fun t => t) = some State.reset := by decide +kernel
-- R100: masks, rotation and sign fill against the arithmetic shift.
theorem test_sra_by_rotate : mantSraByRotate 0x80000001#32 1 = 0xC0000000#32 := by decide +kernel
-- R105: the carry of two half-words.
theorem test_add_carry : addCarry 0xFFFF#16 0x0001#16 = true ∧ addCarry 0x7FFF#16 0x0001#16 = false := by decide +kernel
-- R104, R99: kernel examples of the spec.
theorem test_long_multiply : mantLongUmult 0x7FFFFFFF#32 0x7FFFFFFF#32 = (0x3FFFFFFF#32, 0x00000001#32) := by
  decide +kernel
/-- The row 0xE0000000@-511 of R110 and the row 0x80000000@-513. -/
theorem test_normalize_at_the_bottom :
    fpNormalize ⟨0xE0000000#32, -511⟩ = fltZero ∧ fpNormalize ⟨0x80000000#32, -513⟩ = ⟨0xC0000000#32, -512⟩ := by
  decide +kernel

/-- The texts "." and "- 1" are ZERO (49_decimal_to_fp.md R165, R166). -/
theorem test_missing_mantissa :
    setString decRom [0x2E] = fltZero ∧ setString decRom [0x2D, 0x20, 0x31] = fltZero := by
  decide +kernel

/-- The example denormalize(0xC0000000@-40, 0) of R111. -/
theorem test_denormalize : fpDenormalize ⟨0xC0000000#32, -40⟩ 0 = (⟨0xFFFFFFFF#32, 0⟩, true) := by decide +kernel

theorem test_sra_saturates : mantSra 0x80000001#32 40 = (0xFFFFFFFF#32, true) := by decide +kernel

/-! ## Witnesses: for each statement with hypotheses, operands that meet them -/

theorem holds_loaded_F0 (a b : Flt) (h : FloatReg.ofFlt a = (loaded a b).reg 0) (ha : (FloatReg.ofFlt a).toFlt = a) :
    Holds (loaded a b) 0 a := by
  constructor <;> rw [← h]
  · rfl
  · rfl
  · rfl
  · exact ha

theorem witness_DecodeOfEncode :
    WellFormed (.f2d 7 0x8000) ∧ WellFormed (.add 7 0) ∧ WellFormed .maxe := by
  decide +kernel

theorem witness_EncodeOfDecode :
    decode 0x21730000#32 = .ok (.add 7 3) ∧ decode 0x4170FFFF#32 = .ok (.f2d 7 0xFFFF) := by
  exact ⟨rfl, rfl⟩

/-- The three words of reserved classes that the next theorem names match no row (30_encoding.md R54). -/
theorem test_reserved_words_match_no_row :
    ([0x10800000#32, 0x00000000#32, 0x15000001#32].all fun w => opcodeRows.all fun row => w &&& row.1 != row.2) =
      true := by
  decide +kernel

theorem witness_ReservedWordsRefused :
    Running (presentWord State.reset 0x10800000#32) ∧
    (presentWord State.reset 0x10800000#32).host = .command 0x10800000#32 :: [] ∧
    ∀ row ∈ opcodeRows, 0x10800000#32 &&& row.1 ≠ row.2 := by
  refine ⟨rfl, rfl, fun row h => ?_⟩
  have all := List.all_eq_true.mp (List.all_eq_true.mp test_reserved_words_match_no_row 0x10800000#32 (by simp)) row h
  simpa using all

theorem witness_IllegalRegisterNumbersRefused :
    Running State.reset ∧ ¬ WellFormed (.add 0 8) ∧ ¬ WellFormed (.seti 15 0) := by
  decide +kernel

theorem witness_StepRunsPresentedCommand :
    (presentWord State.reset 0x21010000#32).host = .command 0x21010000#32 :: [] ∧
    decode 0x21010000#32 = .ok (.add 0 1) := by
  exact ⟨rfl, rfl⟩

theorem witness_HaltedUnitChangesNothing :
    Halted { State.reset with err := 3, host := [.command 0x10000000#32] } ∧
    Halted { State.reset with err := 4, host := [.command 0#32] } := by
  decide +kernel

theorem witness_ResetLeavesUnreadableRegisters :
    LegalReg 0 ∧ LegalReg 7 := by
  decide +kernel

theorem witness_ResetLeavesTheHaltedState :
    ({ State.reset with err := 3, host := [.reset] } : State).host = .reset :: [] := by
  rfl

theorem witness_EveryStepKeepsTheInvariant :
    Inv (presentWord (loaded fltOne fltZero) 0x27010000#32) ∧
    ∃ t, step (presentWord (loaded fltOne fltZero) 0x27010000#32) = .next t := by
  exact ⟨⟨by decide +kernel, by decide +kernel⟩, exists_next (by decide +kernel)⟩

theorem witness_ErrIsWrittenOnlyByDivAndSqrt :
    Running (loaded fltOne fltZero) ∧ (∃ t, exec (.div 0 1) (loaded fltOne fltZero) = .next t) ∧
    (∃ t, exec (.divi 0 0) (loaded fltOne fltZero) = .next t) ∧
    (∃ t, exec (.sqrt 0) (loaded ⟨0xC0000000#32, 0⟩ fltOne) = .next t) ∧ ∃ t, exec (.add 0 1) (loaded fltOne fltZero) = .next t := by
  exact ⟨by decide +kernel, exists_next (by decide +kernel), exists_next (by decide +kernel), exists_next (by decide +kernel),
    exists_next (by decide +kernel)⟩

theorem witness_FaultChangesOnlyErr :
    after (exec (.div 0 1) (loaded fltOne fltZero)) (·.err) = some 3 ∧ (loaded fltOne fltZero).err = 0 := by
  decide +kernel

theorem witness_IresWrittenOnlyByItsCommands :
    writesIres (.f2d 0 3) = false ∧ ∃ t, exec (.f2d 0 3) (loaded fltOne fltOne) = .next t := by
  exact ⟨rfl, exists_next (by decide +kernel)⟩

theorem witness_TextWrittenOnlyByF2d :
    (∀ rd imm, (Instr.d2f 0) ≠ .f2d rd imm) ∧ ∃ t, exec (.d2f 0) (withText [0x31]) = .next t := by
  exact ⟨by simp, exists_next (by decide +kernel)⟩

theorem witness_OnlyTheReceiverChanges :
    (∃ t, exec (.add 0 1) (loaded fltOne fltOne) = .next t) ∧ (1 : RegNum) ≠ (Instr.add 0 1).rdPart ∧
    (∃ t, exec (.cmp 0 1) (loaded fltOne fltOne) = .next t) ∧ writesFloat (.cmp 0 1) = false := by
  exact ⟨exists_next (by decide +kernel), by decide, exists_next (by decide +kernel), rfl⟩

theorem witness_ValidBitsStaySet :
    (∃ t, exec (.wrm 0 5) (loaded fltOne fltOne) = .next t) ∧ ((loaded fltOne fltOne).reg 0).mswValid = true ∧
    ((loaded fltOne fltOne).reg 0).lswValid = true ∧ ((loaded fltOne fltOne).reg 0).expValid = true := by
  exact ⟨exists_next (by decide +kernel), by decide +kernel, by decide +kernel, by decide +kernel⟩

theorem witness_InvalidFieldsRefused :
    Running (State.reset.putFloat 0 fltOne) ∧ WellFormed (.div 0 1) ∧
    ¬ FieldsValid (.div 0 1) (State.reset.putFloat 0 fltOne) := by
  exact ⟨by decide +kernel, by decide, fun h => absurd h.2.1 (by decide +kernel)⟩

theorem witness_NonCanonicalOperandsRefused :
    Running (loaded fltOne ⟨0x163#32, 30⟩) ∧ WellFormed (.cmp 0 1) ∧
    FieldsValid (.cmp 0 1) (loaded fltOne ⟨0x163#32, 30⟩) ∧ ¬ OperandsCanonical (.cmp 0 1) (loaded fltOne ⟨0x163#32, 30⟩) := by
  refine ⟨by decide +kernel, by decide, ⟨?_, ?_⟩, fun h => absurd h.2 (by decide +kernel)⟩
  · decide +kernel
  · decide +kernel

theorem witness_ReadyCommandsComplete :
    Running (loaded fltOne fltOne) ∧ WellFormed (.div 0 1) ∧ FieldsValid (.div 0 1) (loaded fltOne fltOne) ∧
    OperandsCanonical (.div 0 1) (loaded fltOne fltOne) := by
  refine ⟨by decide +kernel, by decide, ⟨?_, ?_⟩, ?_, ?_⟩ <;> decide +kernel

theorem witness_ReadyCommandsComplete_norm :
    FieldsValid (.norm 0) (loaded ⟨1#32, -32737⟩ ⟨1#32, 32766⟩) ∧
    ((loaded ⟨1#32, -32737⟩ ⟨1#32, 32766⟩).reg 0).exp.toInt = -32737 ∧
    ((loaded ⟨1#32, -32737⟩ ⟨1#32, 32766⟩).reg 1).exp.toInt = 32766 := by
  refine ⟨?_, ?_, ?_⟩
  · show WholeValid _ _
    decide +kernel
  · decide +kernel
  · decide +kernel

theorem witness_WrittenFloatsAreCanonical :
    Running (loaded fltOne fltOne) ∧ producesCanonical (.div 0 1) = true ∧
    after (exec (.div 0 1) (loaded fltOne fltOne)) (·.err) = some 0 := by
  decide +kernel

theorem witness_WrittenFloatsAreCanonical_set_neg :
    Running (loaded fltNegInf fltZero) ∧ HoldsCanonical (loaded fltNegInf fltZero) 0 fltNegInf ∧
    (∃ t, exec (.set 1 0) (loaded fltNegInf fltZero) = .next t) ∧ ∃ t, exec (.neg 0) (loaded fltNegInf fltZero) = .next t := by
  exact ⟨by decide +kernel, ⟨holds_loaded_F0 _ _ (by decide +kernel) (by decide +kernel), by decide +kernel⟩,
    exists_next (by decide +kernel), exists_next (by decide +kernel)⟩

theorem witness_HostWritesReachTheText :
    ({ State.reset with host := [.writeText 63 0x41] } : State).host = .writeText 63 0x41 :: [] ∧
    ({ State.reset with host := [.writeText 0 0x41] } : State).host = .writeText 0 0x41 :: [] ∧
    ({ State.reset with host := [.writeTlen 127] } : State).host = .writeTlen 127 :: [] := by
  exact ⟨rfl, rfl, rfl⟩

theorem witness_RunsFaultOnlyOnMissingTextBytes :
    (∀ e ∈ ({ State.reset with host := [.writeText 63 0x41, .reset] } : State).host, EventFits e) ∧
    ({ State.reset with host := [.writeText 64 0x41] } : State).host = .writeText 64 0x41 :: [] := by
  refine ⟨?_, rfl⟩
  intro e he
  simp only [List.mem_cons, List.not_mem_nil, or_false] at he
  rcases he with rfl | rfl
  · show 63 < 64
    decide
  · trivial

theorem witness_ConstantLoadResults :
    LegalReg 0 ∧ LegalReg 7 ∧ Running State.reset := by
  decide +kernel

theorem witness_SetCopiesAnyBitPattern :
    LegalReg 7 ∧ LegalReg 0 ∧ Running (loaded ⟨0x163#32, 30⟩ fltOne) ∧ Holds (loaded ⟨0x163#32, 30⟩ fltOne) 0 ⟨0x163#32, 30⟩ := by
  exact ⟨by decide, by decide, by decide +kernel, holds_loaded_F0 _ _ (by decide +kernel) (by decide +kernel)⟩

theorem witness_SetiLoadsTheIntegerExactly :
    LegalReg 7 ∧ Running State.reset := by
  decide +kernel

theorem witness_ExponentLimitResults :
    Running State.reset := by
  decide +kernel

theorem witness_RawFieldWriteResults :
    LegalReg 7 ∧ Running State.reset := by
  decide +kernel

theorem witness_RawFieldReadResults :
    LegalReg 0 ∧ Running (loaded fltOne fltOne) ∧ WholeValid (loaded fltOne fltOne) 0 := by
  decide +kernel

theorem witness_NormResult :
    LegalReg 0 ∧ Running (loaded ⟨1#32, -32737⟩ fltOne) ∧ Holds (loaded ⟨1#32, -32737⟩ fltOne) 0 ⟨1#32, -32737⟩ ∧
    Holds (loaded ⟨1#32, 32766⟩ fltOne) 0 ⟨1#32, 32766⟩ ∧ Holds (loaded ⟨1#32, -32738⟩ fltOne) 0 ⟨1#32, -32738⟩ ∧
    Holds (loaded ⟨1#32, 32767⟩ fltOne) 0 ⟨1#32, 32767⟩ := by
  refine ⟨by decide, by decide +kernel, ?_, ?_, ?_, ?_⟩ <;>
    exact holds_loaded_F0 _ _ (by decide +kernel) (by decide +kernel)

theorem witness_NegResult :
    LegalReg 0 ∧ Running (loaded ⟨0x80000000#32, 3⟩ fltOne) ∧ Holds (loaded ⟨0x80000000#32, 3⟩ fltOne) 0 ⟨0x80000000#32, 3⟩ ∧
    Holds (loaded fltOne fltOne) 0 fltOne ∧ Holds (loaded fltZero fltOne) 0 fltZero := by
  refine ⟨by decide, by decide +kernel, ?_, ?_, ?_⟩ <;>
    exact holds_loaded_F0 _ _ (by decide +kernel) (by decide +kernel)

theorem witness_RegisterArithmeticResults :
    LegalReg 0 ∧ Running (loaded fltInf fltZero) ∧ HoldsCanonical (loaded fltInf fltZero) 0 fltInf ∧
    HoldsCanonical (loaded fltInf fltZero) 1 fltZero := by
  refine ⟨by decide, by decide +kernel, ⟨holds_loaded_F0 _ _ (by decide +kernel) (by decide +kernel), by decide +kernel⟩, ?_⟩
  exact holdsCanonical_putFloat _ _ _ (by decide) (by decide +kernel)

theorem witness_ImmediateArithmeticResults :
    LegalReg 0 ∧ Running (loaded fltNegInf fltOne) ∧ HoldsCanonical (loaded fltNegInf fltOne) 0 fltNegInf := by
  refine ⟨by decide, by decide +kernel, ?_⟩
  exact ⟨holds_loaded_F0 _ _ (by decide +kernel) (by decide +kernel), by decide +kernel⟩

theorem witness_DivideResults :
    Running (loaded fltOne fltInf) ∧ HoldsCanonical (loaded fltOne fltInf) 0 fltOne ∧
    HoldsCanonical (loaded fltOne fltInf) 1 fltInf ∧ fltInf.mant ≠ 0 ∧ HoldsCanonical (loaded fltOne fltZero) 0 fltOne ∧
    HoldsCanonical (loaded fltOne fltZero) 1 fltZero ∧ fltZero.mant = 0 := by
  refine ⟨by decide +kernel, ⟨holds_loaded_F0 _ _ (by decide +kernel) (by decide +kernel), by decide +kernel⟩, ?_, by decide,
    ⟨holds_loaded_F0 _ _ (by decide +kernel) (by decide +kernel), by decide +kernel⟩, ?_, rfl⟩ <;>
    exact holdsCanonical_putFloat _ _ _ (by decide) (by decide +kernel)

theorem witness_SqrtResult :
    Running (loaded fltInf fltOne) ∧ HoldsCanonical (loaded fltInf fltOne) 0 fltInf ∧ fltInf.mant.getLsbD 31 = false ∧
    HoldsCanonical (loaded fltZero fltOne) 0 fltZero ∧ fltZero.mant.getLsbD 31 = false ∧
    HoldsCanonical (loaded fltNegInf fltOne) 0 fltNegInf ∧ fltNegInf.mant.getLsbD 31 = true := by
  refine ⟨by decide +kernel, ?_, by decide, ?_, by decide, ?_, by decide⟩ <;>
    exact ⟨holds_loaded_F0 _ _ (by decide +kernel) (by decide +kernel), by decide +kernel⟩

theorem witness_CompareResults :
    Running (loaded fltOne fltZero) ∧ HoldsCanonical (loaded fltOne fltZero) 0 fltOne ∧
    HoldsCanonical (loaded fltOne fltZero) 1 fltZero := by
  refine ⟨by decide +kernel, ⟨holds_loaded_F0 _ _ (by decide +kernel) (by decide +kernel), by decide +kernel⟩, ?_⟩
  exact holdsCanonical_putFloat _ _ _ (by decide) (by decide +kernel)

theorem witness_SignTestResults :
    LegalReg 0 ∧ Running (loaded fltNegInf fltOne) ∧ WholeValid (loaded fltNegInf fltOne) 0 := by
  decide +kernel

theorem witness_F2dResult :
    LegalReg 0 ∧ Running (loaded fltOne fltOne) ∧ HoldsCanonical (loaded fltOne fltOne) 0 fltOne := by
  refine ⟨by decide, by decide +kernel, ?_⟩
  exact ⟨holds_loaded_F0 _ _ (by decide +kernel) (by decide +kernel), by decide +kernel⟩

theorem witness_D2fResult :
    Running (withText [0x31]) ∧ HoldsText (withText [0x31]) [0x31] ∧ HoldsText State.reset [] ∧
    64 < ({ State.reset with tlen := 65 } : State).tlen.toNat ∧ ({ State.reset with tlen := 64 } : State).tlen.toNat ≤ 64 ∧
    ∃ i < ({ State.reset with tlen := 64 } : State).tlen.toNat, ({ State.reset with tlen := 64 } : State).tb.read i = none := by
  refine ⟨by decide +kernel, ?_, ?_, by decide, by decide, 63, by decide, rfl⟩
  · exact (readText_eq_holdsText (by decide +kernel)).mp (by decide +kernel)
  · exact (readText_eq_holdsText (by decide +kernel)).mp rfl

theorem witness_LongMultiplyIsExact :
    (0x7FFFFFFF#32).toNat < 2 ^ 31 := by
  decide +kernel

theorem witness_ArithmeticShiftAndDenormalize :
    (1 ≤ 1 ∧ 1 ≤ 30) ∧ (1 ≤ 30 ∧ 30 ≤ 30) ∧ 1 ≤ 32 ∧ (0 : Int) ≤ (⟨0x40000000#32, 0⟩ : Flt).exp ∧
    (0 : Int) = (⟨0xC0000000#32, -40⟩ : Flt).exp + (40 : Nat) := by
  decide +kernel

theorem witness_NormalizeIsCanonicalAndIdempotent :
    canonical ⟨0xC0000000#32, -512⟩ = true ∧ canonical fltInf = true := by
  decide +kernel

theorem witness_NormalizeKeepsTheValue :
    |(⟨0#32, 17⟩ : Flt).value| < 2 ^ (-512 : Int) ∧ (2 : ℚ) ^ (512 : Int) ≤ (⟨0x40000000#32, 512⟩ : Flt).value ∧
    (⟨0x80000000#32, 511⟩ : Flt).value ≤ -2 ^ (512 : Int) ∧
    ((2 : ℚ) ^ (-512 : Int) ≤ |(⟨0xE0000000#32, -511⟩ : Flt).value| ∧
      |(⟨0xE0000000#32, -511⟩ : Flt).value| < 2 ^ (512 : Int) ∧
      (⟨0xE0000000#32, -511⟩ : Flt).value = -2 ^ (-512 : Int) ∧ (-512 : Int) < -511) ∧
    (2 : ℚ) ^ (-512 : Int) ≤ |(⟨0x80000000#32, -513⟩ : Flt).value| ∧
      |(⟨0x80000000#32, -513⟩ : Flt).value| < 2 ^ (512 : Int) ∧ ¬ (-512 : Int) < -513 := by
  decide +kernel

theorem witness_AddCommutesWithZeroNeutral :
    canonical fltNegInf = true := by
  decide +kernel

theorem witness_AddIsExactAtEqualExponents :
    canonical ⟨0xC0000000#32, 511⟩ = true ∧
      (0xC0000000#32 : Mant).toInt + (0xC0000000#32 : Mant).toInt = -2 ^ 31 ∧
    canonical ⟨0x40000001#32, -512⟩ = true ∧ canonical ⟨0xC0000000#32, -512⟩ = true ∧
      (0x40000001#32 : Mant).toInt + (0xC0000000#32 : Mant).toInt = 1 ∧
    canonical fltInf = true ∧ (2 : Int) ^ 31 ≤ fltInf.mant.toInt + fltInf.mant.toInt ∧
    canonical ⟨0x80000001#32, 510⟩ = true ∧ canonical ⟨0x80000003#32, 510⟩ = true ∧
      (0x80000001#32 : Mant).toInt + (0x80000003#32 : Mant).toInt < -2 ^ 31 ∧
      2 ∣ (0x80000001#32 : Mant).toInt + (0x80000003#32 : Mant).toInt := by
  decide +kernel

theorem witness_SameOperandArithmetic :
    canonical ⟨0x80000001#32, 510⟩ = true ∧ (0x80000001#32 : Mant) ≠ 0 ∧ (510 : Int) < 511 := by
  decide +kernel

theorem witness_MultiplyIsCommutativeWithUnitAndZero :
    canonical fltInf = true ∧ canonical fltZero = true := by
  decide +kernel

theorem witness_MultiplyRoundsTheExactProduct :
    canonical ⟨0x50000000#32, 3⟩ = true ∧ canonical ⟨0x66666666#32, -4⟩ = true ∧ (0x50000000#32 : Mant) ≠ 0 ∧
    (0x66666666#32 : Mant) ≠ 0 := by
  decide +kernel

theorem witness_DivideRoundsTheExactQuotient :
    canonical fltZero = true ∧ canonical fltInf = true ∧ fltInf.mant ≠ 0 := by
  decide +kernel

theorem witness_CompareIsNeverWrongInSign :
    canonical fltOne = true ∧ canonical ⟨0x7FFFFFFF#32, -1⟩ = true ∧ fpCompare fltOne ⟨0x7FFFFFFF#32, -1⟩ = 1 ∧
    fpCompare fltZero fltOne = -1 := by
  decide +kernel

theorem witness_DecimalConstantsAreNearest :
    decRom.power10[7]? = some ⟨0x49DD23E5#32, 425⟩ ∧ decRom.negPower10[7]? = some ⟨0x6EE8233E#32, -426⟩ ∧
    decRom.rounding[9]? = some ⟨0x44B82FA1#32, -31⟩ ∧ 30 ≤ 30 ∧
    ((155 : Int) ≤ 155 ∧ (155 : Int) ≤ 255) ∧ (-255 : Int) ≤ -255 ∧ (-255 : Int) ≤ -155 := by
  decide +kernel

theorem witness_DecimalTextLengths :
    canonical fltNegInf = true ∧ canonical fltZero = true ∧ fltZero ≠ fltInf ∧ fltZero ≠ fltNegInf ∧ 1 ≤ 1 := by
  decide +kernel

theorem witness_DecimalTextFormat :
    canonical ⟨0xC0000000#32, -512⟩ = true ∧ (⟨0xC0000000#32, -512⟩ : Flt) ≠ fltInf ∧ (⟨0xC0000000#32, -512⟩ : Flt) ≠ fltNegInf ∧ 1 ≤ 10 ∧ 10 ≤ 10 := by
  decide +kernel

theorem witness_MissingMantissaParsesAsZero :
    (∀ c ∈ [0x20#8, 0x0D#8], isSpaceChar c = true) ∧ (∀ c ∈ [0x2B#8, 0x2D#8], isSignChar c = true) ∧
    (∀ c ∈ ([] : List Byte).head?, isDigitChar c = false) ∧
    (∀ c ∈ [0x65#8, 0x35#8].head?, isDigitChar c = false ∧ c ≠ 0x2E ∧ isSignChar c = false ∧ isSpaceChar c = false) ∧
    ∀ c ∈ [0x20#8, 0x31#8].head?, isDigitChar c = false ∧ c ≠ 0x2E ∧ isSignChar c = false ∧
      ([0x2D#8] = [] → isSpaceChar c = false) := by
  refine ⟨by decide, by decide, by simp, ?_, ?_⟩ <;>
  · intro c hc
    simp only [List.head?_cons, Option.mem_some_iff] at hc
    subst hc
    decide

theorem witness_StrayCharacterEndsTheText :
    isStray 0x78 = true ∧ isStray 0x00 = true ∧ isStray 0xFF = true := by
  decide +kernel

theorem witness_IntegerTextsParseExactly :
    ([0x39, 0x39, 0x39, 0x39, 0x39, 0x39, 0x39, 0x39, 0x39] : List Byte).length ≤ 9 ∧ isDigitChar 0x39 = true := by
  decide +kernel

theorem witness_AddRoundsTheAlignedSum :
    canonical fltOne = true ∧ canonical ⟨0xC0000000#32, -40⟩ = true ∧ fltOne.exp = (-40 : Int) + (40 : Nat) ∧
    canonical fltInf = true ∧ canonical ⟨0x40000000#32, 511⟩ = true ∧
    (511 : Int) = 511 + (0 : Nat) ∧ ¬ fltInf.mant.toInt + (0x40000000#32 : Mant).toInt < 2 ^ 31 := by
  decide +kernel

end Sys2Proof.Tests
end

namespace Sys2Proof.Machine

open Sys2Proof.Safety

/-! ## Mantissas as signed integers -/

/-- The sign bit tells the sign of the signed mantissa (R10). -/
theorem signBit_iff (m : Mant) : signBit m = true ↔ m.toInt < 0 := by
  simp only [signBit, BitVec.getLsbD, Nat.testBit_eq_decide_div_mod_eq, decide_eq_true_eq, BitVec.toInt_eq_toNat_cond]
  have := m.isLt
  split <;> omega

theorem signBit_eq_false_iff (m : Mant) : signBit m = false ↔ 0 ≤ m.toInt := by
  rw [← Bool.not_eq_true, signBit_iff, not_lt]

/-- The two top bits differ exactly where another doubling would overflow (R110). -/
theorem signBit_ne_mantBit30_iff (m : Mant) :
    signBit m ≠ mantBit30 m ↔ 2 ^ 30 ≤ m.toInt ∨ m.toInt < -2 ^ 30 := by
  simp only [signBit, mantBit30, BitVec.getLsbD, Nat.testBit_eq_decide_div_mod_eq, ne_eq, decide_eq_decide,
    BitVec.toInt_eq_toNat_cond]
  have := m.isLt
  split <;> omega

theorem mant_toInt_bounds (m : Mant) : -2 ^ 31 ≤ m.toInt ∧ m.toInt < 2 ^ 31 := by
  simpa using And.intro (BitVec.le_toInt m) (BitVec.toInt_lt (x := m))

theorem toNat_of_nonneg {m : Mant} (h : 0 ≤ m.toInt) : (m.toNat : Int) = m.toInt := by
  rw [BitVec.toInt_eq_toNat_cond] at h ⊢
  split at h <;> omega

theorem isZero_iff (m : Mant) : isZero m = true ↔ m = 0 := by simp [isZero]

/-! ## Halves as numbers -/

theorem toNat_mswOf (m : Mant) : (mswOf m).toNat = m.toNat / 2 ^ 16 := by
  have := m.isLt
  simp only [mswOf, BitVec.extractLsb'_toNat, Nat.shiftRight_eq_div_pow]
  omega

theorem toNat_lswOf (m : Mant) : (lswOf m).toNat = m.toNat % 2 ^ 16 := by
  simp [lswOf, BitVec.extractLsb'_toNat]

theorem toNat_mantOf (h l : Half) : (mantOf h l).toNat = h.toNat * 2 ^ 16 + l.toNat := by
  rw [mantOf, BitVec.toNat_append, Nat.shiftLeft_eq, mul_comm, ← Nat.two_pow_add_eq_or_of_lt l.isLt]

/-- `mant_neg` is negation modulo 2^32 (R95). -/
theorem mantNeg_eq_neg (m : Mant) : mantNeg m = -m := by
  apply BitVec.eq_of_toNat_eq
  have hm := m.isLt
  have hl : (~~~(lswOf m) + 1#16).toNat = (2 ^ 16 - m.toNat % 2 ^ 16) % 2 ^ 16 := by
    rw [BitVec.toNat_add, BitVec.toNat_not, toNat_lswOf]
    simp only [BitVec.toNat_ofNat]
    omega
  have hh : (~~~(mswOf m)).toNat = 2 ^ 16 - 1 - m.toNat / 2 ^ 16 := by
    rw [BitVec.toNat_not, toNat_mswOf]
  simp only [mantNeg]
  split <;> rename_i h
  · rw [toNat_mantOf, BitVec.toNat_add, hl, hh, BitVec.toNat_neg]
    have := congrArg BitVec.toNat h
    rw [hl] at this
    simp only [BitVec.toNat_ofNat] at this ⊢
    omega
  · rw [toNat_mantOf, hl, hh, BitVec.toNat_neg]
    have : (~~~(lswOf m) + 1#16).toNat ≠ 0 := fun h0 => h (BitVec.eq_of_toNat_eq h0)
    rw [hl] at this
    omega

/-- A normalized mantissa: its absolute value lies in 2^30 .. 2^31 − 1 (R12). -/
def NormMant (m : Mant) : Prop := 2 ^ 30 ≤ m.toInt.natAbs ∧ m.toInt.natAbs < 2 ^ 31

/-- The mantissa classes of R12 apart from zero are the normalized mantissas. -/
theorem normMant_iff (m : Mant) :
    NormMant m ↔ m = 0xC0000000#32 ∨ (signBit m ≠ mantBit30 m ∧ m ≠ 0x80000000#32) := by
  have hb := mant_toInt_bounds m
  rw [signBit_ne_mantBit30_iff, ← BitVec.toInt_inj, ne_eq, ← BitVec.toInt_inj (y := 0x80000000#32),
    show (0xC0000000#32).toInt = -2 ^ 30 from rfl, show (0x80000000#32).toInt = -2 ^ 31 from rfl]
  unfold NormMant
  omega

theorem NormMant.ne_zero {m : Mant} (h : NormMant m) : m ≠ 0#32 := by
  rintro rfl
  simp [NormMant] at h

/-- A leading bit at bit 30 makes a mantissa normalized. -/
theorem NormMant.of_lead {m : Mant} (h : 2 ^ 30 ≤ m.toInt) : NormMant m := by
  have := mant_toInt_bounds m
  unfold NormMant
  omega

/-- The canonical Floats of R12, by the signed mantissa. -/
theorem canonical_iff (f : Flt) :
    canonical f = true ↔
      (-512 ≤ f.exp ∧ f.exp ≤ 511) ∧ (f.mant = 0#32 ∧ f.exp = -512 ∨ NormMant f.mant) := by
  have hn := normMant_iff f.mant
  simp only [canonical, Bool.and_eq_true, decide_eq_true_eq]
  by_cases hz : f.mant = 0#32
  · have hz' : ¬ NormMant f.mant := fun h => h.ne_zero hz
    simp only [hz', or_false]
    simp [hz, isZero]
  · simp [hz, hn, isZero, mantIsMaxNeg]

/-! ## `normalize` (R110) -/

/-- The clamp of a normalized mantissa is canonical at every exponent. -/
theorem canonical_normClamp {m : Mant} (e : Int) (hm : NormMant m) : canonical (normClamp m e) = true := by
  unfold normClamp
  split
  · rfl
  · split
    · split <;> rfl
    · rw [canonical_iff]
      exact ⟨⟨by simp only [Config.minExp] at *; omega, by simp only [Config.maxExp] at *; omega⟩, .inr hm⟩

/-- One shift of the loop keeps the value. -/
theorem value_shift (m : Mant) (e : Int) (h : signBit m = mantBit30 m) :
    (m <<< 1).toInt = 2 * m.toInt ∧ (⟨m <<< 1, e - 1⟩ : Flt).value = (⟨m, e⟩ : Flt).value := by
  have hs : (m <<< 1).toInt = 2 * m.toInt := by
    have hb := mt (signBit_ne_mantBit30_iff m).mpr (not_not.mpr h)
    have hlt := m.isLt
    simp only [BitVec.toInt_eq_toNat_cond, BitVec.toNat_shiftLeft, Nat.shiftLeft_eq] at hb ⊢
    omega
  refine ⟨hs, ?_⟩
  simp only [Flt.value, hs]
  rw [show e - 30 = e - 1 - 30 + 1 by ring, zpow_add_one₀ (by norm_num)]
  push_cast
  ring

/-- Everything the shift loop can do when its bound suffices: it collapses to ZERO near `MIN_EXP`, or it answers a
Float of the same value whose top bits differ. -/
theorem normShift_cases (n : Nat) (m : Mant) (e : Int) (h : 2 ^ 31 ≤ m.toInt.natAbs * 2 ^ n) :
    (normShift n m e = none ∧ e < -512 + n) ∨
    ∃ g, normShift n m e = some g ∧ (2 ^ 30 ≤ g.mant.toInt ∨ g.mant.toInt < -2 ^ 30) ∧
      g.value = (⟨m, e⟩ : Flt).value ∧ e - n ≤ g.exp := by
  induction n generalizing m e with
  | zero =>
    have := mant_toInt_bounds m
    exact .inr ⟨_, rfl, by dsimp only; omega, rfl, by simp⟩
  | succ n ih =>
    simp only [normShift]
    split
    next hne => exact .inr ⟨_, rfl, (signBit_ne_mantBit30_iff m).mp hne, rfl, by dsimp only; omega⟩
    next heq =>
      split
      next hmin => exact .inl ⟨rfl, by simp only [Config.minExp] at hmin; omega⟩
      next hmin =>
        obtain ⟨hs, hv⟩ := value_shift m e (not_not.mp heq)
        have hbound : 2 ^ 31 ≤ (m <<< 1).toInt.natAbs * 2 ^ n := by
          rw [hs, Int.natAbs_mul]
          calc 2 ^ 31 ≤ _ := h
            _ = _ := by rw [pow_succ]; simp; ring
        rcases ih (m <<< 1) (e - 1) hbound with ⟨hnone, hlt⟩ | ⟨g, hg, htop, hval, hexp⟩
        · exact .inl ⟨hnone, by push_cast; omega⟩
        · exact .inr ⟨g, hg, htop, hval.trans hv, by push_cast; omega⟩

/-- The last steps of `normalize` are one clamp, of a normalized Float of the same value. -/
theorem normFinish_eq_normClamp (m : Mant) (e : Int) (h : 2 ^ 30 ≤ m.toInt ∨ m.toInt < -2 ^ 30) :
    ∃ g : Flt, NormMant g.mant ∧ g.value = (⟨m, e⟩ : Flt).value ∧ e ≤ g.exp ∧
      normFinish m e = normClamp g.mant g.exp := by
  unfold normFinish
  split
  next hmax =>
    have hm : m = 0x80000000#32 := by simpa [mantIsMaxNeg] using hmax
    refine ⟨⟨0xC0000000#32, e + 1⟩, (normMant_iff _).mpr (.inl rfl), ?_, by simp, ?_⟩
    · subst hm
      simp only [Flt.value, show (0xC0000000#32).toInt = -2 ^ 30 from rfl,
        show (0x80000000#32).toInt = -2 ^ 31 from rfl]
      rw [show e + 1 - 30 = e - 30 + 1 by ring, zpow_add_one₀ (by norm_num)]
      push_cast
      ring
    · split
      next he => subst he; rfl
      next => rfl
  next hmax =>
    have hm : m ≠ 0x80000000#32 := by simpa [mantIsMaxNeg] using hmax
    exact ⟨⟨m, e⟩, (normMant_iff m).mpr (.inr ⟨(signBit_ne_mantBit30_iff m).mpr h, hm⟩), rfl, le_refl _, rfl⟩

/-- Everything `normalize` can do: it answers ZERO, for a zero mantissa or near `MIN_EXP`, or it clamps a normalized
Float of the same value (R110). -/
theorem fpNormalize_cases (f : Flt) :
    (fpNormalize f = fltZero ∧ (f.mant = 0#32 ∨ f.exp < -480)) ∨
    ∃ g : Flt, NormMant g.mant ∧ g.value = f.value ∧ f.exp - 32 ≤ g.exp ∧
      fpNormalize f = normClamp g.mant g.exp := by
  unfold fpNormalize
  split
  next hc => exact .inr ⟨f, (normMant_iff _).mpr (.inl hc), rfl, by omega, rfl⟩
  next hc =>
    split
    next hz => exact .inl ⟨rfl, .inl (by simpa [isZero] using hz)⟩
    next hz =>
      have hne : f.mant.toInt ≠ 0 := fun h0 => hz (by simpa [isZero] using BitVec.toInt_inj.mp h0)
      rcases normShift_cases 32 f.mant f.exp (by omega) with ⟨hnone, hlt⟩ | ⟨g, hg, htop, hval, hexp⟩
      · exact .inl ⟨by rw [hnone], .inr (by simpa using hlt)⟩
      · obtain ⟨g', hn, hv, he, hfin⟩ := normFinish_eq_normClamp g.mant g.exp htop
        exact .inr ⟨g', hn, hv.trans hval, by push_cast at hexp; omega, by rw [hg]; exact hfin⟩

/-- `normalize` answers a canonical Float for every input (R114). -/
theorem canonical_fpNormalize (f : Flt) : canonical (fpNormalize f) = true := by
  rcases fpNormalize_cases f with ⟨h, -⟩ | ⟨g, hg, -, -, h⟩ <;> rw [h]
  · rfl
  · exact canonical_normClamp g.exp hg

theorem value_nonneg_iff (f : Flt) : 0 ≤ f.value ↔ 0 ≤ f.mant.toInt := by
  have : (0 : ℚ) < 2 ^ (f.exp - 30) := zpow_pos (by norm_num) _
  simp [Flt.value, this]

/-- A normalized mantissa needs only the clamp (R114). -/
theorem fpNormalize_of_normMant {f : Flt} (h : NormMant f.mant) : fpNormalize f = normClamp f.mant f.exp := by
  have hz : isZero f.mant = false := by simpa [isZero] using h.ne_zero
  rcases (normMant_iff _).mp h with hc | ⟨hs, hm⟩
  · simp [fpNormalize, hc]
  · by_cases hc : f.mant = 0xC0000000#32
    · simp [fpNormalize, hc]
    · simp [fpNormalize, hc, hz, normShift, hs, normFinish, mantIsMaxNeg, hm]

/-- In the range of exponents the clamp changes nothing. -/
theorem normClamp_of_range {m : Mant} {e : Int} (h₁ : -512 ≤ e) (h₂ : e ≤ 511) : normClamp m e = ⟨m, e⟩ := by
  simp [normClamp, show ¬ e < Config.minExp by simp [Config.minExp]; omega,
    show ¬ e > Config.maxExp by simp [Config.maxExp]; omega]

/-- `normalize` of a mantissa that is not negative is not negative. -/
theorem fpNormalize_nonneg {f : Flt} (h : 0 ≤ f.mant.toInt) : 0 ≤ (fpNormalize f).mant.toInt := by
  rcases fpNormalize_cases f with ⟨h0, -⟩ | ⟨g, -, hv, -, hg⟩
  · rw [h0]; decide
  · have hgm : 0 ≤ g.mant.toInt := by rwa [← value_nonneg_iff, hv, value_nonneg_iff]
    have hs : signBit g.mant = false := (signBit_eq_false_iff _).mpr hgm
    rw [hg, normClamp]
    split
    · decide
    · split
      · rw [hs]; decide
      · exact hgm

/-- Away from `MIN_EXP` `normalize` gives zero for a zero mantissa only. -/
theorem fpNormalize_mant_eq_zero_iff {f : Flt} (h : -480 ≤ f.exp) : (fpNormalize f).mant = 0#32 ↔ f.mant = 0#32 := by
  constructor
  · intro h0
    rcases fpNormalize_cases f with ⟨-, hz | hlt⟩ | ⟨g, hn, -, he, hg⟩
    · exact hz
    · omega
    · exfalso
      rw [hg, normClamp, if_neg (by simp only [Config.minExp]; omega)] at h0
      split at h0
      · split at h0 <;> exact absurd h0 (by decide)
      · exact hn.ne_zero h0
  · intro h0
    simp [fpNormalize, h0, isZero, fltZero]

end Sys2Proof.Machine

namespace Sys2Proof.Machine

open Sys2Proof.Safety

/-! ## Results of the arithmetic blocks are canonical (R12) -/

theorem NormMant.neg {m : Mant} (h : NormMant m) : NormMant (-m) := by
  have : (-m).toInt = -m.toInt :=
    BitVec.toInt_neg_of_ne_intMin (by rintro rfl; exact absurd h.2 (by decide))
  simpa [NormMant, this] using h

/-- Negation keeps a Float canonical (R12, R120). -/
theorem canonical_fpNeg {f : Flt} (h : canonical f = true) : canonical (fpNeg f) = true := by
  rw [canonical_iff] at h ⊢
  obtain ⟨hexp, ⟨hz, he⟩ | hn⟩ := h
  · exact ⟨hexp, .inl ⟨by simp [fpNeg, mantNeg_eq_neg, hz], he⟩⟩
  · exact ⟨hexp, .inr (by simpa [fpNeg, mantNeg_eq_neg] using hn.neg)⟩

theorem canonical_setInt (i : Half) : canonical (setInt i) = true := canonical_fpNormalize _

theorem canonical_fpAdd (a b : Flt) : canonical (fpAdd a b) = true := canonical_fpNormalize _

theorem canonical_fpSub (a b : Flt) : canonical (fpSub a b) = true := canonical_fpNeg (canonical_fpAdd _ _)

theorem canonical_fpMult (a b : Flt) : canonical (fpMult a b) = true := canonical_fpNormalize _

theorem canonical_setString (rom : Config.DecRom) (cs : List Byte) : canonical (setString rom cs) = true :=
  canonical_fpMult _ _

theorem canonical_of_fpDiv {a b v : Flt} (h : fpDiv a b = .ok v) : canonical v = true := by
  unfold fpDiv at h
  split at h
  · cases h
  · cases h
    exact canonical_fpNormalize _

theorem canonical_of_fpSqrt {n v : Flt} (hn : canonical n = true) (h : fpSqrt n = .ok v) : canonical v = true := by
  unfold fpSqrt at h
  split at h
  · cases h
  · split at h
    · cases h; exact hn
    · split at h
      · cases h
      · cases h
        exact canonical_fpNormalize _

/-! ## When a command raises an exception (R176, R177) -/

/-- `fp_div` raises DivideByZero on a zero divisor and nothing else (R135, R176). -/
theorem fpDiv_error_iff (a b : Flt) (e : Exc) : fpDiv a b = .error e ↔ b.mant = 0#32 ∧ e = .divideByZero := by
  unfold fpDiv
  split
  next hz => simp [(isZero_iff _).mp hz, eq_comm]
  next hz => simpa using fun h => absurd ((isZero_iff _).mpr h) hz

/-- The Float of an integer has a zero mantissa for the integer 0 only (R73). -/
theorem setInt_mant_eq_zero_iff (i : Half) : (setInt i).mant = 0#32 ↔ i = 0#16 := by
  rw [setInt, fpNormalize_mant_eq_zero_iff (by norm_num)]
  constructor
  · intro h
    simpa [mantSetInt, show lswOf 0#32 = 0#16 from rfl] using congrArg lswOf h
  · rintro rfl
    rfl

/-! ## The divisions inside SQRT -/

theorem mantAbs_of_nonneg {m : Mant} (h : 0 ≤ m.toInt) : mantAbs m = m := by
  simp [mantAbs, (signBit_eq_false_iff m).mpr h]

/-- A canonical Float that is neither zero nor negative has its leading bit at bit 30. -/
theorem le_toInt_of_canonical {f : Flt} (hc : canonical f = true) (h0 : 0 ≤ f.mant.toInt) (hz : f.mant ≠ 0#32) :
    2 ^ 30 ≤ f.mant.toInt := by
  obtain ⟨-, ⟨hm, -⟩ | ⟨hn, -⟩⟩ := (canonical_iff f).mp hc
  · exact absurd hm hz
  · omega

/-- Each iteration of the long division adds one bit to the quotient (R135). -/
theorem divLoop_quotient_lt (n k : Nat) (A B q : Mant) (hq : q.toNat < 2 ^ k) :
    (divLoop n A B q).2.toNat < 2 ^ (n + k) := by
  induction n generalizing k A q with
  | zero => simpa [divLoop] using hq
  | succ n ih =>
    have hshl : (mantShl1 q).1.toNat < 2 ^ (k + 1) := by
      rw [mantShl1, BitVec.toNat_shiftLeft, Nat.shiftLeft_eq, pow_succ]
      exact (Nat.mod_le _ _).trans_lt (by omega)
    have hone : ((mantShl1 q).1 ||| 1#32).toNat < 2 ^ (k + 1) := by
      rw [BitVec.toNat_or]
      exact Nat.or_lt_two_pow hshl (Nat.one_lt_two_pow (by omega))
    rw [show n + 1 + k = n + (k + 1) by omega]
    simp only [divLoop]
    split
    · exact ih (k + 1) _ _ hone
    · exact ih (k + 1) _ _ hshl

theorem roundMagnitude_nonneg {hi : Mant} {e : Int} {up : Bool} (h : 0 ≤ hi.toInt) :
    0 ≤ (roundMagnitude hi e up).mant.toInt := by
  unfold roundMagnitude
  split
  · dsimp only
    split
    next => exact (by decide : 0 ≤ (0x40000000#32).toInt)
    next hs => exact (signBit_eq_false_iff _).mp (by simpa using hs)
  · exact h

/-- After 31 iterations the sign bit of the quotient is still clear (R135). -/
theorem divLoop_quotient_nonneg (A B : Mant) : 0 ≤ (divLoop 31 A B 0#32).2.toInt := by
  have h := divLoop_quotient_lt 31 0 A B 0#32 (by simp)
  rw [BitVec.toInt_eq_toNat_of_lt (by omega)]
  exact Int.natCast_nonneg _

theorem divMagnitude_nonneg (A B : Mant) : 0 ≤ (divMagnitude A B).mant.toInt :=
  roundMagnitude_nonneg (divLoop_quotient_nonneg _ B)

/-- The quotient of two Floats that are not negative is not negative. -/
theorem fpDiv_nonneg {a b : Flt} (ha : 0 ≤ a.mant.toInt) (hb : 0 < b.mant.toInt) :
    ∃ t, fpDiv a b = .ok t ∧ canonical t = true ∧ 0 ≤ t.mant.toInt := by
  have hz : isZero b.mant = false := by
    rw [← Bool.not_eq_true, isZero_iff]
    intro h
    simp [h] at hb
  refine ⟨_, by rw [fpDiv, hz]; rfl, canonical_fpNormalize _, fpNormalize_nonneg ?_⟩
  simp only [(signBit_eq_false_iff _).mpr ha, (signBit_eq_false_iff _).mpr hb.le]
  exact divMagnitude_nonneg _ _

theorem mantSra_nonneg {m : Mant} (n : Nat) (h : 0 ≤ m.toInt) : 0 ≤ (mantSra m n).1.toInt := by
  unfold mantSra
  split
  · exact h
  · split
    · simp [(signBit_eq_false_iff m).mpr h]
    · rw [BitVec.toInt_sshiftRight, Int.shiftRight_eq_div_pow]
      positivity

@[simp] theorem mantAdd_fst (m d : Mant) : (mantAdd m d).1 = m + d := by
  apply BitVec.eq_of_toNat_eq
  have hm := m.isLt
  have hd := d.isLt
  simp only [mantAdd, BitVec.toNat_setWidth, BitVec.toNat_add]
  omega

@[simp] theorem mantAddInt_bitHalf (m : Mant) (b : Bool) : mantAddInt m (bitHalf b) = m + bitMant b := by
  cases b <;> rfl

/-- The sum of two aligned mantissas that are not negative, of which one has its leading bit at bit 30, has its own
there, at the common exponent or the next (R122). -/
theorem addAligned_of_nonneg {m t : Mant} {e : Int} (rb : Bool) (hm : 0 ≤ m.toInt) (ht : 0 ≤ t.toInt)
    (hlead : 2 ^ 30 ≤ m.toInt + t.toInt) (he : e ≤ 511) :
    2 ^ 30 ≤ (addAligned m t e rb).mant.toInt ∧ e ≤ (addAligned m t e rb).exp ∧ (addAligned m t e rb).exp ≤ 511 := by
  have hsum : (m + t + bitMant rb).toNat = m.toNat + t.toNat + (bitMant rb).toNat ∧
      2 ^ 30 ≤ m.toNat + t.toNat := by
    have hb : (bitMant rb).toNat ≤ 1 := by cases rb <;> decide
    rw [BitVec.toNat_add, BitVec.toNat_add]
    rw [BitVec.toInt_eq_toNat_cond] at hm ht hlead
    rw [BitVec.toInt_eq_toNat_cond] at hlead
    have := m.isLt
    have := t.isLt
    omega
  have hlead' : 2 ^ 30 ≤ (m + t + bitMant rb).toNat := by omega
  simp only [addAligned, (signBit_eq_false_iff _).mpr hm, (signBit_eq_false_iff _).mpr ht, mantAdd_fst,
    mantAddInt_bitHalf, if_true]
  generalize m + t + bitMant rb = s at hlead' ⊢
  split
  next hs =>
    have hneg : s.toInt < 0 := (signBit_iff s).mp (by simpa using hs)
    split
    next => exact ⟨by decide, by simpa [fltInf] using he, by decide⟩
    next hmax =>
      refine ⟨?_, by simp, by simp only [Config.maxExp] at hmax; dsimp only; omega⟩
      have hlt := s.isLt
      simp only [BitVec.toInt_eq_toNat_cond, mantShr1, Bool.false_eq_true, if_false, BitVec.or_zero,
        BitVec.toNat_ushiftRight, Nat.shiftRight_eq_div_pow] at hneg ⊢
      omega
  next hs =>
    have hpos : 0 ≤ s.toInt := (signBit_eq_false_iff s).mp (by simpa using hs)
    refine ⟨?_, le_refl _, he⟩
    simp only [BitVec.toInt_eq_toNat_cond] at hpos ⊢
    omega

@[simp] theorem mantSra_zero (m : Mant) : mantSra m 0 = (m, false) := rfl

/-- `denormalize` is one shift, by no bit where the exponent is not larger (R111). -/
theorem fpDenormalize_eq (f : Flt) (t : Int) :
    fpDenormalize f t =
      (⟨(mantSra f.mant (t - f.exp).toNat).1, max f.exp t⟩, (mantSra f.mant (t - f.exp).toNat).2) := by
  unfold fpDenormalize
  split
  next h => rw [max_eq_right (le_of_lt h)]
  next h => rw [Int.toNat_of_nonpos (by omega), max_eq_left (by omega)]; rfl

/-- `fp_add`, both operands aligned to the larger exponent (R122). -/
theorem fpAdd_eq (a b : Flt) :
    fpAdd a b = fpNormalize (addAligned (mantSra a.mant (b.exp - a.exp).toNat).1
      (mantSra b.mant (a.exp - b.exp).toNat).1 (max a.exp b.exp)
      ((mantSra a.mant (b.exp - a.exp).toNat).2 || (mantSra b.mant (a.exp - b.exp).toNat).2)) := by
  have hshift : (max a.exp b.exp - b.exp).toNat = (a.exp - b.exp).toNat := by omega
  simp only [fpAdd, fpDenormalize_eq, hshift]

/-- `normalize` leaves a Float in range alone whose leading bit stands at bit 30. -/
theorem fpNormalize_of_lead {g : Flt} (h : 2 ^ 30 ≤ g.mant.toInt) (hlo : -512 ≤ g.exp) (hhi : g.exp ≤ 511) :
    fpNormalize g = g := by
  rw [fpNormalize_of_normMant (.of_lead h), normClamp_of_range hlo hhi]

/-- Adding a Float that is not negative to one with its leading bit at bit 30 keeps that bit and does not lower the
exponent. -/
theorem fpAdd_of_nonneg {x t : Flt} (hx : 2 ^ 30 ≤ x.mant.toInt) (hlo : -512 ≤ x.exp) (hhi : x.exp ≤ 511)
    (ht : canonical t = true) (h0 : 0 ≤ t.mant.toInt) :
    2 ^ 30 ≤ (fpAdd x t).mant.toInt ∧ x.exp ≤ (fpAdd x t).exp ∧ (fpAdd x t).exp ≤ 511 := by
  obtain ⟨hte, hclass⟩ := (canonical_iff t).mp ht
  have hx0 := mantSra_nonneg (t.exp - x.exp).toNat (show 0 ≤ x.mant.toInt by omega)
  have ht0 := mantSra_nonneg (x.exp - t.exp).toNat h0
  have hlead : 2 ^ 30 ≤ (mantSra x.mant (t.exp - x.exp).toNat).1.toInt +
      (mantSra t.mant (x.exp - t.exp).toNat).1.toInt := by
    rcases le_or_gt t.exp x.exp with hle | hgt
    · rw [Int.toNat_of_nonpos (by omega : t.exp - x.exp ≤ 0)] at hx0 ⊢
      exact (hx.trans (by simpa using ht0))
    · have hz : t.mant ≠ 0#32 := fun hz => by
        obtain ⟨-, he⟩ | hn := hclass
        · omega
        · exact hn.ne_zero hz
      have := le_toInt_of_canonical ht h0 hz
      rw [Int.toNat_of_nonpos (by omega : x.exp - t.exp ≤ 0), mantSra_zero]
      dsimp only
      omega
  rw [fpAdd_eq]
  generalize ((mantSra x.mant (t.exp - x.exp).toNat).2 || (mantSra t.mant (x.exp - t.exp).toNat).2) = rb
  obtain ⟨h₁, h₂, h₃⟩ := addAligned_of_nonneg rb hx0 ht0 hlead (show max x.exp t.exp ≤ 511 by omega)
  rw [fpNormalize_of_lead h₁ (by omega) h₃]
  exact ⟨h₁, by omega, h₃⟩

/-- The Newton steps never divide by zero: the guess keeps its leading bit, and its exponent falls by at most one in
each step (R140). -/
theorem newton_ok (k : Nat) (n x : Flt) (hn : 0 ≤ n.mant.toInt) (hx : 2 ^ 30 ≤ x.mant.toInt)
    (hlo : -512 + k ≤ x.exp) (hhi : x.exp ≤ 511) : ∃ y, newton k n x = .ok y := by
  induction k generalizing x with
  | zero => exact ⟨x, rfl⟩
  | succ k ih =>
    obtain ⟨t, ht, hc, h0⟩ := fpDiv_nonneg hn (show 0 < x.mant.toInt by omega)
    obtain ⟨hy, hle, hy511⟩ := fpAdd_of_nonneg hx (by omega) hhi hc h0
    obtain ⟨y, hnewton⟩ := ih ⟨(fpAdd x t).mant, (fpAdd x t).exp - 1⟩ hy (by push_cast at hlo; dsimp only; omega)
      (by dsimp only; omega)
    exact ⟨y, by rw [newton, ht]; exact hnewton⟩

/-- `fp_sqrt` raises SqrtOfNegative on a negative operand and nothing else (R140, R177). -/
theorem fpSqrt_error_iff {n : Flt} (hn : canonical n = true) (e : Exc) :
    fpSqrt n = .error e ↔ isNeg n.mant = true ∧ e = .sqrtOfNegative := by
  unfold fpSqrt
  split
  next hneg => simp [hneg, eq_comm]
  next hneg =>
    have h0 : 0 ≤ n.mant.toInt := (signBit_eq_false_iff _).mp (by simpa [isNeg] using hneg)
    split
    next => simp [hneg]
    next hz =>
      obtain ⟨hlo, hhi⟩ := ((canonical_iff n).mp hn).1
      have hlead : 2 ^ 30 ≤ n.mant.toInt := le_toInt_of_canonical hn h0 (mt (isZero_iff _).mpr hz)
      obtain ⟨y, hy⟩ := newton_ok 6 n ⟨n.mant, n.exp / 2⟩ h0 hlead (by dsimp only; omega) (by dsimp only; omega)
      simp [hy, hneg]

end Sys2Proof.Machine

namespace Sys2Proof.Machine

open Sys2Proof.Safety

/-! ## Which command raises which exception -/

/-- The exception that a command raises at a running state, none where it raises none (R176, R177). -/
def raises : Instr → State → Option Exc
  | .div _ rs, s => if (s.reg rs).msw = 0 ∧ (s.reg rs).lsw = 0 then some .divideByZero else none
  | .divi _ imm, _ => if imm = 0 then some .divideByZero else none
  | .sqrt rd, s => if (s.reg rd).msw.getLsbD 15 = true then some .sqrtOfNegative else none
  | _, _ => none

theorem raises_eq_divideByZero_iff (i : Instr) (s : State) :
    raises i s = some .divideByZero ↔
      (∃ rd rs, i = .div rd rs ∧ (s.reg rs).msw = 0 ∧ (s.reg rs).lsw = 0) ∨ ∃ rd, i = .divi rd 0 := by
  cases i <;> simp [raises]

theorem raises_eq_sqrtOfNegative_iff (i : Instr) (s : State) :
    raises i s = some .sqrtOfNegative ↔ ∃ rd, i = .sqrt rd ∧ (s.reg rd).msw.getLsbD 15 = true := by
  cases i <;> simp [raises]

theorem mantOf_eq_zero_iff (h l : Half) : mantOf h l = 0#32 ↔ h = 0 ∧ l = 0 := by
  constructor
  · intro hz
    exact ⟨(mswOf_mantOf h l).symm.trans (congrArg mswOf hz), (lswOf_mantOf h l).symm.trans (congrArg lswOf hz)⟩
  · rintro ⟨rfl, rfl⟩
    rfl

/-- The sign of a mantissa stands in its `msw` (R149). -/
theorem isNeg_mantOf (h l : Half) : isNeg (mantOf h l) = h.getLsbD 15 := by
  rw [isNeg, signBit, mantOf, BitVec.getLsbD_append]
  rfl

theorem fpDiv_error_iff_raises_div {s : State} {rd rs : RegNum} {a b : Flt} (hb : Holds s rs b) (e : Exc) :
    fpDiv a b = .error e ↔ raises (.div rd rs) s = some e := by
  rw [fpDiv_error_iff, ← hb.val, FloatReg.toFlt, mantOf_eq_zero_iff]
  cases e <;> simp [raises]

theorem fpDiv_error_iff_raises_divi {s : State} {rd : RegNum} {imm : Half} {a : Flt} (e : Exc) :
    fpDiv a (setInt imm) = .error e ↔ raises (.divi rd imm) s = some e := by
  rw [fpDiv_error_iff, setInt_mant_eq_zero_iff]
  cases e <;> simp [raises]

theorem fpSqrt_error_iff_raises {s : State} {rd : RegNum} {n : Flt} (hn : HoldsCanonical s rd n) (e : Exc) :
    fpSqrt n = .error e ↔ raises (.sqrt rd) s = some e := by
  rw [fpSqrt_error_iff hn.canon, ← hn.holds.val, FloatReg.toFlt, isNeg_mantOf]
  cases e <;> simp [raises]

/-! ## Everything that a command can do -/

/-- Every valid bit that is set in `f` is set in `g` (R16). -/
structure KeepsValid (f g : FloatReg) : Prop where
  msw : f.mswValid = true → g.mswValid = true
  lsw : f.lswValid = true → g.lswValid = true
  exp : f.expValid = true → g.expValid = true

theorem KeepsValid.refl (f : FloatReg) : KeepsValid f f := ⟨id, id, id⟩

theorem keepsValid_ofFlt (f : FloatReg) (v : Flt) : KeepsValid f (FloatReg.ofFlt v) :=
  ⟨fun _ => rfl, fun _ => rfl, fun _ => rfl⟩

/-- What a command that runs to its end makes of the state: it writes a Float, a raw field, `IRES` or the text, or it
takes a fault (R15, R17, R18, R41, R178). -/
inductive Effect (i : Instr) (s : State) : State → Prop
  /-- A whole Float goes to `F[rd]`. -/
  | float (v : Flt) (hw : writesFloat i = true) (hc : producesCanonical i = true → canonical v = true)
      (hi : writesIres i = false) (hr : raises i s = none) : Effect i s (s.putFloat i.rdPart v)
  /-- A raw write of one field of `F[rd]`. -/
  | raw (f : FloatReg) (hw : writesFloat i = true) (hp : producesCanonical i = false)
      (hv : KeepsValid (s.reg i.rdPart) f) (hi : writesIres i = false) (hr : raises i s = none) :
      Effect i s (s.setReg i.rdPart f)
  /-- A value goes to `IRES`. -/
  | ires (v : Half) (hw : writesFloat i = false) (hi : writesIres i = true) (hr : raises i s = none) :
      Effect i s (s.putIres v)
  /-- A text goes to the buffer. -/
  | text (cs : List Byte) (hlen : cs.length ≤ Config.textBytes) (hw : writesFloat i = false)
      (hi : writesIres i = false) (hr : raises i s = none) : Effect i s (s.putText cs)
  /-- The fault is taken. -/
  | fault (e : Exc) (hi : writesIres i = false) (hr : raises i s = some e) : Effect i s (takeFault e s)

section
variable {i : Instr} {s t : State}

/-- A command that answers a next state found the unit halted, or ran to its end. -/
theorem effect_of_issue {k : Out} (h : issue i.regs s k = .next t) (hk : k = .next t → Effect i s t) :
    (Halted s ∧ t = s) ∨ (Running s ∧ WellFormed i ∧ Effect i s t) :=
  (issue_next h).imp_right fun ⟨hrun, hwf, hnext⟩ => ⟨hrun, hwf, hk hnext⟩

theorem effect_of_next {u : State} (hu : Effect i s u) (h : (Host.Outcome.next u : Out) = .next t) : Effect i s t := by
  cases h
  exact hu

theorem effect_of_read {α : Type} {x : Except Refusal α} {k : α → Out}
    (hk : ∀ a, x = .ok a → k a = .next t → Effect i s t) (h : withRead x k = .next t) : Effect i s t := by
  obtain ⟨a, hx, ha⟩ := withRead_next h
  exact hk a hx ha

theorem effect_of_finish {r : Except Exc Flt} (hw : writesFloat i = true) (hi : writesIres i = false)
    (hc : ∀ v, r = .ok v → canonical v = true) (hr : ∀ e, r = .error e ↔ raises i s = some e)
    (h : finish r i.rdPart s = .next t) : Effect i s t := by
  obtain ⟨v, hv, rfl⟩ | ⟨e, he, rfl⟩ := finish_next h
  · refine .float v hw (fun _ => hc v hv) hi (Option.eq_none_iff_forall_ne_some.mpr fun e he => ?_)
    have := (hr e).mpr he
    simp [hv] at this
  · exact .fault e hi ((hr e).mp he)

end

/-- Everything that a command can do when it answers a next state. -/
theorem exec_next {i : Instr} {s t : State} (h : exec i s = .next t) :
    (Halted s ∧ t = s) ∨ (Running s ∧ WellFormed i ∧ Effect i s t) := by
  cases i with
  | setz rd | ldpinf rd | ldninf rd =>
    exact effect_of_issue h (effect_of_next (.float _ rfl (fun _ => rfl) rfl rfl))
  | seti rd imm =>
    exact effect_of_issue h (effect_of_next (.float _ rfl (fun _ => canonical_setInt imm) rfl rfl))
  | set rd rs | neg rd =>
    exact effect_of_issue h (effect_of_read fun f _ => effect_of_next (.float _ rfl nofun rfl rfl))
  | maxe | mine => exact effect_of_issue h (effect_of_next (.ires _ rfl rfl rfl))
  | wrm rd imm =>
    exact effect_of_issue h (effect_of_next (.raw _ rfl rfl ⟨fun _ => rfl, id, id⟩ rfl rfl))
  | wrl rd imm =>
    exact effect_of_issue h (effect_of_next (.raw _ rfl rfl ⟨id, fun _ => rfl, id⟩ rfl rfl))
  | wre rd imm =>
    exact effect_of_issue h (effect_of_next (.raw _ rfl rfl ⟨id, id, fun _ => rfl⟩ rfl rfl))
  | rdm rd | rdl rd | rde rd | cmp rd rs | cmpi rd imm | isz rd | isn rd | isp rd =>
    exact effect_of_issue h (effect_of_read fun _ _ => effect_of_next (.ires _ rfl rfl rfl))
  | add rd rs | addi rd imm =>
    exact effect_of_issue h (effect_of_read fun _ _ =>
      effect_of_next (.float _ rfl (fun _ => canonical_fpAdd _ _) rfl rfl))
  | sub rd rs | subi rd imm =>
    exact effect_of_issue h (effect_of_read fun _ _ =>
      effect_of_next (.float _ rfl (fun _ => canonical_fpSub _ _) rfl rfl))
  | mul rd rs | muli rd imm =>
    exact effect_of_issue h (effect_of_read fun _ _ =>
      effect_of_next (.float _ rfl (fun _ => canonical_fpMult _ _) rfl rfl))
  | div rd rs =>
    exact effect_of_issue h (effect_of_read fun p hp => effect_of_finish rfl rfl (fun _ => canonical_of_fpDiv)
      (fpDiv_error_iff_raises_div (readCanonicalPair_eq_ok.mp hp).2.holds))
  | divi rd imm =>
    exact effect_of_issue h (effect_of_read fun a _ => effect_of_finish rfl rfl (fun _ => canonical_of_fpDiv)
      fpDiv_error_iff_raises_divi)
  | sqrt rd =>
    refine effect_of_issue h (effect_of_read fun n hn => ?_)
    have hn := readCanonical_eq_ok.mp hn
    exact effect_of_finish rfl rfl (fun _ => canonical_of_fpSqrt hn.canon) (fpSqrt_error_iff_raises hn)
  | norm rd =>
    refine effect_of_issue h (effect_of_read fun f _ hk => ?_)
    split at hk
    · cases hk
    · exact effect_of_next (.float _ rfl (fun _ => canonical_fpNormalize f) rfl rfl) hk
  | d2f rd =>
    refine effect_of_issue h fun hk => ?_
    split at hk
    · cases hk
    · split at hk
      · cases hk
      · exact effect_of_next (.float _ rfl (fun _ => canonical_setString decRom _) rfl rfl) hk
  | f2d rd imm =>
    refine effect_of_issue h (effect_of_read fun f _ => effect_of_next (.text _ ?_ rfl rfl rfl))
    have hlen := toText_length_le decRom f (clampDigits imm)
    have hdigits := clampDigits_bounds imm
    simp only [Config.textBytes]
    omega

/-- The receiver of a legal command that writes a Float is one of F0 .. F7 (R51). -/
theorem legalReg_rdPart {i : Instr} (h : WellFormed i) (hw : writesFloat i = true) : LegalReg i.rdPart := by
  cases i with
  | maxe | mine => cases hw
  | _ => exact h _ (List.mem_cons_self ..)

theorem writesFloat_of_producesCanonical {i : Instr} (h : producesCanonical i = true) : writesFloat i = true := by
  cases i with
  | maxe | mine | rdm | rdl | rde | cmp | cmpi | isz | isn | isp | f2d => cases h
  | _ => rfl

/-! ## What each effect leaves unchanged -/

namespace Effect

variable {i : Instr} {s t : State}

/-- The error register of a command that ran to its end (R18, R178). -/
theorem err_eq (h : Effect i s t) (hrun : Running s) : t.err = ((raises i s).map errCode).getD 0 := by
  cases h with
  | fault e _ hr => simp [hr]
  | float _ _ _ _ hr | raw _ _ _ _ _ hr | ires _ _ _ hr | text _ _ _ _ hr => rw [hr]; exact hrun

theorem ires_eq (h : Effect i s t) (hi : writesIres i = false) : t.ires = s.ires := by
  cases h with
  | ires _ _ hi' _ => rw [hi] at hi'; cases hi'
  | _ => rfl

/-- A register that is not the receiver of a command that writes one reads as before. -/
theorem reg_eq (h : Effect i s t) {q : RegNum} (hq : q ≠ i.rdPart ∨ writesFloat i = false) : t.reg q = s.reg q := by
  have hne : writesFloat i = true → q ≠ i.rdPart := fun hw => hq.resolve_right (by simp [hw])
  cases h with
  | float v hw => exact State.reg_putFloat_other s _ q v (hne hw)
  | raw f hw => exact State.reg_setReg_other s _ q f (hne hw)
  | ires | text | fault => rfl

theorem keepsValid (h : Effect i s t) (hwf : WellFormed i) (q : RegNum) : KeepsValid (s.reg q) (t.reg q) := by
  by_cases hq : q = i.rdPart ∧ writesFloat i = true
  · obtain ⟨rfl, hw⟩ := hq
    have hlegal := legalReg_rdPart hwf hw
    cases h with
    | float v => rw [State.reg_putFloat_same s _ v hlegal]; exact keepsValid_ofFlt _ v
    | raw f _ _ hv => rw [State.reg_setReg_same s _ f hlegal]; exact hv
    | ires | text | fault => exact .refl _
  · rw [h.reg_eq (by simpa [Classical.or_iff_not_imp_left] using hq)]
    exact .refl _

theorem wf_tb (h : Effect i s t) (htb : s.tb.wf = true) : t.tb.wf = true := by
  cases h with
  | text cs hlen => exact Memory.wf_writeText cs s.tb 0 (by simpa using hlen) htb
  | _ => exact htb

/-- A command of the first column of R12 that takes no fault leaves a canonical Float in its receiver. -/
theorem holdsCanonical (h : Effect i s t) (hwf : WellFormed i) (hp : producesCanonical i = true) (herr : t.err = 0) :
    ∃ v, HoldsCanonical t i.rdPart v := by
  have hw := writesFloat_of_producesCanonical hp
  cases h with
  | float v _ hc => exact ⟨v, holdsCanonical_putFloat s _ v (legalReg_rdPart hwf hw) (hc hp)⟩
  | raw f _ hp' => rw [hp] at hp'; cases hp'
  | ires v hw' | text _ _ hw' => rw [hw] at hw'; cases hw'
  | fault e => cases e <;> cases herr

/-- The effect of a running command keeps the invariant. -/
theorem inv (h : Effect i s t) (hrun : Running s) (hinv : Inv s) : Inv t where
  err := by
    rw [LegalErr, h.err_eq hrun]
    rcases raises i s with _ | _ | _ <;> simp [errCode]
  tb := h.wf_tb hinv.tb

end Effect

/-! ## One step -/

/-- A command keeps the invariant, on a halted unit too. -/
theorem inv_of_exec {i : Instr} {s t : State} (h : exec i s = .next t) (hinv : Inv s) : Inv t := by
  obtain ⟨-, rfl⟩ | ⟨hrun, -, heff⟩ := exec_next h
  · exact hinv
  · exact heff.inv hrun hinv

/-- A word that is no command has no next state, but on a halted unit, which it leaves as it is. -/
theorem eq_of_rejectWord {why : Reserved} {s t : State} (h : rejectWord why s = .next t) : t = s := by
  obtain ⟨-, rfl⟩ | ⟨-, -, hnext⟩ := issue_next h
  · rfl
  · cases hnext

theorem inv_of_runWord {w : Command} {s t : State} (h : runWord w s = .next t) (hinv : Inv s) : Inv t := by
  unfold runWord at h
  split at h
  · exact inv_of_exec h hinv
  · rw [eq_of_rejectWord h]; exact hinv

theorem hostWriteText_of_lt {i : Nat} (c : Byte) (s : State) (hi : i < Config.textBytes) :
    hostWriteText i c s = .next { s with tb := s.tb.write i c } := if_pos hi

/-- A host write that answers a next state was to a byte that exists (R40). -/
theorem hostWriteText_next {i : Nat} {c : Byte} {s t : State} (h : hostWriteText i c s = .next t) :
    i < Config.textBytes ∧ t = { s with tb := s.tb.write i c } := by
  unfold hostWriteText at h
  split at h
  next hi => cases h; exact ⟨hi, rfl⟩
  next => cases h

/-- Every action of the host keeps the invariant. -/
theorem inv_of_hostAction {e : HostEvent} {s t : State} (h : hostAction e s = .next t) (hinv : Inv s) : Inv t := by
  cases e with
  | command w => exact inv_of_runWord h hinv
  | writeText i c =>
    obtain ⟨hi, rfl⟩ := hostWriteText_next h
    exact ⟨hinv.err, Memory.wf_write s.tb i c hi hinv.tb⟩
  | writeTlen n => cases h; exact ⟨hinv.err, hinv.tb⟩
  | reset => cases h; exact ⟨.inl rfl, rfl⟩

/-- Every command asks `issue` first (R59). -/
theorem exec_eq_issue (i : Instr) (s : State) : ∃ k, exec i s = issue i.regs s k := by
  cases i <;> exact ⟨_, rfl⟩

theorem exec_halted (i : Instr) {s : State} (h : Halted s) : exec i s = .next s := by
  obtain ⟨k, hk⟩ := exec_eq_issue i s
  rw [hk, issue_halted h]

theorem runWord_halted (w : Command) {s : State} (h : Halted s) : runWord w s = .next s := by
  unfold runWord
  split
  · exact exec_halted _ h
  · exact issue_halted h

/-! ## Reads of invalid fields (R16) -/

section
variable {s : State} {r rd rs : RegNum}

theorem readMsw_invalid (h : ¬ (s.reg r).mswValid = true) : readMsw s r = .error .invalidField := if_neg h

theorem readLsw_invalid (h : ¬ (s.reg r).lswValid = true) : readLsw s r = .error .invalidField := if_neg h

theorem readExp_invalid (h : ¬ (s.reg r).expValid = true) : readExp s r = .error .invalidField := if_neg h

theorem readMant_invalid (h : ¬ ((s.reg r).mswValid = true ∧ (s.reg r).lswValid = true)) :
    readMant s r = .error .invalidField := if_neg (by simpa using h)

theorem readFloat_invalid (h : ¬ WholeValid s r) : readFloat s r = .error .invalidField :=
  if_neg (by simpa [WholeValid, and_assoc] using h)

theorem readFloat_valid (h : WholeValid s r) : readFloat s r = .ok (s.reg r).toFlt :=
  readFloat_eq_ok.mpr ⟨h.1, h.2.1, h.2.2, rfl⟩

theorem readCanonical_invalid (h : ¬ WholeValid s r) : readCanonical s r = .error .invalidField := by
  simp [readCanonical, readFloat_invalid h]

/-- The valid bits of both operands are looked at before either value (R59). -/
theorem readCanonicalPair_invalid (h : ¬ (WholeValid s rd ∧ WholeValid s rs)) :
    readCanonicalPair s rd rs = .error .invalidField := by
  by_cases hd : WholeValid s rd
  · simp [readCanonicalPair, readFloat_valid hd, readFloat_invalid fun hs => h ⟨hd, hs⟩]
  · simp [readCanonicalPair, readFloat_invalid hd]

/-- A legal command at a running unit whose read is refused is refused for the same reason. -/
theorem issue_withRead_error {α : Type} {regs : List RegNum} {x : Except Refusal α} {k : α → Out} {e : Refusal}
    (hrun : Running s) (hwf : ∀ q ∈ regs, LegalReg q) (hx : x = .error e) :
    issue regs s (withRead x k) = .refused e := by
  rw [issue_running hrun hwf, hx, withRead_error]

end

/-! ## SET and NEG -/

theorem holds_unique {s : State} {r : RegNum} {v w : Flt} (hv : Holds s r v) (hw : Holds s r w) : v = w :=
  hv.val.symm.trans hw.val

/-- A command that reads a whole Float and writes a canonical one leaves that one in its receiver. -/
theorem holdsCanonical_of_copy {regs : List RegNum} {rd rs : RegNum} {s t : State} {v : Flt} {g : Flt → Flt}
    (hrun : Running s) (hv : Holds s rs v) (hg : canonical (g v) = true) (hrd : rd ∈ regs)
    (h : issue regs s (withRead (readFloat s rs) fun f => .next (s.putFloat rd (g f))) = .next t) :
    HoldsCanonical t rd (g v) := by
  obtain ⟨hhalt, -⟩ | ⟨-, hwf, hk⟩ := issue_next h
  · exact absurd hrun hhalt
  · obtain ⟨f, hf, hput⟩ := withRead_next hk
    cases hput
    rw [holds_unique (readFloat_eq_ok.mp hf) hv]
    exact holdsCanonical_putFloat s rd (g v) (hwf rd hrd) hg

end Sys2Proof.Machine

namespace Sys2Proof.Proofs

open Sys2Proof.Machine Sys2Proof.Safety

/-- Settles O11: whatever action of the host a step does, it keeps the invariant. -/
theorem everyStepKeepsTheInvariant : Obligations.EveryStepKeepsTheInvariant := by
  intro s t hinv hstep
  cases hhost : s.host with
  | nil =>
    rw [step_idle hhost] at hstep
    cases hstep
    exact hinv
  | cons e rest =>
    rw [step_cons hhost] at hstep
    exact inv_of_hostAction hstep ⟨hinv.err, hinv.tb⟩

/-- Settles O13: `ERR` is the code of the exception that the command raises; a SQRT of an operand that is not negative
raises none, since no division inside it has a zero divisor. -/
theorem errIsWrittenOnlyByDivAndSqrt : Obligations.ErrIsWrittenOnlyByDivAndSqrt := by
  intro i s t hrun hexec
  obtain ⟨hhalt, -⟩ | ⟨-, -, heff⟩ := exec_next hexec
  · exact absurd hrun hhalt
  · rw [heff.err_eq hrun, ← raises_eq_divideByZero_iff, ← raises_eq_sqrtOfNegative_iff]
    rcases raises i s with _ | _ | _ <;> simp [errCode]

/-- Settles O15: the only effect that writes `IRES` is that of the ten commands. -/
theorem iresWrittenOnlyByItsCommands : Obligations.IresWrittenOnlyByItsCommands := by
  intro i s t hi hexec
  obtain ⟨-, rfl⟩ | ⟨-, -, heff⟩ := exec_next hexec
  · rfl
  · exact heff.ires_eq hi

/-- Settles O17: every effect that writes a register writes the receiver. -/
theorem onlyTheReceiverChanges : Obligations.OnlyTheReceiverChanges := by
  intro i s t q hexec hq
  obtain ⟨-, rfl⟩ | ⟨-, -, heff⟩ := exec_next hexec
  · rfl
  · exact heff.reg_eq hq

/-- Settles O18: a Float is written with all its valid bits, a raw field with its own. -/
theorem validBitsStaySet : Obligations.ValidBitsStaySet := by
  intro i s t q hexec
  have hkeep : KeepsValid (s.reg q) (t.reg q) := by
    obtain ⟨-, rfl⟩ | ⟨-, hwf, heff⟩ := exec_next hexec
    · exact .refl _
    · exact heff.keepsValid hwf q
  exact ⟨hkeep.msw, hkeep.lsw, hkeep.exp⟩

/-- Settles O19: by the way in which each command reads its operands. -/
theorem invalidFieldsRefused : Obligations.InvalidFieldsRefused := by
  intro i s hrun hwf hv
  cases i with
  | setz | seti | ldpinf | ldninf | maxe | mine | wrm | wrl | wre | d2f => exact absurd trivial hv
  | set | neg | norm => exact issue_withRead_error hrun hwf (readFloat_invalid hv)
  | rdm | isn => exact issue_withRead_error hrun hwf (readMsw_invalid hv)
  | rdl => exact issue_withRead_error hrun hwf (readLsw_invalid hv)
  | rde => exact issue_withRead_error hrun hwf (readExp_invalid hv)
  | isz | isp => exact issue_withRead_error hrun hwf (readMant_invalid hv)
  | sqrt | addi | subi | muli | divi | cmpi | f2d =>
    exact issue_withRead_error hrun hwf (readCanonical_invalid hv)
  | add | sub | mul | div | cmp => exact issue_withRead_error hrun hwf (readCanonicalPair_invalid hv)

/-- Settles O22: every result of the first column of R12 comes out of `normalize` or is its negation, and SET and NEG
copy. -/
theorem writtenFloatsAreCanonical : Obligations.WrittenFloatsAreCanonical := by
  refine ⟨fun i s t hrun hp hexec herr => ?_, fun rd rs s t v hrun hv hexec => ?_, fun rd s t v hrun hv hexec => ?_⟩
  · obtain ⟨hhalt, -⟩ | ⟨-, hwf, heff⟩ := exec_next hexec
    · exact absurd hrun hhalt
    · exact heff.holdsCanonical hwf hp herr
  · exact holdsCanonical_of_copy (g := id) hrun hv.holds hv.canon (List.mem_cons_self ..) hexec
  · have hneg := holdsCanonical_of_copy (g := fpNeg) hrun hv.holds (canonical_fpNeg hv.canon)
      (List.mem_cons_self ..) hexec
    rwa [fpNeg, mantNeg_eq_neg] at hneg

/-- Settles O8: every command and every reserved word asks `issue` first. -/
theorem haltedUnitChangesNothing : Obligations.HaltedUnitChangesNothing := by
  intro s hhalt
  refine ⟨fun w rest hhost => ?_, fun i => exec_halted i hhalt⟩
  rw [step_cons hhost]
  exact runWord_halted w hhalt

/-- Settles O23: by what a text byte reads after a write. -/
theorem hostWritesReachTheText : Obligations.HostWritesReachTheText := by
  intro s rest
  constructor
  · intro i c hhost hi
    refine ⟨{ s with host := rest, tb := s.tb.write i c }, ?_, Memory.read_write_same s.tb i c,
      fun k hk => Memory.read_write_other s.tb i k c hk, rfl, rfl, rfl, fun _ => rfl, rfl⟩
    rw [step_cons hhost]
    exact hostWriteText_of_lt c _ hi
  · intro n hhost
    exact ⟨{ s with host := rest, tlen := n }, step_cons hhost, rfl, fun _ => rfl, rfl, rfl, fun _ => rfl, rfl⟩

end Sys2Proof.Proofs

namespace Sys2Proof.Machine

open Sys2Proof.Safety

/-! ## The shift masks (R23) -/

theorem shrMask_halves {n : Nat} (hn : n ≤ 30) : (shrMaskH n).toNat * 2 ^ 16 + (shrMaskL n).toNat = 2 ^ n - 1 := by
  have hlt : 2 ^ n - 1 < 2 ^ 32 := by
    have := Nat.pow_le_pow_right (n := 2) (by norm_num) hn
    omega
  have hmask : (shrMask n).toNat = 2 ^ n - 1 := by rw [shrMask, BitVec.toNat_ofNat, Nat.mod_eq_of_lt hlt]
  rw [← hmask, shrMaskH, shrMaskL, ← mswOf, ← lswOf, toNat_mswOf, toNat_lswOf]
  omega

/-! ## The nearest Float (R22) -/

/-- Floats of the same value are the same, where one has its leading bit at bit 30 and the other is canonical with an
exponent that is not smaller. -/
theorem eq_of_scaled_mant_eq {f g : Flt} {d : Nat} (hf : 2 ^ 30 ≤ f.mant.toInt) (hg : canonical g = true)
    (hd : f.exp + d = g.exp) (h : f.mant.toInt = g.mant.toInt * 2 ^ d) : g = f := by
  have hb := mant_toInt_bounds f.mant
  obtain ⟨-, ⟨hz, -⟩ | hn⟩ := (canonical_iff g).mp hg
  · simp only [hz, BitVec.toInt_zero, zero_mul] at h
    omega
  · unfold NormMant at hn
    rcases Nat.eq_zero_or_pos d with rfl | hd0
    · have hmant : g.mant = f.mant := BitVec.toInt_inj.mp (by linarith)
      have hexp : g.exp = f.exp := by simpa using hd.symm
      cases f
      cases g
      simp_all
    · have h2 : (2 : ℤ) ≤ 2 ^ d := le_self_pow₀ (by norm_num) (by omega)
      rcases le_or_gt 0 g.mant.toInt with hpos | hneg
      · have hlead : 2 ^ 30 ≤ g.mant.toInt := by omega
        nlinarith
      · nlinarith

/-- Another canonical Float is at least one unit of the last place away from `f`, or it lies below the power of two at
which the spacing of the Floats changes. -/
theorem value_gap {f g : Flt} (hf : 2 ^ 30 ≤ f.mant.toInt) (hg : canonical g = true) (hne : g ≠ f) :
    (2 : ℚ) ^ (f.exp - 30) ≤ |f.value - g.value| ∨ g.value < 2 ^ 30 * (2 : ℚ) ^ (f.exp - 30) := by
  have hu : (0 : ℚ) < 2 ^ (f.exp - 30) := zpow_pos (by norm_num) _
  rcases le_or_gt f.exp g.exp with hle | hlt
  · left
    obtain ⟨d, hd⟩ := Int.le.dest hle
    have hgv : g.value = (g.mant.toInt * 2 ^ d : ℤ) * (2 : ℚ) ^ (f.exp - 30) := by
      rw [Flt.value, show g.exp - 30 = f.exp - 30 + d by omega, zpow_add₀ (by norm_num), zpow_natCast]
      push_cast
      ring
    have hint : f.mant.toInt - g.mant.toInt * 2 ^ d ≠ 0 := fun h0 =>
      hne (eq_of_scaled_mant_eq hf hg hd (sub_eq_zero.mp h0))
    rw [hgv, Flt.value, ← sub_mul, abs_mul, abs_of_pos hu]
    refine le_mul_of_one_le_left hu.le ?_
    exact_mod_cast Int.one_le_abs hint
  · right
    have hstep : (2 : ℚ) ^ (g.exp - 30) ≤ 2 ^ (f.exp - 30) / 2 := by
      rw [div_eq_mul_inv, ← zpow_sub_one₀ (by norm_num)]
      exact zpow_le_zpow_right₀ (by norm_num) (by omega)
    have hpos : (0 : ℚ) < 2 ^ (g.exp - 30) := zpow_pos (by norm_num) _
    have hmant : (g.mant.toInt : ℚ) < 2 ^ 31 := by exact_mod_cast (mant_toInt_bounds g.mant).2
    calc g.value < 2 ^ 31 * 2 ^ (g.exp - 30) := mul_lt_mul_of_pos_right hmant hpos
      _ ≤ 2 ^ 31 * (2 ^ (f.exp - 30) / 2) := by gcongr
      _ = _ := by ring

/-- A Float closer to `x` than half a unit of its last place is the nearest one. -/
theorem nearestFloat_of_close {f : Flt} {x : ℝ} (hc : canonical f = true) (hm : 2 ^ 30 < f.mant.toInt)
    (hx : 2 * |x - f.value| < 2 ^ (f.exp - 30)) : NearestFloat f x := by
  refine ⟨hc, fun g hg hne => ?_⟩
  have hgap : (2 : ℚ) ^ (f.exp - 30) ≤ |f.value - g.value| := by
    rcases value_gap hm.le hg hne with h | h
    · exact h
    · have hu : (0 : ℚ) < 2 ^ (f.exp - 30) := zpow_pos (by norm_num) _
      have hlead : (2 ^ 30 + 1 : ℚ) ≤ f.mant.toInt := by exact_mod_cast hm
      have hf : (2 ^ 30 + 1) * (2 : ℚ) ^ (f.exp - 30) ≤ f.value := mul_le_mul_of_nonneg_right hlead hu.le
      exact le_abs.mpr (.inl (by linarith))
  have hgap' : (2 : ℝ) ^ (f.exp - 30) ≤ |(f.value : ℝ) - g.value| := by
    simpa using (Rat.cast_le (K := ℝ)).mpr hgap
  have htri := abs_sub_le (f.value : ℝ) x g.value
  rw [abs_sub_comm (f.value : ℝ) x] at htri
  linarith

/-- A Float whose leading bit stands at bit 30 is the nearest one to its own value. -/
theorem nearestFloat_value {f : Flt} (hc : canonical f = true) (hm : 2 ^ 30 ≤ f.mant.toInt) :
    NearestFloat f (f.value : ℝ) := by
  refine ⟨hc, fun g hg hne => ?_⟩
  have hu : (0 : ℚ) < 2 ^ (f.exp - 30) := zpow_pos (by norm_num) _
  have hvalue : f.value - g.value ≠ 0 := by
    rcases value_gap hm hg hne with h | h
    · exact abs_pos.mp (hu.trans_le h)
    · have hlead : (2 ^ 30 : ℚ) ≤ f.mant.toInt := by exact_mod_cast hm
      have hf : 2 ^ 30 * (2 : ℚ) ^ (f.exp - 30) ≤ f.value := mul_le_mul_of_nonneg_right hlead hu.le
      exact (sub_pos.mpr (h.trans_le hf)).ne'
  rw [sub_self, abs_zero, abs_pos]
  exact_mod_cast hvalue

/-- The integer form of "`f` is the Float nearest to `a / b`": `f` is closer than half a unit of its last place, or
is `a / b` itself. -/
def nearestToRatio (f : Flt) (a b : Nat) : Bool :=
  let num : Int := a * 2 ^ (30 - f.exp).toNat
  let den : Int := b * 2 ^ (f.exp - 30).toNat
  decide (0 < b) && canonical f &&
    (decide (2 ^ 30 < f.mant.toInt ∧ 2 * |num - den * f.mant.toInt| < den) ||
      decide (2 ^ 30 ≤ f.mant.toInt ∧ num = den * f.mant.toInt))

theorem nearestFloat_of_nearestToRatio {f : Flt} {a b : Nat} (h : nearestToRatio f a b = true) :
    NearestFloat f (a / b) := by
  simp only [nearestToRatio, Bool.and_eq_true, Bool.or_eq_true, decide_eq_true_eq] at h
  obtain ⟨⟨hb, hc⟩, hnear⟩ := h
  have hb' : (0 : ℚ) < b := by exact_mod_cast hb
  have hs : (0 : ℚ) < 2 ^ (30 - f.exp).toNat := by positivity
  have hulp : (2 : ℚ) ^ (f.exp - 30) = 2 ^ (f.exp - 30).toNat / 2 ^ (30 - f.exp).toNat := by
    rw [← zpow_natCast, ← zpow_natCast, ← zpow_sub₀ (by norm_num)]
    congr 1
    omega
  have hval : (a / b : ℚ) - f.value =
      ((a * 2 ^ (30 - f.exp).toNat - b * 2 ^ (f.exp - 30).toNat * f.mant.toInt : ℤ) : ℚ) /
        (b * 2 ^ (30 - f.exp).toNat) := by
    rw [Flt.value, hulp]
    push_cast
    field_simp
  obtain ⟨hm, hlt⟩ | ⟨hm, heq⟩ := hnear
  · apply nearestFloat_of_close hc hm
    have hclose : 2 * |(a / b : ℚ) - f.value| < 2 ^ (f.exp - 30) := by
      rw [hval, hulp, abs_div, abs_of_pos (mul_pos hb' hs), ← mul_div_assoc, div_lt_div_iff₀ (mul_pos hb' hs) hs]
      have hlt' := (Int.cast_lt (R := ℚ)).mpr hlt
      push_cast at hlt' ⊢
      calc _ < b * 2 ^ (f.exp - 30).toNat * (2 : ℚ) ^ (30 - f.exp).toNat := mul_lt_mul_of_pos_right hlt' hs
        _ = _ := by ring
    simpa using (Rat.cast_lt (K := ℝ)).mpr hclose
  · have hx : (a / b : ℚ) = f.value := sub_eq_zero.mp (by rw [hval, heq, sub_self]; simp)
    have := nearestFloat_value hc hm
    rw [← hx] at this
    simpa using this

/-! ## log10(2) -/

theorem logb_two_lt_div {p q : Nat} (hq : 0 < q) (h : 2 ^ q < 10 ^ p) : Real.logb 10 2 < p / q := by
  have hpow : ((2 : ℝ) ^ q) < 10 ^ p := by exact_mod_cast h
  have hlog := Real.logb_lt_logb (b := 10) (by norm_num) (by positivity) hpow
  rw [Real.logb_pow, Real.logb_pow, Real.logb_self_eq_one (by norm_num), mul_one] at hlog
  rw [lt_div_iff₀ (by exact_mod_cast hq), mul_comm]
  exact hlog

theorem div_lt_logb_two {p q : Nat} (hq : 0 < q) (h : 10 ^ p < 2 ^ q) : p / q < Real.logb 10 2 := by
  have hpow : ((10 : ℝ) ^ p) < 2 ^ q := by exact_mod_cast h
  have hlog := Real.logb_lt_logb (b := 10) (by norm_num) (by positivity) hpow
  rw [Real.logb_pow, Real.logb_pow, Real.logb_self_eq_one (by norm_num), mul_one] at hlog
  rw [div_lt_iff₀ (by exact_mod_cast hq), mul_comm]
  exact hlog

/-- LOG10_2 lies within half a unit of the last place of log10(2), which two fractions enclose closely enough (R21). -/
theorem log10_2_nearest : NearestFloat decRom.log10_2 (Real.logb 10 2) := by
  have hlo : (21306 : ℕ) / (70777 : ℕ) < Real.logb 10 2 := div_lt_logb_two (by norm_num) (by decide +kernel)
  have hhi : Real.logb 10 2 < (468089 : ℕ) / (1554958 : ℕ) := logb_two_lt_div (by norm_num) (by decide +kernel)
  have hval : (decRom.log10_2.value : ℝ) = 0x4D104D42 / 2 ^ 32 := by
    have h : decRom.log10_2.value = 0x4D104D42 / 2 ^ 32 := by
      rw [Flt.value, show decRom.log10_2.mant.toInt = 0x4D104D42 from rfl,
        show decRom.log10_2.exp - 30 = -(32 : ℕ) from rfl, zpow_neg, zpow_natCast]
      norm_num
    rw [h]
    push_cast
    rfl
  apply nearestFloat_of_close rfl (by decide)
  rw [hval, show decRom.log10_2.exp - 30 = -(32 : ℕ) from rfl, zpow_neg, zpow_natCast]
  have hclose : |Real.logb 10 2 - 0x4D104D42 / 2 ^ 32| < 1 / 2 ^ 33 := by
    rw [abs_sub_lt_iff]
    norm_num at hlo hhi ⊢
    constructor <;> linarith
  calc 2 * |Real.logb 10 2 - 0x4D104D42 / 2 ^ 32| < 2 * (1 / 2 ^ 33) := by linarith
    _ = _ := by norm_num

/-! ## The exact product (R104, R130) -/

theorem mantBit30_iff (m : Mant) : mantBit30 m = true ↔ 2 ^ 30 ≤ m.toNat % 2 ^ 31 := by
  simp only [mantBit30, BitVec.getLsbD, Nat.testBit_eq_decide_div_mod_eq, decide_eq_true_eq]
  omega

/-- The loop of `mant_longUmult` multiplies by the number `y` of the `n` bits of the receiver that are left, when
nothing overflows (R104). -/
theorem toNat_longUmultLoop (n : Nat) (x m : Mant) (acc : BitVec 64) (y : Nat) (hn : n ≤ 31) (hy : y < 2 ^ n)
    (hx : x.toNat % 2 ^ 31 = y * 2 ^ (31 - n)) (hacc : (acc.toNat + m.toNat) * 2 ^ n < 2 ^ 64) :
    (longUmultLoop n x m acc).toNat = acc.toNat * 2 ^ n + y * m.toNat := by
  induction n generalizing x acc y with
  | zero =>
    obtain rfl : y = 0 := by omega
    simp [longUmultLoop]
  | succ n ih =>
    rw [show 31 - (n + 1) = 30 - n by omega] at hx
    have hw : 2 ^ n * 2 ^ (30 - n) = 2 ^ 30 := by rw [← pow_add]; congr 1; omega
    have hw' : 2 ^ (31 - n) = 2 * 2 ^ (30 - n) := by rw [← pow_succ']; congr 1; omega
    have hshift : (x <<< 1).toNat % 2 ^ 31 = 2 * (x.toNat % 2 ^ 31) % 2 ^ 31 := by
      rw [BitVec.toNat_shiftLeft, Nat.shiftLeft_eq]
      omega
    have hn1 : 0 < 2 ^ n := by positivity
    have hacc2 : 2 * (acc.toNat + m.toNat) * 2 ^ n < 2 ^ 64 := by rw [pow_succ] at hacc; linarith
    have hacc' : 2 * (acc.toNat + m.toNat) < 2 ^ 64 := (Nat.le_mul_of_pos_right _ hn1).trans_lt hacc2
    have hdouble : (acc <<< 1).toNat = 2 * acc.toNat := by
      rw [BitVec.toNat_shiftLeft, Nat.shiftLeft_eq]
      omega
    simp only [longUmultLoop]
    rcases Nat.lt_or_ge y (2 ^ n) with hlow | hhigh
    · have hsmall : y * 2 ^ (30 - n) < 2 ^ 30 := by rw [← hw]; gcongr
      have hbit : mantBit30 x = false := by rw [← Bool.not_eq_true, mantBit30_iff, hx]; omega
      rw [hbit, if_neg Bool.false_ne_true, ih _ _ y (by omega) hlow
        (by rw [hshift, hx, Nat.mod_eq_of_lt (by omega), hw']; ring) (by rw [hdouble]; nlinarith), hdouble, pow_succ]
      ring
    · obtain ⟨y', rfl⟩ := Nat.exists_eq_add_of_le hhigh
      have hlow : y' < 2 ^ n := by rw [pow_succ] at hy; omega
      have hsmall : y' * 2 ^ (30 - n) < 2 ^ 30 := by rw [← hw]; gcongr
      rw [add_mul, hw] at hx
      have hbit : mantBit30 x = true := by rw [mantBit30_iff, hx]; omega
      have hsum : (acc <<< 1 + m.setWidth 64).toNat = 2 * acc.toNat + m.toNat := by
        have := m.isLt
        rw [BitVec.toNat_add, hdouble, BitVec.toNat_setWidth]
        omega
      rw [hbit, if_pos rfl, ih _ _ y' (by omega) hlow
        (by rw [hshift, hx, hw', show y' * (2 * 2 ^ (30 - n)) = 2 * (y' * 2 ^ (30 - n)) by ring]; omega)
        (by rw [hsum]; nlinarith), hsum, pow_succ]
      ring

/-- The number that a pair of words stands for, the first one high (R104). -/
def pairNat (p : Mant × Mant) : Nat := p.1.toNat * 2 ^ 32 + p.2.toNat

/-- `mant_longUmult` is the exact product of the low 31 bits of the receiver and the operand (R104). -/
theorem pairNat_mantLongUmult (x m : Mant) : pairNat (mantLongUmult x m) = x.toNat % 2 ^ 31 * m.toNat := by
  have hm := m.isLt
  have hloop := toNat_longUmultLoop 31 x m 0#64 (x.toNat % 2 ^ 31) le_rfl (Nat.mod_lt _ (by norm_num)) (by simp)
    (by simp only [BitVec.toNat_ofNat]; omega)
  rw [BitVec.toNat_ofNat, Nat.zero_mod, zero_mul, zero_add] at hloop
  rw [← hloop]
  have := (longUmultLoop 31 x m 0#64).isLt
  simp only [pairNat, mantLongUmult, BitVec.extractLsb'_toNat, Nat.shiftRight_eq_div_pow]
  omega

/-- Shifting a pair left doubles its number when the top bit is clear (R130). -/
theorem pairNat_shiftPair {p : Mant × Mant} (h : pairNat p < 2 ^ 63) : pairNat (shiftPair p) = 2 * pairNat p := by
  have hbit : (bitMant (signBit p.2)).toNat = p.2.toNat / 2 ^ 31 := by
    have := p.2.isLt
    cases hs : signBit p.2
    · have := (signBit_eq_false_iff _).mp hs
      rw [BitVec.toInt_eq_toNat_cond] at this
      simp only [bitMant, Bool.false_eq_true, if_false, BitVec.toNat_ofNat]
      omega
    · have := (signBit_iff _).mp hs
      rw [BitVec.toInt_eq_toNat_cond] at this
      simp only [bitMant, if_true, BitVec.toNat_ofNat]
      omega
  have h1 := p.1.isLt
  have h2 := p.2.isLt
  simp only [pairNat, shiftPair, BitVec.toNat_or, BitVec.toNat_shiftLeft, Nat.shiftLeft_eq, hbit] at h ⊢
  rw [show p.1.toNat * 2 ^ 1 % 2 ^ 32 = 2 ^ 1 * p.1.toNat by omega,
    ← Nat.two_pow_add_eq_or_of_lt (by omega)]
  omega

/-- The high word of a pair whose number has its leading bit at bit 62. -/
theorem pair_fst_of_lead {p : Mant × Mant} (h₁ : 2 ^ 62 ≤ pairNat p) (h₂ : pairNat p < 2 ^ 63) :
    2 ^ 30 ≤ p.1.toInt ∧ p.1.toInt * 2 ^ 32 ≤ pairNat p := by
  have := p.2.isLt
  unfold pairNat at h₁ h₂ ⊢
  rw [BitVec.toInt_eq_toNat_of_lt (by omega)]
  push_cast
  omega

/-- Rounding keeps a leading bit at bit 30; the exponent grows only where the magnitude is all ones (R130). -/
theorem roundMagnitude_of_lead {hi : Mant} (e : Int) (up : Bool) (h : 2 ^ 30 ≤ hi.toInt) :
    2 ^ 30 ≤ (roundMagnitude hi e up).mant.toInt ∧
      ((roundMagnitude hi e up).exp = e ∨ (roundMagnitude hi e up).exp = e + 1 ∧ hi.toInt = 2 ^ 31 - 1) := by
  have hb := mant_toInt_bounds hi
  have hnat := toNat_of_nonneg (show 0 ≤ hi.toInt by omega)
  have hsucc : (mantAddInt hi 1#16).toNat = hi.toNat + 1 := by
    rw [show mantAddInt hi 1#16 = hi + 1#32 from mantAddInt_bitHalf hi true, BitVec.toNat_add, BitVec.toNat_ofNat]
    omega
  unfold roundMagnitude
  split
  · dsimp only
    split
    next hs =>
      have := (signBit_iff _).mp hs
      rw [BitVec.toInt_eq_toNat_cond, hsucc] at this
      exact ⟨(by decide : 2 ^ 30 ≤ (0x40000000#32).toInt), .inr ⟨rfl, by omega⟩⟩
    next hs =>
      have := (signBit_eq_false_iff _).mp (by simpa using hs)
      rw [BitVec.toInt_eq_toNat_cond, hsucc] at this ⊢
      exact ⟨by omega, .inl rfl⟩
  · exact ⟨h, .inl rfl⟩

/-- The product of two Floats with their leading bits at bit 30: the exponents add, or add and one more (R130). -/
theorem fpMult_of_lead {a b : Flt} (ha : 2 ^ 30 ≤ a.mant.toInt) (hb : 2 ^ 30 ≤ b.mant.toInt) :
    ∃ (m : Mant) (e : Int), 2 ^ 30 ≤ m.toInt ∧ (e = a.exp + b.exp ∨ e = a.exp + b.exp + 1) ∧
      fpMult a b = normClamp m e := by
  have ha0 : 0 ≤ a.mant.toInt := by omega
  have hb0 : 0 ≤ b.mant.toInt := by omega
  have hA := mant_toInt_bounds a.mant
  have hB := mant_toInt_bounds b.mant
  have hprod : (pairNat (mantLongUmult a.mant b.mant) : Int) = a.mant.toInt * b.mant.toInt := by
    have hnat := toNat_of_nonneg ha0
    rw [pairNat_mantLongUmult, Nat.mod_eq_of_lt (by omega), Nat.cast_mul, hnat, toNat_of_nonneg hb0]
  have hlo : 2 ^ 60 ≤ pairNat (mantLongUmult a.mant b.mant) := by
    zify; rw [hprod]; nlinarith
  have hhi : pairNat (mantLongUmult a.mant b.mant) ≤ (2 ^ 31 - 1) * (2 ^ 31 - 1) := by
    zify; rw [hprod]; norm_num; nlinarith
  have hp := pairNat_shiftPair (p := mantLongUmult a.mant b.mant) (by omega)
  unfold fpMult
  simp only [mantAbs_of_nonneg ha0, mantAbs_of_nonneg hb0, (signBit_eq_false_iff a.mant).mpr ha0,
    (signBit_eq_false_iff b.mant).mpr hb0, ne_eq, not_true_eq_false, if_false]
  generalize shiftPair (mantLongUmult a.mant b.mant) = p at hp ⊢
  have hbound : pairNat p < 2 ^ 63 := by omega
  split
  next hbit =>
    have hfst := (mantBit30_iff _).mp hbit
    obtain ⟨hlead, hle⟩ := pair_fst_of_lead (p := p) (by unfold pairNat; omega) hbound
    obtain ⟨hround, hexp⟩ := roundMagnitude_of_lead (a.exp + b.exp + 1) (signBit p.2) hlead
    exact ⟨_, _, hround, .inr (by dsimp only; omega), fpNormalize_of_normMant (.of_lead hround)⟩
  next hbit =>
    have hfst := mt (mantBit30_iff _).mpr hbit
    have hsmall : pairNat p < 2 ^ 62 := by unfold pairNat at hbound ⊢; omega
    have hp' := pairNat_shiftPair (p := p) (by omega)
    obtain ⟨hlead, -⟩ := pair_fst_of_lead (p := shiftPair p) (by omega) (by omega)
    obtain ⟨hround, hexp⟩ := roundMagnitude_of_lead (a.exp + b.exp + 1 - 1) (signBit (shiftPair p).2) hlead
    exact ⟨_, _, hround, by dsimp only; omega, fpNormalize_of_normMant (.of_lead hround)⟩

theorem fpMult_zero_left (b : Flt) : fpMult fltZero b = fltZero := by
  have hpair : mantLongUmult 0#32 (mantAbs b.mant) = (0#32, 0#32) := by
    have h : pairNat (mantLongUmult 0#32 (mantAbs b.mant)) = 0 := by rw [pairNat_mantLongUmult]; simp
    unfold pairNat at h
    exact Prod.ext (BitVec.eq_of_toNat_eq (by simp; omega)) (BitVec.eq_of_toNat_eq (by simp; omega))
  have hzero : ∀ e, roundMagnitude 0#32 e false = ⟨0#32, e⟩ := fun _ => rfl
  have habs : mantAbs 0#32 = 0#32 := rfl
  have hshift : shiftPair (0#32, 0#32) = (0#32, 0#32) := rfl
  have hsign : signBit 0#32 = false := rfl
  simp [fpMult, fltZero, habs, hpair, hshift, hsign, hzero, mantNeg_eq_neg, fpNormalize, isZero, mantBit30]

/-! ## Powers of ten saturate (R155) -/

/-- The exponents, each `c` larger, of the table entries that the bits of `a` select. -/
def expSum (c : Int) : List Flt → Nat → Int
  | [], _ => 0
  | p :: ps, a => (if a % 2 = 1 then p.exp + c else 0) + expSum c ps (a / 2)

/-- A Float from 2^E on, or INF. -/
def ReachesExp (E : Int) (f : Flt) : Prop := 2 ^ 30 ≤ f.mant.toInt ∧ E ≤ f.exp ∧ f.exp ≤ 511 ∨ f = fltInf

/-- A Float below 2^(E+1), or ZERO. -/
def StaysBelowExp (E : Int) (f : Flt) : Prop := 2 ^ 30 ≤ f.mant.toInt ∧ -512 ≤ f.exp ∧ f.exp ≤ E ∨ f = fltZero

theorem normClamp_above {m : Mant} {e : Int} (hm : 2 ^ 30 ≤ m.toInt) (he : 511 < e) : normClamp m e = fltInf := by
  simp [normClamp, (signBit_eq_false_iff m).mpr (by omega), show ¬ e < Config.minExp by simp [Config.minExp]; omega,
    show e > Config.maxExp by simpa [Config.maxExp] using he]

theorem normClamp_below {m : Mant} {e : Int} (he : e < -512) : normClamp m e = fltZero := if_pos he

theorem reachesExp_fpMult {E : Int} {f p : Flt} (hE : 0 ≤ E) (hf : ReachesExp E f) (hp : 2 ^ 30 ≤ p.mant.toInt)
    (hexp : 0 < p.exp) : ReachesExp (E + p.exp) (fpMult f p) := by
  have key : ∃ m e, 2 ^ 30 ≤ m.toInt ∧ (E + p.exp ≤ e ∨ 511 < e) ∧ 0 ≤ e ∧ fpMult f p = normClamp m e := by
    obtain ⟨hm, hlo, hhi⟩ | rfl := hf
    · obtain ⟨m, e, hme, he, hmul⟩ := fpMult_of_lead hm hp
      exact ⟨m, e, hme, by omega, by omega, hmul⟩
    · obtain ⟨m, e, hme, he, hmul⟩ := fpMult_of_lead (a := fltInf) (by decide) hp
      have : fltInf.exp = 511 := rfl
      exact ⟨m, e, hme, by omega, by omega, hmul⟩
  obtain ⟨m, e, hm, he, h0, hmul⟩ := key
  rw [hmul]
  rcases le_or_gt e 511 with hle | hgt
  · rw [normClamp_of_range (by omega) hle]
    exact .inl ⟨hm, by dsimp only; omega, hle⟩
  · exact .inr (normClamp_above hm hgt)

theorem staysBelowExp_fpMult {E : Int} {f p : Flt} (hE : E ≤ 0) (hf : StaysBelowExp E f) (hp : 2 ^ 30 ≤ p.mant.toInt)
    (hexp : p.exp < 0) : StaysBelowExp (E + (p.exp + 1)) (fpMult f p) := by
  obtain ⟨hm, hlo, hhi⟩ | rfl := hf
  · obtain ⟨m, e, hme, he, hmul⟩ := fpMult_of_lead hm hp
    rw [hmul]
    rcases lt_or_ge e (-512) with hlt | hge
    · exact .inr (normClamp_below hlt)
    · rw [normClamp_of_range hge (by omega)]
      exact .inl ⟨hme, hge, by dsimp only; omega⟩
  · exact .inr (fpMult_zero_left p)

theorem reachesExp_powLoop (ps : List Flt) (a : Nat) {E : Int} {r : Flt} (hE : 0 ≤ E) (hr : ReachesExp E r)
    (hps : ∀ p ∈ ps, 2 ^ 30 ≤ p.mant.toInt ∧ 0 < p.exp) : ReachesExp (E + expSum 0 ps a) (powLoop ps a r) := by
  induction ps generalizing a E r with
  | nil => simpa [powLoop, expSum] using hr
  | cons p ps ih =>
    obtain ⟨⟨hp, hexp⟩, hrest⟩ := List.forall_mem_cons.mp hps
    simp only [powLoop, expSum]
    split
    · rw [← add_assoc]
      exact ih (a / 2) (by omega) (by simpa using reachesExp_fpMult hE hr hp hexp) hrest
    · rw [zero_add]
      exact ih (a / 2) hE hr hrest

theorem staysBelowExp_powLoop (ps : List Flt) (a : Nat) {E : Int} {r : Flt} (hE : E ≤ 0) (hr : StaysBelowExp E r)
    (hps : ∀ p ∈ ps, 2 ^ 30 ≤ p.mant.toInt ∧ p.exp < 0) : StaysBelowExp (E + expSum 1 ps a) (powLoop ps a r) := by
  induction ps generalizing a E r with
  | nil => simpa [powLoop, expSum] using hr
  | cons p ps ih =>
    obtain ⟨⟨hp, hexp⟩, hrest⟩ := List.forall_mem_cons.mp hps
    simp only [powLoop, expSum]
    split
    · rw [← add_assoc]
      exact ih (a / 2) (by omega) (staysBelowExp_fpMult hE hr hp hexp) hrest
    · rw [zero_add]
      exact ih (a / 2) hE hr hrest

theorem le_expSum_power10 : ∀ a < 256, 155 ≤ a → 512 ≤ expSum 0 decRom.power10 a := by decide +kernel

theorem expSum_negPower10_le : ∀ a < 256, 155 ≤ a → expSum 1 decRom.negPower10 a ≤ -513 := by decide +kernel

theorem setPow10_saturates {n : Int} (h₁ : 155 ≤ n) (h₂ : n ≤ 255) : setPow10 decRom n = fltInf := by
  have hr : ReachesExp 0 fltOne := .inl (by decide)
  have hps : ∀ p ∈ decRom.power10, 2 ^ 30 ≤ p.mant.toInt ∧ 0 < p.exp := by decide
  have hsum := le_expSum_power10 n.natAbs (by omega) (by omega)
  rw [setPow10, if_pos (by omega)]
  obtain ⟨-, hlo, hhi⟩ | hinf := reachesExp_powLoop decRom.power10 n.natAbs le_rfl hr hps
  · omega
  · exact hinf

theorem setPow10_underflows {n : Int} (h₁ : -255 ≤ n) (h₂ : n ≤ -155) : setPow10 decRom n = fltZero := by
  have hr : StaysBelowExp 0 fltOne := .inl (by decide)
  have hps : ∀ p ∈ decRom.negPower10, 2 ^ 30 ≤ p.mant.toInt ∧ p.exp < 0 := by decide
  have hsum := expSum_negPower10_le n.natAbs (by omega) (by omega)
  rw [setPow10, if_neg (by omega)]
  obtain ⟨-, hlo, hhi⟩ | hzero := staysBelowExp_powLoop decRom.negPower10 n.natAbs le_rfl hr hps
  · omega
  · exact hzero

/-! ## The decimal tables (R21, R22) -/

theorem power10_nearest : ∀ p ∈ decRom.power10.zipIdx, nearestToRatio p.1 (10 ^ 2 ^ p.2) 1 = true := by
  decide +kernel

theorem negPower10_nearest : ∀ p ∈ decRom.negPower10.zipIdx, nearestToRatio p.1 1 (10 ^ 2 ^ p.2) = true := by
  decide +kernel

theorem rounding_nearest : ∀ p ∈ decRom.rounding.zipIdx, nearestToRatio p.1 1 (2 * 10 ^ p.2) = true := by
  decide +kernel

/-- An entry of a table of which every entry is nearest to its ratio. -/
theorem nearestFloat_of_table {l : List Flt} {num den : Nat → Nat}
    (h : ∀ p ∈ l.zipIdx, nearestToRatio p.1 (num p.2) (den p.2) = true) {k : Nat} {f : Flt} (hk : l[k]? = some f) :
    NearestFloat f (num k / den k) :=
  nearestFloat_of_nearestToRatio (h (f, k) (List.mk_mem_zipIdx_iff_getElem?.mpr hk))

end Sys2Proof.Machine

namespace Sys2Proof.Proofs

open Sys2Proof.Machine Sys2Proof.Safety

/-- Settles O54: the tables by exact integer arithmetic, log10(2) by two fractions that enclose it, the powers by their
exponents. -/
theorem decimalConstantsAreNearest : Obligations.DecimalConstantsAreNearest := by
  refine ⟨log10_2_nearest, ⟨rfl, rfl, rfl⟩, fun k f hk => ?_, fun k f hk => ?_, fun k f hk => ?_,
    fun n => shrMask_halves, fun n => ⟨setPow10_saturates, setPow10_underflows⟩⟩
  · simpa using nearestFloat_of_table (num := fun k => 10 ^ 2 ^ k) (den := fun _ => 1) power10_nearest hk
  · simpa using nearestFloat_of_table (num := fun _ => 1) (den := fun k => 10 ^ 2 ^ k) negPower10_nearest hk
  · simpa using nearestFloat_of_table (num := fun _ => 1) (den := fun k => 2 * 10 ^ k) rounding_nearest hk

end Sys2Proof.Proofs

namespace Sys2Proof.Machine

open Sys2Proof.Safety

/-! ## The frames of the text and of the host's actions -/

/-- F2D is the one command that writes neither a Float register nor `IRES`. -/
theorem eq_f2d_of_writes_no_result {i : Instr} (hw : writesFloat i = false) (hi : writesIres i = false) :
    ∃ rd imm, i = .f2d rd imm := by
  cases i with
  | f2d rd imm => exact ⟨rd, imm, rfl⟩
  | maxe | mine | rdm | rdl | rde | cmp | cmpi | isz | isn | isp => cases hi
  | _ => cases hw

namespace Effect

variable {i : Instr} {s t : State}

/-- The text and its length are as before, but after F2D (R41). -/
theorem text_eq (h : Effect i s t) (hi : ∀ rd imm, i ≠ .f2d rd imm) : t.tlen = s.tlen ∧ t.tb = s.tb := by
  cases h with
  | text cs _ hw hires =>
    obtain ⟨rd, imm, hf2d⟩ := eq_f2d_of_writes_no_result hw hires
    exact absurd hf2d (hi rd imm)
  | float | raw | ires | fault => exact ⟨rfl, rfl⟩

/-- No command touches the host's actions still to come. -/
theorem host_eq (h : Effect i s t) : t.host = s.host := by
  cases h with
  | float | raw | ires | text | fault => rfl

end Effect

theorem host_of_exec {i : Instr} {s t : State} (h : exec i s = .next t) : t.host = s.host := by
  obtain ⟨-, rfl⟩ | ⟨-, -, heff⟩ := exec_next h
  · rfl
  · exact heff.host_eq

theorem host_of_runWord {w : Command} {s t : State} (h : runWord w s = .next t) : t.host = s.host := by
  unfold runWord at h
  split at h
  · exact host_of_exec h
  · rw [eq_of_rejectWord h]

theorem host_of_hostAction {e : HostEvent} {s t : State} (h : hostAction e s = .next t) : t.host = s.host := by
  cases e with
  | command w => exact host_of_runWord h
  | writeText i c =>
    obtain ⟨-, rfl⟩ := hostWriteText_next h
    rfl
  | writeTlen | reset => cases h; rfl

/-- A step that answers a next state has taken one action off the host's list. -/
theorem host_of_step {s t : State} (h : step s = .next t) : t.host = s.host.tail := by
  cases hhost : s.host with
  | nil =>
    rw [step_idle hhost] at h
    cases h
    exact hhost
  | cons e rest =>
    rw [step_cons hhost] at h
    exact host_of_hostAction h

/-! ## Where a fault of the model can come from -/

/-- If a command that reads answers a fault, the read succeeded and what follows it answers that fault. -/
theorem withRead_fault {α : Type} {x : Except Refusal α} {k : α → Out} {r : Fault} (h : withRead x k = .fault r) :
    ∃ a, x = .ok a ∧ k a = .fault r := by
  cases x with
  | ok a => exact ⟨a, rfl, h⟩
  | error e => cases h

/-- An exception of the unit is a next state, not a fault of the model (R178). -/
theorem finish_ne_fault (x : Except Exc Flt) (rd : RegNum) (s : State) (r : Fault) : finish x rd s ≠ .fault r := by
  cases x with
  | ok v => nofun
  | error e => nofun

/-- No command answers a fault of the model. -/
theorem exec_ne_fault (i : Instr) (s : State) (r : Fault) : exec i s ≠ .fault r := by
  intro h
  cases i with
  | setz | seti | ldpinf | ldninf | maxe | mine | wrm | wrl | wre => cases issue_fault h
  | set | rdm | rdl | rde | neg | add | addi | sub | subi | mul | muli | cmp | cmpi | isz | isn | isp | f2d =>
    obtain ⟨_, -, hk⟩ := withRead_fault (issue_fault h)
    cases hk
  | div | divi | sqrt =>
    obtain ⟨_, -, hk⟩ := withRead_fault (issue_fault h)
    exact finish_ne_fault _ _ _ _ hk
  | norm rd =>
    obtain ⟨_, -, hk⟩ := withRead_fault (issue_fault h)
    split at hk <;> cases hk
  | d2f rd =>
    have hf := issue_fault h
    split at hf
    · cases hf
    · split at hf <;> cases hf

theorem runWord_ne_fault (w : Command) (s : State) (r : Fault) : runWord w s ≠ .fault r := by
  unfold runWord
  split
  · exact exec_ne_fault _ s r
  · intro h
    cases issue_fault h

/-- A host write to a byte that does not exist is a fault of the model (R40). -/
theorem hostWriteText_of_ge {i : Nat} (c : Byte) (s : State) (hi : Config.textBytes ≤ i) :
    hostWriteText i c s = .fault .noTextByte := if_neg (Nat.not_lt.mpr hi)

/-- An action of the host that reaches only bytes that exist answers no fault. -/
theorem hostAction_ne_fault {e : HostEvent} (he : EventFits e) (s : State) (r : Fault) :
    hostAction e s ≠ .fault r := by
  cases e with
  | command w => exact runWord_ne_fault w s r
  | writeText i c =>
    have hwrite : hostAction (.writeText i c) s = .next { s with tb := s.tb.write i c } := hostWriteText_of_lt c s he
    simp [hwrite]
  | writeTlen | reset => nofun

theorem step_ne_fault {s : State} (h : ∀ e ∈ s.host, EventFits e) (r : Fault) : step s ≠ .fault r := by
  cases hhost : s.host with
  | nil => simp [step_idle hhost]
  | cons e rest =>
    rw [step_cons hhost]
    exact hostAction_ne_fault (h e (hhost ▸ List.mem_cons_self ..)) _ r

/-! ## Runs -/

/-- If a run of `k + 1` steps ends in a fault, its first step answers that fault or the run of the other `k`
ends in it. -/
theorem run_succ_fault {M : Host.Core} {k : Nat} {s : M.State} {r : M.Fault} (h : M.run (k + 1) s = .fault r) :
    M.step s = .fault r ∨ ∃ t, M.step s = .next t ∧ M.run k t = .fault r := by
  unfold Host.Core.run at h
  split at h
  next t hstep => exact .inr ⟨t, hstep, h⟩
  next e hstep => cases h; exact .inl hstep
  next => cases h

/-- A run is safe where every state that meets `P` answers no fault and steps only to states that meet `P`. -/
theorem safeFor_of_invariant {P : State → Prop} (hsafe : ∀ s, P s → ∀ r, step s ≠ .fault r)
    (hkeep : ∀ s t, P s → step s = .next t → P t) (k : Nat) (s : State) (hs : P s) : SafeFor k s := by
  induction k generalizing s with
  | zero => nofun
  | succ k ih =>
    intro r hrun
    obtain hfault | ⟨t, hstep, hrest⟩ := run_succ_fault hrun
    · exact hsafe s hs r hfault
    · exact ih t (hkeep s t hs hstep) r hrest

end Sys2Proof.Machine

namespace Sys2Proof.Proofs

open Sys2Proof.Machine Sys2Proof.Safety

/-- Settles O16: the only effect that writes the text is that of F2D. -/
theorem textWrittenOnlyByF2d : Obligations.TextWrittenOnlyByF2d := by
  intro i s t hi hexec
  obtain ⟨-, rfl⟩ | ⟨-, -, heff⟩ := exec_next hexec
  · exact ⟨rfl, fun _ => rfl⟩
  · obtain ⟨htlen, htb⟩ := heff.text_eq hi
    exact ⟨htlen, fun _ => by rw [htb]⟩

/-- Settles O24: that every action to come fits is an invariant, since a step only takes the first one off, and under
it no step answers a fault. -/
theorem runsFaultOnlyOnMissingTextBytes : Obligations.RunsFaultOnlyOnMissingTextBytes := by
  refine ⟨?_, fun s i c rest hhost hi => ?_⟩
  · refine safeFor_of_invariant (fun s hs r => step_ne_fault hs r) fun s t hs hstep e he => hs e ?_
    rw [host_of_step hstep] at he
    exact List.mem_of_mem_tail he
  · rw [step_cons hhost]
    exact hostWriteText_of_ge c _ hi

end Sys2Proof.Proofs

namespace Sys2Proof

open Sys2Proof.Machine Sys2Proof.Safety

/-! ## Words, field by field (R50) -/

/-- Two words are equal exactly when their four fields are. -/
theorem word_eq_iff {v w : Command} :
    v = w ↔ opField v = opField w ∧ rdField v = rdField w ∧ rsField v = rsField w ∧ immField v = immField w := by
  constructor
  · rintro rfl
    exact ⟨rfl, rfl, rfl, rfl⟩
  · rintro ⟨hop, hrd, hrs, himm⟩
    rw [← commandWord_fields v, hop, hrd, hrs, himm, commandWord_fields]

@[simp] theorem opField_and (v w : Command) : opField (v &&& w) = opField v &&& opField w := BitVec.extractLsb'_and

@[simp] theorem rdField_and (v w : Command) : rdField (v &&& w) = rdField v &&& rdField w := BitVec.extractLsb'_and

@[simp] theorem rsField_and (v w : Command) : rsField (v &&& w) = rsField v &&& rsField w := BitVec.extractLsb'_and

@[simp] theorem immField_and (v w : Command) : immField (v &&& w) = immField v &&& immField w := BitVec.extractLsb'_and

section
variable (i : Instr)

@[simp] theorem opField_encode : opField (encode i) = i.opcode := opField_commandWord ..

@[simp] theorem rdField_encode : rdField (encode i) = i.rdPart := rdField_commandWord ..

@[simp] theorem rsField_encode : rsField (encode i) = i.rsPart := rsField_commandWord ..

@[simp] theorem immField_encode : immField (encode i) = i.immPart := immField_commandWord ..

end

/-- A word is that of the command whose parts stand in its four fields. -/
theorem encode_eq_iff {i : Instr} {w : Command} :
    encode i = w ↔
      i.opcode = opField w ∧ i.rdPart = rdField w ∧ i.rsPart = rsField w ∧ i.immPart = immField w := by
  simp [word_eq_iff]

/-! ## The formats and their masks (R51) -/

/-- A register number is legal exactly when the top bit of its field is zero. -/
theorem legalReg_iff_and (r : RegNum) : r &&& 8 = 0 ↔ LegalReg r := by
  revert r
  decide

/-- A command format, by the bits that must be zero in each operand field. -/
structure CommandFormat where
  rd : RegNum
  rs : RegNum
  imm : Half

namespace CommandFormat

/-- Receiver and operand: `imm16` is zero. -/
def rr : CommandFormat := ⟨0x8, 0x8, 0xFFFF⟩

/-- Receiver and immediate: the `rs` field is zero. -/
def ri : CommandFormat := ⟨0x8, 0xF, 0x0000⟩

/-- Receiver alone. -/
def r1 : CommandFormat := ⟨0x8, 0xF, 0xFFFF⟩

/-- No operand. -/
def n0 : CommandFormat := ⟨0xF, 0xF, 0xFFFF⟩

/-- The mask of the fixed bits: the whole operation code, and the bits that must be zero. -/
def mask (f : CommandFormat) : Command := commandWord 0xFF f.rd f.rs f.imm

/-- Every bit of `w` that the format asks to be zero is zero. -/
def Fits (f : CommandFormat) (w : Command) : Prop :=
  rdField w &&& f.rd = 0 ∧ rsField w &&& f.rs = 0 ∧ immField w &&& f.imm = 0

/-- What the mask of a format selects: the words with a given operation code that fit the format. -/
theorem and_mask_eq_iff (f : CommandFormat) (w : Command) (op : BitVec 8) :
    w &&& f.mask = commandWord op 0 0 0 ↔ opField w = op ∧ f.Fits w := by
  have hop : opField w &&& 0xFF#8 = opField w := BitVec.and_allOnes
  simp [word_eq_iff, mask, Fits, hop]

variable {w : Command}

theorem fits_rr_iff : rr.Fits w ↔ LegalReg (rdField w) ∧ LegalReg (rsField w) ∧ immField w = 0 := by
  have himm : immField w &&& 0xFFFF = immField w := BitVec.and_allOnes
  simp only [Fits, rr, legalReg_iff_and, himm]

theorem fits_ri_iff : ri.Fits w ↔ LegalReg (rdField w) ∧ rsField w = 0 := by
  have hrs : rsField w &&& 0xF = rsField w := BitVec.and_allOnes
  have himm : immField w &&& 0x0000 = 0 := BitVec.and_zero
  simp only [Fits, ri, legalReg_iff_and, hrs, himm, and_true]

theorem fits_r1_iff : r1.Fits w ↔ LegalReg (rdField w) ∧ rsField w = 0 ∧ immField w = 0 := by
  have hrs : rsField w &&& 0xF = rsField w := BitVec.and_allOnes
  have himm : immField w &&& 0xFFFF = immField w := BitVec.and_allOnes
  simp only [Fits, r1, legalReg_iff_and, hrs, himm]

theorem fits_n0_iff : n0.Fits w ↔ rdField w = 0 ∧ rsField w = 0 ∧ immField w = 0 := by
  have hrd : rdField w &&& 0xF = rdField w := BitVec.and_allOnes
  have hrs : rsField w &&& 0xF = rsField w := BitVec.and_allOnes
  have himm : immField w &&& 0xFFFF = immField w := BitVec.and_allOnes
  simp only [Fits, n0, hrd, hrs, himm]

end CommandFormat

/-- The format of a command (R53). -/
def Instr.format : Instr → CommandFormat
  | .maxe | .mine => .n0
  | .setz _ | .ldpinf _ | .ldninf _ | .rdm _ | .rdl _ | .rde _ | .neg _ | .sqrt _ | .norm _
  | .isz _ | .isn _ | .isp _ | .d2f _ => .r1
  | .seti _ _ | .wrm _ _ | .wrl _ _ | .wre _ _ | .addi _ _ | .subi _ _ | .muli _ _ | .divi _ _
  | .cmpi _ _ | .f2d _ _ => .ri
  | .set _ _ | .add _ _ | .sub _ _ | .mul _ _ | .div _ _ | .cmp _ _ => .rr

open CommandFormat

/-- A command is legal exactly when its word fits its format. -/
theorem fits_encode_iff (i : Instr) : i.format.Fits (encode i) ↔ WellFormed i := by
  cases i with
  | maxe | mine => exact fits_n0_iff.trans (by simp [Instr.rdPart, Instr.rsPart, Instr.immPart, WellFormed, Instr.regs])
  | setz | ldpinf | ldninf | rdm | rdl | rde | neg | sqrt | norm | isz | isn | isp | d2f =>
    exact fits_r1_iff.trans (by simp [Instr.rdPart, Instr.rsPart, Instr.immPart, WellFormed, Instr.regs])
  | seti | wrm | wrl | wre | addi | subi | muli | divi | cmpi | f2d =>
    exact fits_ri_iff.trans (by simp [Instr.rdPart, Instr.rsPart, WellFormed, Instr.regs])
  | set | add | sub | mul | div | cmp =>
    exact fits_rr_iff.trans (by simp [Instr.rdPart, Instr.rsPart, Instr.immPart, WellFormed, Instr.regs])

/-! ## What each format's decoder answers -/

section
variable {w : Command} {i : Instr}

theorem decodeRR_eq_ok {mk : RegNum → RegNum → Instr} :
    decodeRR w mk = .ok i ↔ rr.Fits w ∧ mk (rdField w) (rsField w) = i := by
  rw [decodeRR, fits_rr_iff]
  split_ifs <;> simp_all

theorem decodeRI_eq_ok {mk : RegNum → Half → Instr} :
    decodeRI w mk = .ok i ↔ ri.Fits w ∧ mk (rdField w) (immField w) = i := by
  rw [decodeRI, fits_ri_iff]
  split_ifs <;> simp_all

theorem decodeR1_eq_ok {mk : RegNum → Instr} : decodeR1 w mk = .ok i ↔ r1.Fits w ∧ mk (rdField w) = i := by
  rw [decodeR1, fits_r1_iff]
  split_ifs <;> simp_all

theorem decodeN0_eq_ok {j : Instr} : decodeN0 w j = .ok i ↔ n0.Fits w ∧ j = i := by
  rw [decodeN0, fits_n0_iff]
  split_ifs <;> simp_all

end

/-- The word of a legal command decodes to that command: its operation code picks the row, and its word fits the
format of the row. -/
theorem decode_encode {i : Instr} (h : WellFormed i) : decode (encode i) = .ok i := by
  have hfit := (fits_encode_iff i).mpr h
  unfold decode
  rw [opField_encode]
  cases i with
  | maxe | mine => exact decodeN0_eq_ok.mpr ⟨hfit, rfl⟩
  | setz | ldpinf | ldninf | rdm | rdl | rde | neg | sqrt | norm | isz | isn | isp | d2f =>
    exact decodeR1_eq_ok.mpr ⟨hfit, by rw [rdField_encode]; rfl⟩
  | seti | wrm | wrl | wre | addi | subi | muli | divi | cmpi | f2d =>
    exact decodeRI_eq_ok.mpr ⟨hfit, by rw [rdField_encode, immField_encode]; rfl⟩
  | set | add | sub | mul | div | cmp =>
    exact decodeRR_eq_ok.mpr ⟨hfit, by rw [rdField_encode, rsField_encode]; rfl⟩

/-- A word that decodes is the word of its command: the fields that the format reads are the operands, and the others
are zero. -/
theorem encode_of_decode {w : Command} {i : Instr} (h : decode w = .ok i) : encode i = w := by
  unfold decode at h
  rw [encode_eq_iff]
  split at h
  case h_6 hop | h_7 hop =>
    obtain ⟨hfit, rfl⟩ := decodeN0_eq_ok.mp h
    obtain ⟨hrd, hrs, himm⟩ := fits_n0_iff.mp hfit
    exact ⟨BitVec.eq_of_toNat_eq hop.symm, hrd.symm, hrs.symm, himm.symm⟩
  case h_1 hop | h_4 hop | h_5 hop | h_11 hop | h_12 hop | h_13 hop | h_14 hop | h_23 hop | h_24 hop | h_27 hop
      | h_28 hop | h_29 hop | h_30 hop =>
    obtain ⟨hfit, rfl⟩ := decodeR1_eq_ok.mp h
    obtain ⟨-, hrs, himm⟩ := fits_r1_iff.mp hfit
    exact ⟨BitVec.eq_of_toNat_eq hop.symm, rfl, hrs.symm, himm.symm⟩
  case h_3 hop | h_8 hop | h_9 hop | h_10 hop | h_16 hop | h_18 hop | h_20 hop | h_22 hop | h_26 hop | h_31 hop =>
    obtain ⟨hfit, rfl⟩ := decodeRI_eq_ok.mp h
    obtain ⟨-, hrs⟩ := fits_ri_iff.mp hfit
    exact ⟨BitVec.eq_of_toNat_eq hop.symm, rfl, hrs.symm, rfl⟩
  case h_2 hop | h_15 hop | h_17 hop | h_19 hop | h_21 hop | h_25 hop =>
    obtain ⟨hfit, rfl⟩ := decodeRR_eq_ok.mp h
    obtain ⟨-, -, himm⟩ := fits_rr_iff.mp hfit
    exact ⟨BitVec.eq_of_toNat_eq hop.symm, rfl, rfl, himm.symm⟩
  case h_32 => cases h

/-- A word with the operation code of a command is a command of that row exactly when it fits the row's format. -/
theorem decode_ok_iff_fits {w : Command} {i : Instr} (hop : opField w = i.opcode) :
    (∃ j, decode w = .ok j) ↔ i.format.Fits w := by
  unfold decode
  rw [hop]
  cases i with
  | maxe | mine => exact (exists_congr fun _ => decodeN0_eq_ok).trans (by simp [Instr.format])
  | setz | ldpinf | ldninf | rdm | rdl | rde | neg | sqrt | norm | isz | isn | isp | d2f =>
    exact (exists_congr fun _ => decodeR1_eq_ok).trans (by simp [Instr.format])
  | seti | wrm | wrl | wre | addi | subi | muli | divi | cmpi | f2d =>
    exact (exists_congr fun _ => decodeRI_eq_ok).trans (by simp [Instr.format])
  | set | add | sub | mul | div | cmp =>
    exact (exists_congr fun _ => decodeRR_eq_ok).trans (by simp [Instr.format])

/-- The command that a word decodes to is legal: its word fits its format. -/
theorem wellFormed_of_decode {w : Command} {i : Instr} (h : decode w = .ok i) : WellFormed i := by
  have hw := encode_of_decode h
  subst hw
  exact (fits_encode_iff i).mp ((decode_ok_iff_fits (opField_encode i)).mp ⟨i, h⟩)

/-! ## The opcode table (R53) -/

/-- The row of a command: the mask of its format, and its operation code over zero fields. -/
def Instr.row (i : Instr) : Command × Command := (i.format.mask, commandWord i.opcode 0 0 0)

/-- The words that a command's row matches. -/
theorem matches_row_iff (i : Instr) (w : Command) :
    w &&& i.row.1 = i.row.2 ↔ opField w = i.opcode ∧ i.format.Fits w := and_mask_eq_iff i.format w i.opcode

/-- The row of a command does not depend on its operands, and it stands in the table. -/
theorem row_mem_opcodeRows (i : Instr) : i.row ∈ opcodeRows := by
  cases i <;> simp only [Instr.row, Instr.format, Instr.opcode] <;> decide

/-- Every row of the table is the row of a command. -/
theorem exists_eq_row_of_mem : ∀ row ∈ opcodeRows, ∃ i : Instr, row = i.row := by
  simp only [opcodeRows, List.forall_mem_cons]
  exact ⟨⟨.setz 0, rfl⟩, ⟨.set 0 0, rfl⟩, ⟨.seti 0 0, rfl⟩, ⟨.ldpinf 0, rfl⟩, ⟨.ldninf 0, rfl⟩, ⟨.maxe, rfl⟩,
    ⟨.mine, rfl⟩, ⟨.wrm 0 0, rfl⟩, ⟨.wrl 0 0, rfl⟩, ⟨.wre 0 0, rfl⟩, ⟨.rdm 0, rfl⟩, ⟨.rdl 0, rfl⟩, ⟨.rde 0, rfl⟩,
    ⟨.neg 0, rfl⟩, ⟨.add 0 0, rfl⟩, ⟨.addi 0 0, rfl⟩, ⟨.sub 0 0, rfl⟩, ⟨.subi 0 0, rfl⟩, ⟨.mul 0 0, rfl⟩,
    ⟨.muli 0 0, rfl⟩, ⟨.div 0 0, rfl⟩, ⟨.divi 0 0, rfl⟩, ⟨.sqrt 0, rfl⟩, ⟨.norm 0, rfl⟩, ⟨.cmp 0 0, rfl⟩,
    ⟨.cmpi 0 0, rfl⟩, ⟨.isz 0, rfl⟩, ⟨.isn 0, rfl⟩, ⟨.isp 0, rfl⟩, ⟨.d2f 0, rfl⟩, ⟨.f2d 0 0, rfl⟩, nofun⟩

/-- A word decodes exactly when a row of the table matches it. -/
theorem decode_ok_iff_matches (w : Command) : (∃ i, decode w = .ok i) ↔ ∃ row ∈ opcodeRows, w &&& row.1 = row.2 := by
  constructor
  · rintro ⟨i, h⟩
    have hop : opField w = i.opcode := by rw [← encode_of_decode h, opField_encode]
    exact ⟨i.row, row_mem_opcodeRows i, (matches_row_iff i w).mpr ⟨hop, (decode_ok_iff_fits hop).mp ⟨i, h⟩⟩⟩
  · rintro ⟨row, hmem, hmatch⟩
    obtain ⟨i, rfl⟩ := exists_eq_row_of_mem row hmem
    obtain ⟨hop, hfit⟩ := (matches_row_iff i w).mp hmatch
    exact (decode_ok_iff_fits hop).mpr hfit

end Sys2Proof

namespace Sys2Proof.Machine

open Sys2Proof.Safety

/-! ## A word at a running unit (R54, R58) -/

theorem runWord_ok {w : Command} {i : Instr} (s : State) (h : decode w = .ok i) : runWord w s = exec i s := by
  rw [runWord, h]

theorem runWord_error {w : Command} {why : Reserved} (s : State) (h : decode w = .error why) :
    runWord w s = rejectWord why s := by
  rw [runWord, h]

theorem rejectWord_running {s : State} (why : Reserved) (hrun : Running s) :
    rejectWord why s = .refused (.reservedWord why) := issue_running hrun nofun

/-- A running unit refuses a command that carries an illegal register number (R51, R54). -/
theorem issue_illegal {regs : List RegNum} {s : State} {k : Out} (hrun : Running s) (hr : ¬ ∀ r ∈ regs, LegalReg r) :
    issue regs s k = .refused .noSuchRegister := by
  rw [issue, if_neg (not_not.mpr hrun), if_neg hr]

/-! ## Reads of valid fields (R59) -/

section
variable {s : State} {r rd rs : RegNum}

theorem readCanonical_valid (h : WholeValid s r) (hc : canonical (s.reg r).toFlt = true) :
    readCanonical s r = .ok (s.reg r).toFlt := by
  simp [readCanonical, readFloat_valid h, hc]

theorem readCanonical_nonCanonical (h : WholeValid s r) (hc : ¬ canonical (s.reg r).toFlt = true) :
    readCanonical s r = .error .nonCanonical := by
  simp [readCanonical, readFloat_valid h, hc]

theorem readCanonicalPair_valid (h : WholeValid s rd ∧ WholeValid s rs)
    (hc : canonical (s.reg rd).toFlt = true ∧ canonical (s.reg rs).toFlt = true) :
    readCanonicalPair s rd rs = .ok ((s.reg rd).toFlt, (s.reg rs).toFlt) := by
  simp [readCanonicalPair, readFloat_valid h.1, readFloat_valid h.2, hc.1, hc.2]

theorem readCanonicalPair_nonCanonical (h : WholeValid s rd ∧ WholeValid s rs)
    (hc : ¬ (canonical (s.reg rd).toFlt = true ∧ canonical (s.reg rs).toFlt = true)) :
    readCanonicalPair s rd rs = .error .nonCanonical := by
  simp [readCanonicalPair, readFloat_valid h.1, readFloat_valid h.2, if_neg hc]

/-- A legal command at a running unit whose read succeeds goes on with what it read. -/
theorem issue_withRead_ok {α : Type} {regs : List RegNum} {x : Except Refusal α} {k : α → Out} {a : α}
    (hrun : Running s) (hwf : ∀ q ∈ regs, LegalReg q) (hx : x = .ok a) : issue regs s (withRead x k) = k a := by
  rw [issue_running hrun hwf, hx, withRead_ok]

end

/-- A command that can raise an exception answers a next state either way (R178). -/
theorem exists_finish_next (x : Except Exc Flt) (rd : RegNum) (s : State) : ∃ t, finish x rd s = .next t := by
  cases x with
  | ok v => exact ⟨_, finish_ok v rd s⟩
  | error e => exact ⟨_, finish_error e rd s⟩

/-- NORM with an exponent of R112's range writes the normalized Float. -/
theorem execNorm_inRange {s : State} {rd : RegNum} (hrun : Running s) (hwf : ∀ q ∈ [rd], LegalReg q)
    (hv : WholeValid s rd) (hlo : -32737 ≤ (s.reg rd).exp.toInt) (hhi : (s.reg rd).exp.toInt ≤ 32766) :
    execNorm rd s = .next (s.putFloat rd (fpNormalize (s.reg rd).toFlt)) :=
  (issue_withRead_ok hrun hwf (readFloat_valid hv)).trans
    (if_neg (not_or.mpr ⟨Int.not_lt.mpr hlo, Int.not_lt.mpr hhi⟩))

/-- D2F over a written text of at most 64 characters writes the Float that the text stands for (R167). -/
theorem execD2f_holdsText {s : State} {rd : RegNum} {cs : List Byte} (hrun : Running s)
    (hwf : ∀ q ∈ [rd], LegalReg q) (htext : HoldsText s cs) :
    execD2f rd s = .next (s.putFloat rd (setString decRom cs)) := by
  rw [execD2f, issue_running hrun hwf, if_neg (Nat.not_lt.mpr htext.fits),
    (readText_eq_holdsText htext.fits).mpr htext]

end Sys2Proof.Machine

namespace Sys2Proof.Proofs

open Sys2Proof.Machine Sys2Proof.Safety

/-- Settles O1: the operation code picks the row, and the word of a legal command fits the format of its row. -/
theorem decodeOfEncode : Obligations.DecodeOfEncode := fun _ hwf => decode_encode hwf

/-- Settles O2: the fields that a format does not read are zero in a word that decodes. -/
theorem encodeOfDecode : Obligations.EncodeOfDecode := fun _ _ h => ⟨wellFormed_of_decode h, encode_of_decode h⟩

/-- Settles O3: the rows of the table are the rows of the commands, and a row matches the words with its operation code
that fit its format. -/
theorem decodesExactlyTheTable : Obligations.DecodesExactlyTheTable := decode_ok_iff_matches

/-- Settles O5: by O3 such a word does not decode. -/
theorem reservedWordsRefused : Obligations.ReservedWordsRefused := by
  intro s w rest hrun hhost hrows
  have hstep : step s = runWord w { s with host := rest } := step_cons hhost
  cases h : decode w with
  | ok i =>
    obtain ⟨row, hmem, hmatch⟩ := (decode_ok_iff_matches w).mp ⟨i, h⟩
    exact absurd hmatch (hrows row hmem)
  | error why => exact ⟨why, hstep.trans ((runWord_error _ h).trans (rejectWord_running why hrun))⟩

/-- Settles O20: by the way in which each command reads its operands. -/
theorem nonCanonicalOperandsRefused : Obligations.NonCanonicalOperandsRefused := by
  intro i s hrun hwf hv hc
  cases i with
  | sqrt | addi | subi | muli | divi | cmpi | f2d =>
    exact issue_withRead_error hrun hwf (readCanonical_nonCanonical hv hc)
  | add | sub | mul | div | cmp => exact issue_withRead_error hrun hwf (readCanonicalPair_nonCanonical hv hc)
  | _ => exact absurd trivial hc

/-- Settles O21: every read succeeds, and what follows it answers a next state, an exception of the unit included. -/
theorem readyCommandsComplete : Obligations.ReadyCommandsComplete := by
  intro i s hrun hwf hv hc hnorm hd2f
  cases i with
  | setz | seti | ldpinf | ldninf | maxe | mine | wrm | wrl | wre => exact ⟨_, issue_running hrun hwf⟩
  | set | neg => exact ⟨_, issue_withRead_ok hrun hwf (readFloat_valid hv)⟩
  | rdm | isn => exact ⟨_, issue_withRead_ok hrun hwf (readMsw_eq_ok.mpr ⟨hv, rfl⟩)⟩
  | rdl => exact ⟨_, issue_withRead_ok hrun hwf (readLsw_eq_ok.mpr ⟨hv, rfl⟩)⟩
  | rde => exact ⟨_, issue_withRead_ok hrun hwf (readExp_eq_ok.mpr ⟨hv, rfl⟩)⟩
  | isz | isp => exact ⟨_, issue_withRead_ok hrun hwf (readMant_eq_ok.mpr ⟨hv, rfl⟩)⟩
  | addi | subi | muli | cmpi | f2d => exact ⟨_, issue_withRead_ok hrun hwf (readCanonical_valid hv hc)⟩
  | add | sub | mul | cmp => exact ⟨_, issue_withRead_ok hrun hwf (readCanonicalPair_valid hv hc)⟩
  | divi | sqrt =>
    obtain ⟨t, ht⟩ := exists_finish_next _ _ s
    exact ⟨t, (issue_withRead_ok hrun hwf (readCanonical_valid hv hc)).trans ht⟩
  | div =>
    obtain ⟨t, ht⟩ := exists_finish_next _ _ s
    exact ⟨t, (issue_withRead_ok hrun hwf (readCanonicalPair_valid hv hc)).trans ht⟩
  | norm rd =>
    obtain ⟨hlo, hhi⟩ := hnorm rd rfl
    exact ⟨_, execNorm_inRange hrun hwf hv hlo hhi⟩
  | d2f rd =>
    obtain ⟨cs, htext⟩ := hd2f rd rfl
    exact ⟨_, execD2f_holdsText hrun hwf htext⟩

/-- Settles O4: by running the decoder on the six words. -/
theorem sampleWordsDecode : Obligations.SampleWordsDecode := ⟨rfl, rfl, rfl, rfl, rfl, rfl⟩

/-- Settles O6: every command asks `issue` first. -/
theorem illegalRegisterNumbersRefused : Obligations.IllegalRegisterNumbersRefused := by
  intro i s hrun hwf
  obtain ⟨k, hk⟩ := exec_eq_issue i s
  rw [hk, issue_illegal hrun hwf]

/-- Settles O7: the host's next action is taken off the list, and its word decodes. -/
theorem stepRunsPresentedCommand : Obligations.StepRunsPresentedCommand := by
  intro s w rest i hhost h
  have hstep : step s = runWord w { s with host := rest } := step_cons hhost
  rw [hstep, runWord_ok _ h]

end Sys2Proof.Proofs

namespace Sys2Proof.Machine

open Sys2Proof.Safety

/-! ## `normalize` keeps the value away from the ends of the exponent range (R114) -/

theorem abs_value (f : Flt) : |f.value| = (f.mant.toInt.natAbs : ℚ) * 2 ^ (f.exp - 30) := by
  have hpos : (0 : ℚ) < 2 ^ (f.exp - 30) := zpow_pos (by norm_num) _
  rw [Flt.value, abs_mul, abs_of_pos hpos, Nat.cast_natAbs, Int.cast_abs]

theorem abs_value_le (f : Flt) : |f.value| ≤ 2 ^ (f.exp + 1) := by
  have hm : f.mant.toInt.natAbs ≤ 2 ^ 31 := by have := mant_toInt_bounds f.mant; omega
  calc |f.value| = (f.mant.toInt.natAbs : ℚ) * 2 ^ (f.exp - 30) := abs_value f
    _ ≤ 2 ^ 31 * 2 ^ (f.exp - 30) := by gcongr; exact_mod_cast hm
    _ = 2 ^ (f.exp + 1) := by rw [← zpow_natCast, ← zpow_add₀ (by norm_num)]; congr 1; push_cast; ring

theorem NormMant.le_abs_value {f : Flt} (h : NormMant f.mant) : 2 ^ f.exp ≤ |f.value| := by
  calc (2 : ℚ) ^ f.exp = 2 ^ 30 * 2 ^ (f.exp - 30) := by
        rw [← zpow_natCast, ← zpow_add₀ (by norm_num)]; congr 1; push_cast; ring
    _ ≤ (f.mant.toInt.natAbs : ℚ) * 2 ^ (f.exp - 30) := by gcongr; exact_mod_cast h.1
    _ = |f.value| := (abs_value f).symm

/-- A normalized Float has an exponent at most one above that of any Float of the same value. -/
theorem NormMant.exp_le {f g : Flt} (hg : NormMant g.mant) (h : g.value = f.value) : g.exp ≤ f.exp + 1 := by
  have hle : (2 : ℚ) ^ g.exp ≤ 2 ^ (f.exp + 1) :=
    calc (2 : ℚ) ^ g.exp ≤ |g.value| := hg.le_abs_value
      _ = |f.value| := by rw [h]
      _ ≤ 2 ^ (f.exp + 1) := abs_value_le f
  exact (zpow_le_zpow_iff_right₀ (by norm_num)).mp hle

/-- At an exponent that no shift takes out of the range, `normalize` neither collapses nor clamps. -/
theorem value_fpNormalize {f : Flt} (h₁ : -480 ≤ f.exp) (h₂ : f.exp ≤ 510) : (fpNormalize f).value = f.value := by
  rcases fpNormalize_cases f with ⟨hzero, hmant | hexp⟩ | ⟨g, hn, hv, he, hg⟩
  · simp [hzero, Flt.value, fltZero, hmant]
  · omega
  · have hle := hn.exp_le hv
    rw [hg, normClamp_of_range (by omega) (by omega)]
    exact hv

/-! ## `set_int` (R73, R92) -/

/-- `mant_setInt` is sign extension (R92). -/
theorem mantSetInt_eq_signExtend (i : Half) : mantSetInt i = i.signExtend 32 := by
  have hmsb : i.getLsbD 15 = i.msb := rfl
  rw [mantSetInt, mantOf, hmsb, BitVec.signExtend_eq_append_of_le (by norm_num)]
  cases i.msb <;> rfl

theorem setInt_eq (i : Half) : setInt i = fpNormalize ⟨i.signExtend 32, 30⟩ := by
  rw [setInt, mantSetInt_eq_signExtend]

/-- `set_int` keeps every 16-bit integer exactly (R73). -/
theorem value_setInt (i : Half) : (setInt i).value = (i.toInt : ℚ) := by
  have hext : (i.signExtend 32).toInt = i.toInt := BitVec.toInt_signExtend_of_le (by norm_num)
  rw [setInt_eq, value_fpNormalize (by norm_num) (by norm_num)]
  simp [Flt.value, hext]

/-! ## What a running unit does when a command only writes, or reads and then writes -/

section
variable {s : State} {regs : List RegNum} {rd : RegNum}

/-- A command that only writes a Float. -/
theorem exists_next_onlyFloat (v : Flt) (hrun : Running s) (hrd : LegalReg rd) :
    ∃ t, issue [rd] s (.next (s.putFloat rd v)) = .next t ∧ OnlyFloat s t rd v :=
  ⟨_, issue_running hrun (List.forall_mem_singleton.mpr hrd), onlyFloat_putFloat s rd v hrd⟩

/-- A command that only puts a register's contents in place, as the raw writes do (R78 to R80). -/
theorem exists_next_setReg (f : FloatReg) (hrun : Running s) (hrd : LegalReg rd) :
    ∃ t, issue [rd] s (.next (s.setReg rd f)) = .next t ∧
      t.reg rd = f ∧ (∀ q, q ≠ rd → t.reg q = s.reg q) ∧ SameOutsideFloats s t :=
  ⟨_, issue_running hrun (List.forall_mem_singleton.mpr hrd), State.reg_setReg_same s rd f hrd,
    fun q hq => State.reg_setReg_other s rd q f hq, ⟨rfl, rfl, rfl, fun _ => rfl, rfl⟩⟩

/-- A command that only writes `IRES`. -/
theorem exists_next_onlyIres (v : Half) (hrun : Running s) (hwf : ∀ q ∈ regs, LegalReg q) :
    ∃ t, issue regs s (.next (s.putIres v)) = .next t ∧ OnlyIres s t v :=
  ⟨_, issue_running hrun hwf, onlyIres_putIres s v⟩

/-- A command that returns in `IRES` what it has read, as the raw reads do (R81 to R83). -/
theorem exists_next_onlyIres_of_read {x : Except Refusal Half} {v : Half} (hrun : Running s)
    (hwf : ∀ q ∈ regs, LegalReg q) (hx : x = .ok v) :
    ∃ t, issue regs s (withRead x fun a => .next (s.putIres a)) = .next t ∧ OnlyIres s t v :=
  ⟨_, issue_withRead_ok hrun hwf hx, onlyIres_putIres s v⟩

end

end Sys2Proof.Machine

namespace Sys2Proof.Proofs

open Sys2Proof.Machine Sys2Proof.Safety

/-- Settles O25: the three constants are the sentinels of R13, written as whole Floats. -/
theorem constantLoadResults : Obligations.ConstantLoadResults := by
  intro rd s hrd hrun
  exact ⟨⟨rfl, exists_next_onlyFloat fltZero hrun hrd⟩, ⟨rfl, exists_next_onlyFloat fltInf hrun hrd⟩,
    rfl, exists_next_onlyFloat fltNegInf hrun hrd⟩

/-- Settles O26: the Float that the three fields of F[rs] are splits into the same three fields again. -/
theorem setCopiesAnyBitPattern : Obligations.SetCopiesAnyBitPattern := by
  intro rd rs s v hrd hrs hrun hv
  have hwf : ∀ q ∈ [rd, rs], LegalReg q :=
    List.forall_mem_cons.mpr ⟨hrd, List.forall_mem_singleton.mpr hrs⟩
  have hexec : exec (.set rd rs) s = .next (s.putFloat rd v) :=
    issue_withRead_ok hrun hwf (readFloat_eq_ok.mpr hv)
  have hreg : (s.putFloat rd v).reg rd = ⟨(s.reg rs).msw, (s.reg rs).lsw, (s.reg rs).exp, true, true, true⟩ := by
    rw [State.reg_putFloat_same s rd v hrd, ← hv.val, FloatReg.ofFlt_toFlt]
  exact ⟨rfl, _, hexec, onlyFloat_putFloat s rd v hrd, by rw [hreg], by rw [hreg], by rw [hreg]⟩

/-- Settles O27: SETI writes `set_int` of its immediate, and at exponent 30 `normalize` keeps every value. -/
theorem setiLoadsTheIntegerExactly : Obligations.SetiLoadsTheIntegerExactly := by
  intro rd imm s hrd hrun
  rw [← setInt_eq]
  exact ⟨rfl, (exists_next_onlyFloat (setInt imm) hrun hrd).imp fun _ ⟨hexec, honly⟩ =>
    ⟨hexec, honly, canonical_setInt imm, value_setInt imm⟩⟩

/-- Settles O28: both limits are constants of the format. -/
theorem exponentLimitResults : Obligations.ExponentLimitResults := by
  intro s hrun
  exact ⟨⟨rfl, exists_next_onlyIres 0x01FF#16 hrun nofun⟩, rfl, exists_next_onlyIres 0xFE00#16 hrun nofun⟩

/-- Settles O29: a raw write puts back the register with that one field changed. -/
theorem rawFieldWriteResults : Obligations.RawFieldWriteResults := by
  intro rd imm s hrd hrun
  exact ⟨⟨rfl, exists_next_setReg _ hrun hrd⟩, ⟨rfl, exists_next_setReg _ hrun hrd⟩,
    rfl, exists_next_setReg _ hrun hrd⟩

/-- Settles O30: each read looks at the valid bit of its own field only. -/
theorem rawFieldReadResults : Obligations.RawFieldReadResults := by
  intro rd s hrd hrun
  have hwf : ∀ q ∈ [rd], LegalReg q := List.forall_mem_singleton.mpr hrd
  exact ⟨⟨rfl, fun hv => exists_next_onlyIres_of_read hrun hwf (readMsw_eq_ok.mpr ⟨hv, rfl⟩)⟩,
    ⟨rfl, fun hv => exists_next_onlyIres_of_read hrun hwf (readLsw_eq_ok.mpr ⟨hv, rfl⟩)⟩,
    rfl, fun hv => exists_next_onlyIres_of_read hrun hwf (readExp_eq_ok.mpr ⟨hv, rfl⟩)⟩

end Sys2Proof.Proofs

namespace Sys2Proof.Machine

/-! ## Carry and borrow on half-words (R105) -/

theorem half_getLsbD_top_iff (a : Half) : a.getLsbD 15 = true ↔ 2 ^ 15 ≤ a.toNat := by
  have := a.isLt
  simp only [BitVec.getLsbD, Nat.testBit_eq_decide_div_mod_eq, decide_eq_true_eq]
  omega

theorem half_toNat_and_low (a : Half) : (a &&& 0x7FFF#16).toNat = a.toNat % 2 ^ 15 := by
  rw [BitVec.toNat_and]
  exact Nat.and_two_pow_sub_one_eq_mod a.toNat 15

/-- Where the top bits differ, the sum of the low 15 bits carries into bit 15 exactly where the whole sum carries out
of it (R105). -/
theorem addCarry_iff (a b : Half) : addCarry a b = true ↔ 2 ^ 16 ≤ a.toNat + b.toNat := by
  have ha := half_getLsbD_top_iff a
  have hb := half_getLsbD_top_iff b
  have hal := a.isLt
  have hbl := b.isLt
  unfold addCarry
  split
  next h =>
    obtain ⟨hat, hbt⟩ := Bool.and_eq_true_iff.mp h
    have := ha.mp hat
    have := hb.mp hbt
    simp only [true_iff]
    omega
  next hboth =>
    split
    next h =>
      simp only [Bool.and_eq_true, Bool.not_eq_true', ← Bool.not_eq_true, ha, hb] at h
      simp only [Bool.false_eq_true, false_iff]
      omega
    next hnone =>
      simp only [Bool.and_eq_true, Bool.not_eq_true', ← Bool.not_eq_true, ha, hb] at hboth hnone
      rw [half_getLsbD_top_iff, BitVec.toNat_add, half_toNat_and_low, half_toNat_and_low]
      omega

/-- Half-words with equal top bits compare alike as signed and as unsigned numbers (R105). -/
theorem subBorrow_iff (a b : Half) : subBorrow a b = true ↔ a.toNat < b.toNat := by
  have ha := half_getLsbD_top_iff a
  have hb := half_getLsbD_top_iff b
  unfold subBorrow
  split
  next heq =>
    have htop : 2 ^ 15 ≤ a.toNat ↔ 2 ^ 15 ≤ b.toNat := by rw [← ha, ← hb, heq]
    rw [decide_eq_true_eq, gt_iff_lt, BitVec.toInt_eq_toNat_cond, BitVec.toInt_eq_toNat_cond]
    split <;> split <;> omega
  next hne =>
    have htop : ¬ (2 ^ 15 ≤ a.toNat ↔ 2 ^ 15 ≤ b.toNat) := by rwa [← ha, ← hb, ← Bool.eq_iff_iff]
    rw [hb]
    omega

/-! ## The arithmetic shift (R99, R111) -/

/-- The bits of a signed shift: what stands `n` places higher, and the sign above that. -/
theorem mant_getLsbD_sshiftRight (m : Mant) (n : Nat) {i : Nat} (hi : i < 32) :
    (m.sshiftRight n).getLsbD i = if n + i < 32 then m.getLsbD (n + i) else signBit m := by
  rw [BitVec.getLsbD_sshiftRight, decide_eq_false (by omega : ¬ 32 ≤ i), Bool.not_false, Bool.true_and]
  rfl

/-- Where every bit is shifted out, the sign fills the mantissa. -/
theorem sshiftRight_eq_fill (m : Mant) {n : Nat} (hn : 32 ≤ n) :
    m.sshiftRight n = if signBit m then 0xFFFFFFFF#32 else 0x00000000#32 := by
  apply BitVec.eq_of_getLsbD_eq
  intro i hi
  rw [mant_getLsbD_sshiftRight m n hi, if_neg (by omega)]
  cases signBit m
  · simp
  · rw [if_pos rfl, show 0xFFFFFFFF#32 = BitVec.allOnes 32 from rfl, BitVec.getLsbD_allOnes]
    simp [hi]

/-- The counts 0 and above 31, which `mant_SRA` takes apart, are no exceptions to its mantissa (R99). -/
theorem mantSra_fst (m : Mant) (n : Nat) : (mantSra m n).1 = m.sshiftRight n := by
  unfold mantSra
  split
  next h0 => rw [h0, BitVec.sshiftRight_zero]
  next =>
    split
    next hlarge => rw [sshiftRight_eq_fill m (by omega)]
    next => rfl

/-- The bit that `mant_SRA` returns is the lowest one of the shift by one bit less (R99). -/
theorem mantSra_snd (m : Mant) {n : Nat} (hn : 1 ≤ n) : (mantSra m n).2 = (m.sshiftRight (n - 1)).getLsbD 0 := by
  rw [mant_getLsbD_sshiftRight m _ (by norm_num), add_zero, mantSra, if_neg (by omega)]
  by_cases hlarge : n > 31
  · rw [if_pos hlarge]
    dsimp only
    split
    next h31 => rw [show n - 1 = 31 by omega]; rfl
    next => rfl
  · rw [if_neg hlarge, if_pos (by omega)]

theorem toInt_sshiftRight_eq_div (m : Mant) (n : Nat) : (m.sshiftRight n).toInt = m.toInt / 2 ^ n := by
  rw [BitVec.toInt_sshiftRight, Int.shiftRight_eq_div_pow]
  norm_cast

theorem getLsbD_zero_iff (m : Mant) : m.getLsbD 0 = true ↔ m.toInt % 2 = 1 := by
  simp only [BitVec.getLsbD, Nat.testBit_eq_decide_div_mod_eq, decide_eq_true_eq, BitVec.toInt_eq_toNat_cond]
  split <;> omega

/-- `mant_SRA` divides, rounding down (R99). -/
theorem toInt_mantSra (m : Mant) (n : Nat) : (mantSra m n).1.toInt = m.toInt / 2 ^ n := by
  rw [mantSra_fst, toInt_sshiftRight_eq_div]

/-- The bit that `mant_SRA` returns is the last one shifted out (R99). -/
theorem mantSra_snd_iff (m : Mant) {n : Nat} (hn : 1 ≤ n) :
    (mantSra m n).2 = true ↔ m.toInt / 2 ^ (n - 1) % 2 = 1 := by
  rw [mantSra_snd m hn, getLsbD_zero_iff, toInt_sshiftRight_eq_div]

/-- The shifted mantissa and the bit together round to nearest, a tie upwards: with `q` the mantissa shifted by one bit
less, this is `q / 2 + q % 2 = (q + 1) / 2` (R111). -/
theorem mantSra_add_bit (m : Mant) {n : Nat} (hn : 1 ≤ n) :
    (mantSra m n).1.toInt + (if (mantSra m n).2 = true then 1 else 0) = (2 * m.toInt + 2 ^ n) / 2 ^ (n + 1) := by
  obtain ⟨k, rfl⟩ := Nat.exists_eq_add_of_le' hn
  have hpow : (0 : Int) < 2 ^ k := by positivity
  have hround : (2 * m.toInt + 2 ^ (k + 1)) / 2 ^ (k + 1 + 1) = (m.toInt / 2 ^ k + 1) / 2 := by
    calc (2 * m.toInt + 2 ^ (k + 1)) / 2 ^ (k + 1 + 1)
        = 2 * (m.toInt + 1 * 2 ^ k) / (2 * (2 ^ k * 2)) := by congr 1 <;> ring
      _ = (m.toInt + 1 * 2 ^ k) / 2 ^ k / 2 := by
          rw [Int.mul_ediv_mul_of_pos _ _ two_pos, Int.ediv_ediv_of_nonneg hpow.le]
      _ = (m.toInt / 2 ^ k + 1) / 2 := by rw [Int.add_mul_ediv_right _ _ hpow.ne']
  have hshift : m.toInt / 2 ^ (k + 1) = m.toInt / 2 ^ k / 2 := by
    rw [pow_succ, Int.ediv_ediv_of_nonneg hpow.le]
  simp only [mantSra_snd_iff m hn, toInt_mantSra, Nat.add_sub_cancel, hshift, hround]
  split <;> omega

/-! ## The shift by masks and rotation (R23, R100) -/

theorem getLsbD_shrMask {n i : Nat} (hi : i < 32) : (shrMask n).getLsbD i = decide (i < n) := by
  rw [shrMask, BitVec.getLsbD_ofNat, Nat.testBit_two_pow_sub_one]
  simp [hi]

theorem getLsbD_mantRol (m : Mant) {n i : Nat} (hn : 1 ≤ n) (hi : i < 32) :
    (mantRol m n).getLsbD i = if i < n then m.getLsbD (32 - n + i) else m.getLsbD (i - n) := by
  rw [mantRol, if_neg (by omega), BitVec.getLsbD_or, BitVec.getLsbD_shiftLeft, BitVec.getLsbD_ushiftRight]
  split
  next h => simp [h]
  next h => simp [h, hi, BitVec.getLsbD_of_ge m (32 - n + i) (by omega)]

/-- The cleared bits are the ones that the rotation brings to the top, where the sign then fills them (R100). -/
theorem mantSraByRotate_eq (m : Mant) {n : Nat} (hn : 1 ≤ n) (hn' : n ≤ 30) :
    mantSraByRotate m n = m.sshiftRight n := by
  apply BitVec.eq_of_getLsbD_eq
  intro i hi
  have hrot : (mantRol (m &&& ~~~(mantOf (shrMaskH n) (shrMaskL n))) (32 - n)).getLsbD i =
      (decide (n + i < 32) && m.getLsbD (n + i)) := by
    rw [show mantOf (shrMaskH n) (shrMaskL n) = shrMask n from mantOf_halves _, getLsbD_mantRol _ (by omega) hi]
    split
    next h =>
      rw [show 32 - (32 - n) + i = n + i by omega, BitVec.getLsbD_and, BitVec.getLsbD_not,
        getLsbD_shrMask (by omega)]
      simp [show n + i < 32 by omega]
    next h =>
      rw [BitVec.getLsbD_and, BitVec.getLsbD_not, getLsbD_shrMask (by omega)]
      simp [show i - (32 - n) < n by omega, show ¬ n + i < 32 by omega]
  have hfill : (~~~(0xFFFFFFFF#32 >>> n)).getLsbD i = !decide (n + i < 32) := by
    rw [show 0xFFFFFFFF#32 = BitVec.allOnes 32 from rfl, BitVec.getLsbD_not, BitVec.getLsbD_ushiftRight,
      BitVec.getLsbD_allOnes, decide_eq_true hi, Bool.true_and]
  rw [mant_getLsbD_sshiftRight m n hi, mantSraByRotate]
  cases signBit m with
  | false =>
    rw [if_neg Bool.false_ne_true, hrot]
    by_cases h : n + i < 32 <;> simp [h]
  | true =>
    rw [if_pos rfl, BitVec.getLsbD_or, hrot, hfill]
    by_cases h : n + i < 32 <;> simp [h]

end Sys2Proof.Machine

namespace Sys2Proof.Proofs

open Sys2Proof.Machine

/-- Settles O41: the halves give `-m`, and each half of the result is one of the two that were put together. -/
theorem mantissaNegationBySplitHalves : Obligations.MantissaNegationBySplitHalves := by
  refine ⟨fun m => ⟨?_, ?_, ?_⟩, ?_⟩
  · rw [mantNeg_eq_neg, BitVec.toNat_neg]
  · rw [mantNeg, lswOf_mantOf]; rfl
  · rw [mantNeg, mswOf_mantOf]; rfl
  · rw [mantNeg_eq_neg]; rfl

/-- Settles O42: the loop invariant gives the product, and two factors below 2^31 bound it. -/
theorem longMultiplyIsExact : Obligations.LongMultiplyIsExact := by
  intro x m
  have hprod := pairNat_mantLongUmult x m
  rw [pairNat] at hprod
  refine ⟨hprod, fun hx hm => ?_⟩
  calc (mantLongUmult x m).1.toNat * 2 ^ 32 + (mantLongUmult x m).2.toNat
      = x.toNat * m.toNat := by rw [hprod, Nat.mod_eq_of_lt hx]
    _ < 2 ^ 31 * 2 ^ 31 := Nat.mul_lt_mul'' hx hm
    _ = 2 ^ 62 := by norm_num

/-- Settles O43: every count is one signed shift, and `denormalize` is that shift by the distance of the exponents. -/
theorem arithmeticShiftAndDenormalize : Obligations.ArithmeticShiftAndDenormalize := by
  refine ⟨fun m n => ⟨toInt_mantSra m n, ?_, mantSra_snd_iff m, fun hn hn' => ?_⟩, fun f t => ⟨fun hle => ?_, ?_⟩⟩
  · rintro rfl
    rfl
  · rw [mantSraByRotate_eq m hn hn', mantSra_fst]
  · rw [fpDenormalize, if_neg (by omega)]
  · rintro n hn rfl
    rw [fpDenormalize_eq, show (f.exp + n - f.exp).toNat = n by omega]
    exact ⟨max_eq_right (by omega), toInt_mantSra f.mant n, mantSra_add_bit f.mant hn⟩

/-- Settles O44: by cases on the two top bits, as R105 derives it. -/
theorem halfWordCarryRules : Obligations.HalfWordCarryRules :=
  fun a b => ⟨addCarry_iff a b, subBorrow_iff a b⟩

end Sys2Proof.Proofs

namespace Sys2Proof.Machine

open Sys2Proof.Safety

/-! ## NORM outside its range (R112) -/

/-- NORM with an exponent outside R112's range is refused. -/
theorem execNorm_outOfRange {s : State} {rd : RegNum} {v : Flt} (hrun : Running s) (hwf : ∀ q ∈ [rd], LegalReg q)
    (hv : Holds s rd v) (he : v.exp < -32737 ∨ 32766 < v.exp) : execNorm rd s = .refused .exponentRange :=
  (issue_withRead_ok hrun hwf (readFloat_eq_ok.mpr hv)).trans (if_pos he)

/-! ## `normalize` on canonical Floats (R114) -/

/-- A canonical Float has nothing to shift, to rewrite or to clamp. -/
theorem fpNormalize_of_canonical {f : Flt} (h : canonical f = true) : fpNormalize f = f := by
  obtain ⟨⟨hlo, hhi⟩, ⟨hmant, hexp⟩ | hn⟩ := (canonical_iff f).mp h
  · obtain ⟨m, e⟩ := f
    subst hmant hexp
    rfl
  · rw [fpNormalize_of_normMant hn, normClamp_of_range hlo hhi]

/-! ## The value beside the power of two at the exponent (R11) -/

section
variable (f : Flt)

theorem two_zpow_exp (e : Int) : (2 : ℚ) ^ e = (2 ^ 30 : ℤ) * 2 ^ (e - 30) := by
  rw [Int.cast_pow, Int.cast_ofNat, ← zpow_natCast, ← zpow_add₀ (by norm_num)]
  congr 1
  push_cast
  ring

theorem value_lt_two_zpow_iff : f.value < 2 ^ f.exp ↔ f.mant.toInt < 2 ^ 30 := by
  have hu : (0 : ℚ) < 2 ^ (f.exp - 30) := zpow_pos (by norm_num) _
  rw [two_zpow_exp, Flt.value, mul_lt_mul_iff_left₀ hu, Int.cast_lt]

theorem value_lt_neg_two_zpow_iff : f.value < -2 ^ f.exp ↔ f.mant.toInt < -2 ^ 30 := by
  have hu : (0 : ℚ) < 2 ^ (f.exp - 30) := zpow_pos (by norm_num) _
  rw [two_zpow_exp, Flt.value, ← neg_mul, mul_lt_mul_iff_left₀ hu, ← Int.cast_neg, Int.cast_lt]

theorem value_eq_neg_two_zpow_iff : f.value = -2 ^ f.exp ↔ f.mant = 0xC0000000#32 := by
  have hu : (2 : ℚ) ^ (f.exp - 30) ≠ 0 := zpow_ne_zero _ (by norm_num)
  rw [two_zpow_exp, Flt.value, ← neg_mul, mul_left_inj' hu, ← Int.cast_neg, Int.cast_inj, ← BitVec.toInt_inj]
  rfl

end

theorem NormMant.abs_value_lt {f : Flt} (h : NormMant f.mant) : |f.value| < 2 ^ (f.exp + 1) := by
  calc |f.value| = (f.mant.toInt.natAbs : ℚ) * 2 ^ (f.exp - 30) := abs_value f
    _ < 2 ^ 31 * 2 ^ (f.exp - 30) := by gcongr; exact_mod_cast h.2
    _ = 2 ^ (f.exp + 1) := by rw [← zpow_natCast, ← zpow_add₀ (by norm_num)]; congr 1; push_cast; ring

/-! ## The clamp by the value (R110 step 5) -/

/-- The value of a normalized Float fixes on which side of a power of two its exponent lies. -/
theorem NormMant.exp_lt_iff {g : Flt} (h : NormMant g.mant) (k : Int) : g.exp < k ↔ |g.value| < 2 ^ k := by
  constructor
  · intro hlt
    calc |g.value| < 2 ^ (g.exp + 1) := h.abs_value_lt
      _ ≤ 2 ^ k := zpow_le_zpow_right₀ (by norm_num) hlt
  · intro hlt
    exact (zpow_lt_zpow_iff_right₀ (by norm_num)).mp (h.le_abs_value.trans_lt hlt)

theorem normClamp_above_of_neg {m : Mant} {e : Int} (hm : m.toInt < 0) (he : 511 < e) :
    normClamp m e = fltNegInf := by
  have hlo : ¬ e < Config.minExp := by simp only [Config.minExp]; omega
  rw [normClamp, if_neg hlo, if_pos he, if_pos ((signBit_iff m).mpr hm)]

section
variable {g : Flt} (hn : NormMant g.mant)
include hn

theorem normClamp_of_small_value (hv : |g.value| < 2 ^ (-512 : Int)) : normClamp g.mant g.exp = fltZero :=
  normClamp_below ((hn.exp_lt_iff _).mpr hv)

theorem normClamp_of_value_in_range (hlo : 2 ^ (-512 : Int) ≤ |g.value|) (hhi : |g.value| < 2 ^ (512 : Int)) :
    normClamp g.mant g.exp = g :=
  normClamp_of_range (not_lt.mp (mt (hn.exp_lt_iff _).mp hlo.not_gt))
    (Int.lt_add_one_iff.mp ((hn.exp_lt_iff 512).mpr hhi))

theorem normClamp_of_large_value (hv : 2 ^ (512 : Int) ≤ g.value) : normClamp g.mant g.exp = fltInf := by
  have hexp : 511 < g.exp := not_lt.mp (mt (hn.exp_lt_iff 512).mp (hv.trans (le_abs_self _)).not_gt)
  have hpos : 0 ≤ g.mant.toInt := (value_nonneg_iff g).mp ((zpow_nonneg (by norm_num) _).trans hv)
  have hlead : 2 ^ 30 ≤ g.mant.toInt := by
    have := hn.1
    omega
  exact normClamp_above hlead hexp

theorem normClamp_of_large_neg_value (hv : g.value ≤ -2 ^ (512 : Int)) : normClamp g.mant g.exp = fltNegInf := by
  have habs : 2 ^ (512 : Int) ≤ |g.value| := (le_neg.mpr hv).trans (neg_le_abs _)
  have hexp : 511 < g.exp := not_lt.mp (mt (hn.exp_lt_iff 512).mp habs.not_gt)
  have hneg : g.value < 0 := hv.trans_lt (neg_lt_zero.mpr (zpow_pos (by norm_num) _))
  exact normClamp_above_of_neg (not_le.mp (mt (value_nonneg_iff g).mpr hneg.not_ge)) hexp

end

/-! ## Where the shift loop collapses (R110 step 3) -/

/-- The loop collapses only from `MIN_EXP` or above, and only a value that has no leading bit left there. -/
theorem normShift_none {n : Nat} {m : Mant} {e : Int} (h : normShift n m e = none) :
    -512 ≤ e ∧ -2 ^ (-512 : Int) ≤ (⟨m, e⟩ : Flt).value ∧ (⟨m, e⟩ : Flt).value < 2 ^ (-512 : Int) := by
  induction n generalizing m e with
  | zero => cases h
  | succ n ih =>
    rw [normShift] at h
    split at h
    next => cases h
    next heq =>
      have htop := mt (signBit_ne_mantBit30_iff m).mpr heq
      split at h
      next hmin =>
        subst hmin
        exact ⟨le_refl _, not_lt.mp (mt (value_lt_neg_two_zpow_iff ⟨m, _⟩).mp (by dsimp only; omega)),
          (value_lt_two_zpow_iff ⟨m, _⟩).mpr (by dsimp only; omega)⟩
      next =>
        obtain ⟨he, hv⟩ := ih h
        exact ⟨by omega, by rwa [mantShl1, (value_shift m e (not_not.mp heq)).2] at hv⟩

/-- The loop does not go below `MIN_EXP` from above it. -/
theorem minExp_le_exp_of_normShift {n : Nat} {m : Mant} {e : Int} {g : Flt} (h : normShift n m e = some g)
    (he : -512 ≤ e) : -512 ≤ g.exp := by
  induction n generalizing m e with
  | zero => cases h; exact he
  | succ n ih =>
    rw [normShift] at h
    split at h
    next => cases h; exact he
    next =>
      split at h
      next => cases h
      next hmin => exact ih h (by simp only [Config.minExp] at hmin; omega)

/-- A value that the loop collapses although it is as large as the smallest canonical Floats: −2^−512, with the
exponent above `MIN_EXP` (the row 0xE0000000@-511 of R110). -/
def CollapsesAtMin (f : Flt) : Prop := f.value = -2 ^ (-512 : Int) ∧ -512 < f.exp

/-- The mantissa of step 1 does not come to the loop. -/
theorem not_collapsesAtMin_of_step1 {f : Flt} (h : f.mant = 0xC0000000#32) : ¬ CollapsesAtMin f := by
  rintro ⟨hv, he⟩
  rw [(value_eq_neg_two_zpow_iff f).mpr h, neg_inj] at hv
  exact he.ne' (zpow_right_injective₀ (by norm_num) (by norm_num) hv)

/-- Where the loop ends by itself it does not stand at −2^−512. -/
theorem not_collapsesAtMin_of_normShift {n : Nat} {f g : Flt} (h : normShift n f.mant f.exp = some g)
    (htop : 2 ^ 30 ≤ g.mant.toInt ∨ g.mant.toInt < -2 ^ 30) (hval : g.value = f.value) : ¬ CollapsesAtMin f := by
  rintro ⟨hv, he⟩
  have hexp : -512 ≤ g.exp := minExp_le_exp_of_normShift h he.le
  have hmin : (0 : ℚ) < 2 ^ (-512 : Int) := zpow_pos (by norm_num) _
  have hle : (2 : ℚ) ^ (-512 : Int) ≤ 2 ^ g.exp := zpow_le_zpow_right₀ (by norm_num) hexp
  rcases htop with hpos | hneg
  · have := (value_nonneg_iff g).mpr (by omega)
    linarith
  · have := (value_lt_neg_two_zpow_iff g).mpr hneg
    linarith

section
variable {f : Flt} (hc : f.mant ≠ 0xC0000000#32) (hz : f.mant ≠ 0#32)
include hc hz

theorem fpNormalize_of_normShift_none (h : normShift 32 f.mant f.exp = none) : fpNormalize f = fltZero := by
  rw [fpNormalize, if_neg hc, if_neg (mt (isZero_iff _).mp hz), h]

theorem fpNormalize_of_normShift_some {g : Flt} (h : normShift 32 f.mant f.exp = some g) :
    fpNormalize f = normFinish g.mant g.exp := by
  rw [fpNormalize, if_neg hc, if_neg (mt (isZero_iff _).mp hz), h]

end

/-- Everything `normalize` can do, by the value: it flushes a value below 2^−512 or the one that collapses at
`MIN_EXP` to ZERO, or it clamps a normalized Float of the same value (R110). -/
theorem fpNormalize_flushes_or_clamps (f : Flt) :
    (fpNormalize f = fltZero ∧ (|f.value| < 2 ^ (-512 : Int) ∨ CollapsesAtMin f)) ∨
    ∃ g : Flt, NormMant g.mant ∧ g.value = f.value ∧ fpNormalize f = normClamp g.mant g.exp ∧ ¬ CollapsesAtMin f := by
  by_cases hc : f.mant = 0xC0000000#32
  · have hn : NormMant f.mant := (normMant_iff _).mpr (.inl hc)
    exact .inr ⟨f, hn, rfl, fpNormalize_of_normMant hn, not_collapsesAtMin_of_step1 hc⟩
  by_cases hz : f.mant = 0#32
  · refine .inl ⟨by simp [fpNormalize, hz, isZero], .inl ?_⟩
    rw [Flt.value, hz, BitVec.toInt_zero, Int.cast_zero, zero_mul, abs_zero]
    exact zpow_pos (by norm_num) _
  have hne : f.mant.toInt ≠ 0 := by rwa [ne_eq, ← BitVec.toInt_zero, BitVec.toInt_inj]
  rcases normShift_cases 32 f.mant f.exp (by omega) with ⟨hnone, -⟩ | ⟨g, hg, htop, hval, -⟩
  · obtain ⟨he, hlo, hhi⟩ := normShift_none hnone
    refine .inl ⟨fpNormalize_of_normShift_none hc hz hnone, ?_⟩
    rcases hlo.eq_or_lt with heq | hlt
    · refine .inr ⟨heq.symm, he.lt_of_ne fun hmin => hc ?_⟩
      exact (value_eq_neg_two_zpow_iff f).mp (by rw [← hmin]; exact heq.symm)
    · exact .inl (abs_lt.mpr ⟨hlt, hhi⟩)
  · obtain ⟨g', hn, hv, -, hfin⟩ := normFinish_eq_normClamp g.mant g.exp htop
    exact .inr ⟨g', hn, hv.trans hval, (fpNormalize_of_normShift_some hc hz hg).trans hfin,
      not_collapsesAtMin_of_normShift hg htop hval⟩

end Sys2Proof.Machine

namespace Sys2Proof.Proofs

open Sys2Proof.Machine Sys2Proof.Safety

/-- Settles O46: the value tells which way `normalize` goes, to ZERO or to the clamp of a normalized Float, and −2^−512
alone can go both ways. -/
theorem normalizeKeepsTheValue : Obligations.NormalizeKeepsTheValue := by
  intro f
  have hmin : (0 : ℚ) < 2 ^ (-512 : Int) := zpow_pos (by norm_num) _
  have hmax : (2 : ℚ) ^ (-512 : Int) < 2 ^ (512 : Int) := zpow_lt_zpow_right₀ (by norm_num) (by norm_num)
  rcases fpNormalize_flushes_or_clamps f with ⟨hzero, hsmall⟩ | ⟨g, hn, hv, hg, hnot⟩
  · have habs : |f.value| ≤ 2 ^ (-512 : Int) := by
      rcases hsmall with hlt | ⟨heq, -⟩
      · exact hlt.le
      · rw [heq, abs_neg, abs_of_pos hmin]
    obtain ⟨hlo, hhi⟩ := abs_le.mp habs
    refine ⟨fun _ => hzero, fun h => by linarith, fun h => by linarith, fun h _ => ?_⟩
    split
    next => exact hzero
    next hnot => exact absurd (hsmall.resolve_left h.not_gt) hnot
  · rw [hg, ← hv]
    refine ⟨normClamp_of_small_value hn, normClamp_of_large_value hn, normClamp_of_large_neg_value hn, fun hlo hhi => ?_⟩
    split
    next hcol =>
      rw [hv] at hcol
      exact absurd hcol hnot
    next => rw [normClamp_of_value_in_range hn hlo hhi]

/-- Settles O31: the read succeeds, and the exponent decides between the write and the refusal. -/
theorem normResult : Obligations.NormResult := by
  intro rd s v hrd hrun hv
  have hwf : ∀ q ∈ [rd], LegalReg q := List.forall_mem_singleton.mpr hrd
  refine ⟨rfl, fun ⟨hlo, hhi⟩ => ⟨s.putFloat rd (fpNormalize v), ?_, onlyFloat_putFloat s rd _ hrd⟩,
    execNorm_outOfRange hrun hwf hv⟩
  obtain ⟨hmsw, hlsw, hexp, rfl⟩ := hv
  exact execNorm_inRange hrun hwf ⟨hmsw, hlsw, hexp⟩ hlo hhi

/-- Settles O45: idempotence is the identity on the canonical result. -/
theorem normalizeIsCanonicalAndIdempotent : Obligations.NormalizeIsCanonicalAndIdempotent :=
  ⟨canonical_fpNormalize, fun _ => fpNormalize_of_canonical, fun f => fpNormalize_of_canonical (canonical_fpNormalize f)⟩

end Sys2Proof.Proofs

namespace Sys2Proof.Machine

/-! ## Integers beside 32 bits -/

/-- The integers that a mantissa can be (R10). -/
abbrev FitsMant (S : Int) : Prop := -2 ^ 31 ≤ S ∧ S < 2 ^ 31

theorem toInt_ofInt_of_fits {S : Int} (h : FitsMant S) : (BitVec.ofInt 32 S).toInt = S :=
  BitVec.toInt_ofInt_eq_self (by norm_num) h.1 h.2

theorem signBit_eq_decide (m : Mant) : signBit m = decide (m.toInt < 0) := by
  rw [Bool.eq_iff_iff, signBit_iff, decide_eq_true_eq]

theorem mant_add_eq_ofInt (m t : Mant) : m + t = BitVec.ofInt 32 (m.toInt + t.toInt) := by
  rw [BitVec.ofInt_add, BitVec.ofInt_toInt, BitVec.ofInt_toInt]

section
variable {S : Int} (hlo : -2 ^ 32 ≤ S) (hhi : S < 2 ^ 32)
include hlo hhi

/-- The sign bit tells the sign of a 33-bit sum exactly where the sum fits 32 bits. -/
theorem signBit_ofInt_iff : signBit (BitVec.ofInt 32 S) = decide (S < 0) ↔ FitsMant S := by
  rw [signBit_eq_decide, BitVec.toInt_ofInt, decide_eq_decide, Int.bmod_def]
  split <;> omega

/-- The logical shift with the true sign filled in is half of the sum (R122). -/
theorem mantShr1_or_sign :
    mantShr1 (BitVec.ofInt 32 S) ||| (if S < 0 then 0x80000000#32 else 0#32) = BitVec.ofInt 32 (S / 2) := by
  have hfill (x : Nat) (hx : x < 2 ^ 31) : x ||| 0x80000000 = 2 ^ 31 + x := by
    rw [Nat.or_comm]
    exact (Nat.two_pow_add_eq_or_of_lt hx 1).symm
  apply BitVec.eq_of_toNat_eq
  simp only [mantShr1, BitVec.toNat_or, BitVec.toNat_ushiftRight, Nat.shiftRight_eq_div_pow, BitVec.toNat_ofInt]
  split
  next => rw [BitVec.toNat_ofNat, hfill _ (by omega)]; omega
  next => rw [BitVec.toNat_ofNat, Nat.zero_mod, Nat.or_zero]; omega

end

/-! ## The sum of two aligned mantissas (R122) -/

/-- The exact sum of two aligned mantissas and the round bit, which counts only where the signs agree (D15). -/
def alignedSum (m t : Mant) (rb : Bool) : Int :=
  m.toInt + t.toInt + if (m.toInt < 0 ↔ t.toInt < 0) ∧ rb = true then 1 else 0

/-- A sum as a Float: where it does not fit 32 bits it is halved at the next exponent, or is an infinity at
`MAX_EXP`. -/
def fltOfSum (S e : Int) : Flt :=
  if FitsMant S then ⟨BitVec.ofInt 32 S, e⟩
  else if e = 511 then (if S < 0 then fltNegInf else fltInf)
  else ⟨BitVec.ofInt 32 (S / 2), e + 1⟩

theorem alignedSum_comm (m t : Mant) (rb : Bool) : alignedSum m t rb = alignedSum t m rb := by
  simp only [alignedSum, add_comm m.toInt, iff_comm (a := m.toInt < 0)]

section
variable {m t : Mant} (rb : Bool)

theorem alignedSum_of_signs_differ (h : ¬ (m.toInt < 0 ↔ t.toInt < 0)) : alignedSum m t rb = m.toInt + t.toInt := by
  rw [alignedSum, if_neg fun hboth => h hboth.1, add_zero]

theorem alignedSum_of_signs_agree (h : m.toInt < 0 ↔ t.toInt < 0) :
    alignedSum m t rb = m.toInt + (t.toInt + if rb = true then 1 else 0) := by
  simp only [alignedSum, h, true_and, add_assoc]

theorem alignedSum_neg_iff (h : m.toInt < 0 ↔ t.toInt < 0) : alignedSum m t rb < 0 ↔ m.toInt < 0 := by
  rw [alignedSum_of_signs_agree rb h]
  split <;> omega

/-- Opposite signs give a sum that fits. -/
theorem signs_agree_of_not_fits (h : ¬ FitsMant (alignedSum m t rb)) : m.toInt < 0 ↔ t.toInt < 0 := by
  have := mant_toInt_bounds m
  have := mant_toInt_bounds t
  by_contra hne
  rw [alignedSum_of_signs_differ rb hne] at h
  omega

/-- With opposite signs R122 adds once and is done. -/
theorem addAligned_of_signs_differ (e : Int) (h : ¬ (m.toInt < 0 ↔ t.toInt < 0)) :
    addAligned m t e rb = ⟨BitVec.ofInt 32 (alignedSum m t rb), e⟩ := by
  have hsign : signBit m ≠ signBit t := by rwa [signBit_eq_decide, signBit_eq_decide, ne_eq, decide_eq_decide]
  rw [addAligned, if_neg hsign, mantAdd_fst, mant_add_eq_ofInt, alignedSum_of_signs_differ rb h]

/-- With equal signs the wrong sign of the 32-bit sum tells that it overflowed (R122). -/
theorem addAligned_of_signs_agree (e : Int) (h : m.toInt < 0 ↔ t.toInt < 0) :
    addAligned m t e rb = fltOfSum (alignedSum m t rb) e := by
  have hsign : signBit m = signBit t := by rwa [signBit_eq_decide, signBit_eq_decide, decide_eq_decide]
  have hneg : signBit m = decide (alignedSum m t rb < 0) := by
    rw [signBit_eq_decide, decide_eq_decide, alignedSum_neg_iff rb h]
  have hsum : mantAddInt (mantAdd m t).1 (bitHalf rb) = BitVec.ofInt 32 (alignedSum m t rb) := by
    rw [mantAdd_fst, mantAddInt_bitHalf, alignedSum_of_signs_agree rb h, ← add_assoc, BitVec.ofInt_add _ (ite _ _ _),
      ← mant_add_eq_ofInt]
    cases rb <;> rfl
  have hbounds : -2 ^ 32 ≤ alignedSum m t rb ∧ alignedSum m t rb < 2 ^ 32 := by
    have := mant_toInt_bounds m
    have := mant_toInt_bounds t
    rw [alignedSum_of_signs_agree rb h]
    split <;> omega
  have hfits := signBit_ofInt_iff hbounds.1 hbounds.2
  have hhalf := mantShr1_or_sign hbounds.1 hbounds.2
  simp only [addAligned, if_pos hsign, hsum]
  simp only [hneg, ne_eq, ite_not, hfits, decide_eq_true_eq, hhalf, fltOfSum]

/-- The steps of R122 after the alignment answer the exact sum as a Float. -/
theorem addAligned_eq_fltOfSum (e : Int) : addAligned m t e rb = fltOfSum (alignedSum m t rb) e := by
  by_cases h : m.toInt < 0 ↔ t.toInt < 0
  · exact addAligned_of_signs_agree rb e h
  · have hfits : FitsMant (alignedSum m t rb) := not_not.mp (mt (signs_agree_of_not_fits rb) h)
    rw [addAligned_of_signs_differ rb e h, fltOfSum, if_pos hfits]

end

/-! ## `fp_add` and `fp_sub` (R122, R124) -/

theorem fpAdd_comm (a b : Flt) : fpAdd a b = fpAdd b a := by
  rw [fpAdd_eq, fpAdd_eq, addAligned_eq_fltOfSum, addAligned_eq_fltOfSum, alignedSum_comm, max_comm, Bool.or_comm]

theorem fpSub_eq (a b : Flt) :
    fpSub a b = ⟨-(fpAdd ⟨-a.mant, a.exp⟩ b).mant, (fpAdd ⟨-a.mant, a.exp⟩ b).exp⟩ := by
  simp only [fpSub, fpNeg, mantNeg_eq_neg]

/-- What `fp_add` adds up for the mantissa `m` and, `n` exponents below it, the mantissa `t` (R111, R122). -/
def shiftedSum (m t : Mant) (n : Nat) : Int := alignedSum m (mantSra t n).1 (mantSra t n).2

/-- `fp_add` for operands in the order of their exponents. -/
theorem fpAdd_of_exp_eq_add {a b : Flt} {n : Nat} (h : a.exp = b.exp + n) :
    fpAdd a b = fpNormalize (fltOfSum (shiftedSum a.mant b.mant n) a.exp) := by
  rw [fpAdd_eq, addAligned_eq_fltOfSum, show (b.exp - a.exp).toNat = 0 by omega,
    show (a.exp - b.exp).toNat = n by omega, max_eq_left (by omega)]
  rfl

/-- The shift does not change the sign. -/
theorem mantSra_neg_iff (m : Mant) (n : Nat) : (mantSra m n).1.toInt < 0 ↔ m.toInt < 0 := by
  rw [toInt_mantSra, ← not_le, ← not_le, Int.ediv_nonneg_iff_of_pos (by positivity)]

/-- Where the signs agree, the shifted mantissa is rounded to nearest, a tie upwards; else it is rounded down (R111,
D15). -/
theorem shiftedSum_eq (m t : Mant) (n : Nat) :
    shiftedSum m t n = if m.toInt < 0 ↔ t.toInt < 0 then m.toInt + (2 * t.toInt + 2 ^ n) / 2 ^ (n + 1)
      else m.toInt + t.toInt / 2 ^ n := by
  have hsign := mantSra_neg_iff t n
  unfold shiftedSum
  split
  next h =>
    rw [alignedSum_of_signs_agree _ (by rwa [hsign])]
    rcases n.eq_zero_or_pos with rfl | hn
    · simp only [mantSra_zero, Bool.false_eq_true, if_false, pow_zero, zero_add, pow_one]
      omega
    · rw [mantSra_add_bit t hn]
  next h => rw [alignedSum_of_signs_differ _ (by rwa [hsign]), toInt_mantSra]

/-- Where the sum overflows, both operands have its sign. -/
theorem shiftedSum_neg_iff {m t : Mant} {n : Nat} (h : ¬ FitsMant (shiftedSum m t n)) :
    shiftedSum m t n < 0 ↔ m.toInt < 0 :=
  alignedSum_neg_iff _ (signs_agree_of_not_fits _ h)

theorem shiftedSum_zero_right (m : Mant) (n : Nat) : shiftedSum m 0#32 n = m.toInt := by
  have hhalf : (2 : Int) ^ n / 2 ^ (n + 1) = 0 := Int.ediv_eq_zero_of_lt (by positivity) (by gcongr <;> norm_num)
  rw [shiftedSum_eq, BitVec.toInt_zero, mul_zero, zero_add, hhalf, Int.zero_ediv, ite_self, add_zero]

/-- Without a shift there is nothing to round. -/
theorem shiftedSum_no_shift (m t : Mant) : shiftedSum m t 0 = m.toInt + t.toInt := by
  rw [shiftedSum_eq]
  split <;> omega

theorem fpNormalize_fltOfSum (S e : Int) :
    fpNormalize (fltOfSum S e) =
      if FitsMant S then fpNormalize ⟨BitVec.ofInt 32 S, e⟩
      else if e = 511 then (if S < 0 then fltNegInf else fltInf)
      else fpNormalize ⟨BitVec.ofInt 32 (S / 2), e + 1⟩ := by
  simp only [fltOfSum, apply_ite fpNormalize, fpNormalize_of_canonical (f := fltNegInf) rfl,
    fpNormalize_of_canonical (f := fltInf) rfl]

/-- `ZERO` is neutral: its shifted mantissa is 0 and its round bit does not count (R128). -/
theorem fpAdd_zero {a : Flt} (h : canonical a = true) : fpAdd a fltZero = a := by
  have hexp : a.exp = fltZero.exp + (a.exp + 512).toNat := by
    have := (canonical_exp h).1
    simp only [Config.minExp, fltZero] at this ⊢
    omega
  rw [fpAdd_of_exp_eq_add hexp, show fltZero.mant = 0#32 from rfl, shiftedSum_zero_right, fpNormalize_fltOfSum,
    if_pos (mant_toInt_bounds a.mant), BitVec.ofInt_toInt, fpNormalize_of_canonical h]

theorem fpNeg_fpNeg (f : Flt) : fpNeg (fpNeg f) = f := by
  simp only [fpNeg, mantNeg_eq_neg, neg_neg]

end Sys2Proof.Machine

namespace Sys2Proof.Proofs

open Sys2Proof.Machine

/-- Settles O60: the aligned sum of R122 is the exact sum of the shifted mantissas. -/
theorem addRoundsTheAlignedSum : Obligations.AddRoundsTheAlignedSum := by
  refine ⟨fun a b _ _ A B S n hA hB hexp hS => ⟨fpAdd_comm b a, ?_⟩, fpSub_eq⟩
  subst hA hB
  rw [← shiftedSum_eq] at hS
  subst hS
  rw [fpAdd_of_exp_eq_add hexp, fpNormalize_fltOfSum]
  split
  next => rfl
  next hover => simp only [shiftedSum_neg_iff hover]

/-- Settles O47: the aligned sum is symmetric, and adding `ZERO` adds 0. -/
theorem addCommutesWithZeroNeutral : Obligations.AddCommutesWithZeroNeutral := by
  refine ⟨fpAdd_comm, fun a h => ⟨fpAdd_zero h, ?_⟩⟩
  rw [fpSub, fpAdd_zero (canonical_fpNeg h), fpNeg_fpNeg]

end Sys2Proof.Proofs

namespace Sys2Proof.Machine

/-! ## `normalize` beside `MIN_EXP`, by integers (R110, R114) -/

/-- The value of a Float in units of 2^−542, the last place of a mantissa at `MIN_EXP`. -/
def minUnits (f : Flt) : Int := f.mant.toInt * 2 ^ (f.exp + 512).toNat

/-- Below 2^512 lies every Float of the exponent range but the mantissa −2^31 at `MAX_EXP`. -/
theorem abs_value_lt_max {f : Flt} (hhi : f.exp ≤ 511) (hmax : ¬ (f.mant.toInt = -2 ^ 31 ∧ f.exp = 511)) :
    |f.value| < 2 ^ (512 : Int) := by
  rcases hhi.lt_or_eq with hlt | heq
  · exact (abs_value_le f).trans_lt (zpow_lt_zpow_right₀ (by norm_num) (by omega))
  · have hm : f.mant.toInt.natAbs < 2 ^ 31 := by have := mant_toInt_bounds f.mant; omega
    calc |f.value| = (f.mant.toInt.natAbs : ℚ) * 2 ^ (511 - 30 : Int) := by rw [abs_value, heq]
      _ < 2 ^ 31 * 2 ^ (511 - 30 : Int) := by gcongr; exact_mod_cast hm
      _ = 2 ^ (512 : Int) := by rw [← zpow_natCast, ← zpow_add₀ (by norm_num)]; congr 1

section
variable {f : Flt} (hlo : -512 ≤ f.exp)
include hlo

theorem value_eq_minUnits : f.value = minUnits f * 2 ^ (-512 - 30 : Int) := by
  obtain ⟨k, hk⟩ := Int.eq_ofNat_of_zero_le (show 0 ≤ f.exp + 512 by omega)
  rw [Flt.value, minUnits, hk, Int.toNat_natCast, Int.cast_mul, Int.cast_pow, Int.cast_ofNat, mul_assoc,
    ← zpow_natCast, ← zpow_add₀ (by norm_num)]
  congr 2
  omega

theorem abs_value_lt_min_iff : |f.value| < 2 ^ (-512 : Int) ↔ |minUnits f| < 2 ^ 30 := by
  have hu : (0 : ℚ) < 2 ^ (-512 - 30 : Int) := zpow_pos (by norm_num) _
  rw [value_eq_minUnits hlo, abs_mul, abs_of_pos hu, two_zpow_exp (-512), mul_lt_mul_iff_left₀ hu, ← Int.cast_abs,
    Int.cast_lt]

theorem value_eq_neg_min_iff : f.value = -2 ^ (-512 : Int) ↔ minUnits f = -2 ^ 30 := by
  have hu : (2 : ℚ) ^ (-512 - 30 : Int) ≠ 0 := zpow_ne_zero _ (by norm_num)
  rw [value_eq_minUnits hlo, two_zpow_exp (-512), ← neg_mul, mul_left_inj' hu, ← Int.cast_neg, Int.cast_inj]

/-- A value without a leading bit at `MIN_EXP` is flushed, the mantissa of step 1 excepted, which is not shifted. -/
theorem fpNormalize_flushes (hm : f.mant.toInt ≠ -2 ^ 30) (h₁ : -2 ^ 30 ≤ minUnits f) (h₂ : minUnits f < 2 ^ 30) :
    fpNormalize f = fltZero := by
  obtain ⟨hsmall, -, -, hrange⟩ := Proofs.normalizeKeepsTheValue f
  rcases h₁.eq_or_lt with heq | hlt
  · have hv := (value_eq_neg_min_iff hlo).mpr heq.symm
    have hexp : -512 < f.exp := hlo.lt_of_ne fun h => hm (by rw [minUnits, ← h] at heq; simpa using heq.symm)
    have habs : |f.value| = 2 ^ (-512 : Int) := by rw [hv, abs_neg, abs_of_pos (zpow_pos (by norm_num) _)]
    have hmax : (2 : ℚ) ^ (-512 : Int) < 2 ^ (512 : Int) := zpow_lt_zpow_right₀ (by norm_num) (by norm_num)
    simpa only [hv, hexp, and_self, if_true] using hrange habs.ge (habs.trans_lt hmax)
  · exact hsmall ((abs_value_lt_min_iff hlo).mpr (abs_lt.mpr ⟨hlt, h₂⟩))

/-- A value with a leading bit at `MIN_EXP` or above is kept, −2^512 excepted. -/
theorem value_fpNormalize_of_range (hhi : f.exp ≤ 511) (hmax : ¬ (f.mant.toInt = -2 ^ 31 ∧ f.exp = 511))
    (hmin : ¬ (-2 ^ 30 ≤ minUnits f ∧ minUnits f < 2 ^ 30)) : (fpNormalize f).value = f.value := by
  obtain ⟨-, -, -, hrange⟩ := Proofs.normalizeKeepsTheValue f
  have hlarge : 2 ^ (-512 : Int) ≤ |f.value| :=
    not_lt.mp (mt (abs_value_lt_min_iff hlo).mp fun h => hmin ⟨(abs_lt.mp h).1.le, (abs_lt.mp h).2⟩)
  have hkeep := hrange hlarge (abs_value_lt_max hhi hmax)
  rwa [if_neg fun h => hmin (by rw [(value_eq_neg_min_iff hlo).mp h.1]; norm_num)] at hkeep

end

theorem value_fpNormalize_of_zero {f : Flt} (h : f.mant = 0#32) : (fpNormalize f).value = f.value := by
  have hzero : fpNormalize f = fltZero := by simp [fpNormalize, h, isZero]
  rw [hzero, Flt.value, Flt.value, h, show fltZero.mant = 0#32 from rfl, BitVec.toInt_zero, Int.cast_zero, zero_mul,
    zero_mul]

/-- The mantissa −2^31 at `MAX_EXP` saturates. -/
theorem fpNormalize_of_neg_max {f : Flt} (hm : f.mant.toInt = -2 ^ 31) (he : f.exp = 511) :
    fpNormalize f = fltNegInf := by
  obtain ⟨m, e⟩ := f
  have : m = 0x80000000#32 := BitVec.toInt_inj.mp hm
  dsimp only at he
  subst this he
  rfl

/-! ## Sums at equal exponents (R128) -/

theorem value_ofInt {S : Int} (h : FitsMant S) (e : Int) :
    (⟨BitVec.ofInt 32 S, e⟩ : Flt).value = S * 2 ^ (e - 30) := by
  rw [Flt.value, toInt_ofInt_of_fits h]

theorem value_add_of_exp_eq {a b : Flt} (h : a.exp = b.exp) :
    a.value + b.value = ((a.mant.toInt + b.mant.toInt : Int) : ℚ) * 2 ^ (a.exp - 30) := by
  rw [Flt.value, Flt.value, ← h, ← add_mul, Int.cast_add]

theorem neg_two_pow_lt_toInt_of_canonical {f : Flt} (h : canonical f = true) : -2 ^ 31 < f.mant.toInt := by
  obtain ⟨-, ⟨hz, -⟩ | ⟨-, hlt⟩⟩ := (canonical_iff f).mp h
  · rw [hz]; decide
  · omega

section
variable {S e : Int} (hlo : -512 ≤ e)
include hlo

/-- What `normalize` makes of a sum that fits 32 bits. -/
theorem fpNormalize_of_fits (hhi : e ≤ 511) (h : FitsMant S) :
    if S = -2 ^ 31 ∧ e = 511 then fpNormalize ⟨BitVec.ofInt 32 S, e⟩ = fltNegInf
    else if S ≠ 0 ∧ S ≠ -2 ^ 30 ∧ -2 ^ 30 ≤ S * 2 ^ (e + 512).toNat ∧ S * 2 ^ (e + 512).toNat < 2 ^ 30 then
      fpNormalize ⟨BitVec.ofInt 32 S, e⟩ = fltZero
    else (fpNormalize ⟨BitVec.ofInt 32 S, e⟩).value = S * 2 ^ (e - 30) := by
  have hm := toInt_ofInt_of_fits h
  have hunits : minUnits ⟨BitVec.ofInt 32 S, e⟩ = S * 2 ^ (e + 512).toNat := by rw [minUnits, hm]
  split
  next hmax => exact fpNormalize_of_neg_max (hm.trans hmax.1) hmax.2
  next hmax =>
    split
    next hmin =>
      obtain ⟨-, hne, h₁, h₂⟩ := hmin
      rw [← hunits] at h₁ h₂
      exact fpNormalize_flushes hlo (hm.trans_ne hne) h₁ h₂
    next hmin =>
      rw [← value_ofInt h e]
      by_cases hz : S = 0
      · exact value_fpNormalize_of_zero (by rw [hz]; rfl)
      by_cases hc : S = -2 ^ 30
      · subst hc
        rw [fpNormalize_of_canonical ((canonical_iff _).mpr ⟨⟨hlo, hhi⟩, .inr ((normMant_iff _).mpr (.inl rfl))⟩)]
      · exact value_fpNormalize_of_range hlo hhi (by rwa [hm]) fun hunit => hmin ⟨hz, hc, by rwa [← hunits]⟩

/-- An even sum that has left 32 bits is normalized when it is halved, and nothing is lost. -/
theorem value_fpNormalize_half (hhi : e < 511) (h₁ : -2 ^ 32 + 1 < S) (h₂ : S < 2 ^ 32)
    (hover : S < -2 ^ 31 ∨ 2 ^ 31 ≤ S) (heven : 2 ∣ S) :
    (fpNormalize ⟨BitVec.ofInt 32 (S / 2), e + 1⟩).value = S * 2 ^ (e - 30) := by
  obtain ⟨H, rfl⟩ := heven
  rw [Int.mul_ediv_cancel_left H two_ne_zero]
  have hfits : FitsMant H := by omega
  have hnorm : NormMant (BitVec.ofInt 32 H) := by rw [NormMant, toInt_ofInt_of_fits hfits]; omega
  rw [fpNormalize_of_canonical ((canonical_iff _).mpr ⟨⟨by dsimp only; omega, by dsimp only; omega⟩, .inr hnorm⟩),
    value_ofInt hfits, show e + 1 - 30 = e - 30 + 1 by ring, zpow_add_one₀ (by norm_num)]
  push_cast
  ring

end

theorem fpAdd_of_exp_eq {a b : Flt} (h : a.exp = b.exp) :
    fpAdd a b = fpNormalize (fltOfSum (a.mant.toInt + b.mant.toInt) a.exp) := by
  rw [fpAdd_of_exp_eq_add (n := 0) (by simpa using h), shiftedSum_no_shift]

/-! ## Commands that read and then write one Float (R121, R123 to R127, R131, R132) -/

theorem exists_next_onlyFloat_of_read {α : Type} {x : Except Refusal α} {v : α} {s : State} {regs : List RegNum}
    {rd : RegNum} (g : α → Flt) (hrun : Safety.Running s) (hwf : ∀ q ∈ regs, LegalReg q) (hrd : LegalReg rd)
    (hx : x = .ok v) :
    ∃ t, issue regs s (withRead x fun a => .next (s.putFloat rd (g a))) = .next t ∧ Safety.OnlyFloat s t rd (g v) :=
  ⟨_, issue_withRead_ok hrun hwf hx, onlyFloat_putFloat s rd (g v) hrd⟩

/-- A register's three fields are those of the Float that it holds. -/
theorem ofFlt_of_holds {s : State} {r : RegNum} {v : Flt} (h : Safety.Holds s r v) : FloatReg.ofFlt v = s.reg r := by
  obtain ⟨hmsw, hlsw, hexp, rfl⟩ := h
  rw [FloatReg.ofFlt_toFlt]
  generalize s.reg r = f at *
  obtain ⟨msw, lsw, exp, _, _, _⟩ := f
  subst hmsw hlsw hexp
  rfl

end Sys2Proof.Machine

namespace Sys2Proof.Proofs

open Sys2Proof.Machine Sys2Proof.Safety

/-- Settles O48: without a shift the sum is the exact one, so only `normalize` and the halving can change it. -/
theorem addIsExactAtEqualExponents : Obligations.AddIsExactAtEqualExponents := by
  rintro a b ha hb hexp S rfl
  obtain ⟨⟨hlo, hhi⟩, -⟩ := (canonical_iff a).mp ha
  have hadd := fpAdd_of_exp_eq hexp
  rw [fpNormalize_fltOfSum] at hadd
  rw [value_add_of_exp_eq hexp]
  refine ⟨fun h₁ h₂ => ?_, fun hover => ?_⟩
  · rw [hadd.trans (if_pos ⟨h₁, h₂⟩)]
    exact fpNormalize_of_fits hlo hhi ⟨h₁, h₂⟩
  · rw [hadd, if_neg (by omega)]
    refine ⟨fun hmax => if_pos hmax, fun hlt heven => ?_⟩
    have := neg_two_pow_lt_toInt_of_canonical ha
    have := neg_two_pow_lt_toInt_of_canonical hb
    have := mant_toInt_bounds a.mant
    have := mant_toInt_bounds b.mant
    rw [if_neg hlt.ne]
    exact value_fpNormalize_half hlo hlt (by omega) (by omega) hover heven

/-- Settles O32: NEG writes `-m` into the halves; the two mantissas that are their own negation stay. -/
theorem negResult : Obligations.NegResult := by
  intro rd s v hrd hrun hv
  have hneg : fpNeg v = ⟨-v.mant, v.exp⟩ := by rw [fpNeg, mantNeg_eq_neg]
  have hexec : exec (.neg rd) s = .next (s.putFloat rd (fpNeg v)) :=
    issue_withRead_ok hrun (List.forall_mem_singleton.mpr hrd) (readFloat_eq_ok.mpr hv)
  rw [← hneg]
  refine ⟨rfl, _, hexec, onlyFloat_putFloat s rd _ hrd, ?_, fun hself => ?_⟩ <;>
    rw [State.reg_putFloat_same s rd _ hrd, ← ofFlt_of_holds hv]
  · rfl
  · have hfix : -v.mant = v.mant := by rcases hself with h | h <;> rw [h] <;> rfl
    rw [hneg, hfix]

/-- Settles O33: both reads succeed, also of one register, and the result is the one Float written. -/
theorem registerArithmeticResults : Obligations.RegisterArithmeticResults := by
  intro rd rs s a b hrd hrs hrun ha hb
  have hwf : ∀ q ∈ [rd, rs], LegalReg q := List.forall_mem_cons.mpr ⟨hrd, List.forall_mem_singleton.mpr hrs⟩
  have hread : readCanonicalPair s rd rs = .ok (a, b) := readCanonicalPair_eq_ok.mpr ⟨ha, hb⟩
  have hnext (g : Flt × Flt → Flt) := exists_next_onlyFloat_of_read g hrun hwf hrd hread
  exact ⟨⟨rfl, hnext fun p => fpAdd p.1 p.2⟩, ⟨rfl, hnext fun p => fpSub p.1 p.2⟩, rfl, hnext fun p => fpMult p.1 p.2⟩

/-- Settles O34: the second operand is `set_int` of the immediate, which needs no read. -/
theorem immediateArithmeticResults : Obligations.ImmediateArithmeticResults := by
  intro rd imm s a hrd hrun ha
  have hwf : ∀ q ∈ [rd], LegalReg q := List.forall_mem_singleton.mpr hrd
  have hread : readCanonical s rd = .ok a := readCanonical_eq_ok.mpr ha
  have hnext (g : Flt → Flt) := exists_next_onlyFloat_of_read g hrun hwf hrd hread
  exact ⟨⟨rfl, hnext (fpAdd · (setInt imm))⟩, ⟨rfl, hnext (fpSub · (setInt imm))⟩, rfl, hnext (fpMult · (setInt imm))⟩

end Sys2Proof.Proofs

namespace Sys2Proof.Machine

/-! ## Signs and magnitudes (R130, R135) -/

theorem signBit_iff_toNat (m : Mant) : signBit m = true ↔ 2 ^ 31 ≤ m.toNat := by
  have := m.isLt
  rw [signBit_iff, BitVec.toInt_eq_toNat_cond]
  split <;> omega

/-- The absolute value is right as an unsigned number for every mantissa, 0x80000000 included. -/
theorem toNat_mantAbs (m : Mant) : (mantAbs m).toNat = m.toInt.natAbs := by
  have hlt := m.isLt
  rw [mantAbs, BitVec.toInt_eq_toNat_cond]
  split
  next hs =>
    have hneg := (signBit_iff_toNat m).mp hs
    rw [mantNeg_eq_neg, BitVec.toNat_neg, if_neg (by omega)]
    omega
  next hs =>
    have hpos := mt (signBit_iff_toNat m).mpr hs
    rw [if_pos (by omega), Int.natAbs_natCast]

/-- The factor 1 or -1 by which the signs of two mantissas change a magnitude (R130, R135). -/
def signProduct (x y : Mant) : Mant := if (x.toInt < 0 ↔ y.toInt < 0) then 1 else -1

theorem signProduct_comm (x y : Mant) : signProduct x y = signProduct y x := by
  simp only [signProduct, iff_comm]

theorem mantNeg_where_signs_differ (x y m : Mant) :
    (if signBit x ≠ signBit y then mantNeg m else m) = signProduct x y * m := by
  have hdiffer : signBit x ≠ signBit y ↔ ¬ (x.toInt < 0 ↔ y.toInt < 0) := by
    rw [← signBit_iff, ← signBit_iff, ← Bool.eq_iff_iff]
  rw [signProduct, mantNeg_eq_neg]
  by_cases h : x.toInt < 0 ↔ y.toInt < 0
  · rw [if_neg (hdiffer.not_left.mpr h), if_pos h]
    exact (one_mul m).symm
  · rw [if_pos (hdiffer.mpr h), if_neg h]
    exact (neg_one_mul m).symm

/-- A mantissa is its magnitude with its own sign. -/
theorem signProduct_mul_natAbs {x y : Mant} (hy : 0 ≤ y.toInt) :
    signProduct x y * BitVec.ofNat 32 x.toInt.natAbs = x := by
  rw [← toNat_mantAbs, BitVec.ofNat_toNat, BitVec.setWidth_eq, ← mantNeg_where_signs_differ, mantAbs,
    (signBit_eq_false_iff y).mpr hy]
  cases hx : signBit x <;> simp [mantNeg_eq_neg]

theorem natAbs_lt_of_canonical {f : Flt} (h : canonical f = true) : f.mant.toInt.natAbs < 2 ^ 31 := by
  have := neg_two_pow_lt_toInt_of_canonical h
  have := mant_toInt_bounds f.mant
  omega

/-! ## Rounding a magnitude (R130) -/

/-- The Float of a rounded magnitude `q` of at most 2^31, which itself becomes 2^30 with the exponent one larger. -/
def fltOfMagnitude (q : Nat) (e : Int) : Flt :=
  ⟨BitVec.ofNat 32 (if q = 2 ^ 31 then 2 ^ 30 else q), if q = 2 ^ 31 then e + 1 else e⟩

theorem roundMagnitude_eq_fltOfMagnitude {hi : Mant} (e : Int) (up : Bool) (h : hi.toNat < 2 ^ 31) :
    roundMagnitude hi e up = fltOfMagnitude (hi.toNat + up.toNat) e := by
  cases up
  case false =>
    have hne : hi.toNat ≠ 2 ^ 31 := h.ne
    simp only [roundMagnitude, fltOfMagnitude, Bool.toNat_false, add_zero, if_neg hne, BitVec.ofNat_toNat,
      BitVec.setWidth_eq, Bool.false_eq_true, if_false]
  case true =>
    have hsucc : mantAddInt hi 1#16 = BitVec.ofNat 32 (hi.toNat + 1) := by
      rw [show mantAddInt hi 1#16 = hi + 1#32 from mantAddInt_bitHalf hi true, BitVec.ofNat_add, BitVec.ofNat_toNat,
        BitVec.setWidth_eq]
    have hsign : signBit (BitVec.ofNat 32 (hi.toNat + 1)) = true ↔ hi.toNat + 1 = 2 ^ 31 := by
      rw [signBit_iff_toNat, BitVec.toNat_ofNat]
      omega
    simp only [roundMagnitude, fltOfMagnitude, if_true, hsucc, hsign, Bool.toNat_true]
    split <;> rfl

/-- Rounding the high word of a pair by the top bit of the low one is division by 2^32, half up. -/
theorem roundMagnitude_pair {p : Mant × Mant} (e : Int) (h : pairNat p < 2 ^ 63) :
    roundMagnitude p.1 e (signBit p.2) = fltOfMagnitude ((pairNat p + 2 ^ 31) / 2 ^ 32) e := by
  have hlow := p.2.isLt
  have hsign := signBit_iff_toNat p.2
  unfold pairNat at h ⊢
  rw [roundMagnitude_eq_fltOfMagnitude e _ (by omega)]
  congr 1
  cases hbit : signBit p.2
  · have := mt hsign.mpr (by simp [hbit])
    rw [Bool.toNat_false]
    omega
  · have := hsign.mp hbit
    rw [Bool.toNat_true]
    omega

/-! ## `fp_mult` as exact arithmetic (R130) -/

/-- The exact product `P` of two magnitudes, whose exponents add to `e`, rounded half up to 31 bits (R130). -/
def multMagnitude (P : Nat) (e : Int) : Flt :=
  if 2 ^ 61 ≤ P then fltOfMagnitude ((P + 2 ^ 30) / 2 ^ 31) (e + 1) else fltOfMagnitude ((P + 2 ^ 29) / 2 ^ 30) e

/-- The shifts bring the leading bit of the product to bit 62 of the pair, whose high word is then rounded. -/
theorem round_shiftPair_eq_multMagnitude {p : Mant × Mant} (e : Int) (h : pairNat p < 2 ^ 62) :
    (if mantBit30 (shiftPair p).1 then roundMagnitude (shiftPair p).1 (e + 1) (signBit (shiftPair p).2)
      else roundMagnitude (shiftPair (shiftPair p)).1 (e + 1 - 1) (signBit (shiftPair (shiftPair p)).2)) =
      multMagnitude (pairNat p) e := by
  have honce := pairNat_shiftPair (p := p) (by omega)
  have hlead : mantBit30 (shiftPair p).1 = true ↔ 2 ^ 61 ≤ pairNat p := by
    have := (shiftPair p).2.isLt
    rw [mantBit30_iff]
    unfold pairNat at honce h ⊢
    omega
  simp only [hlead, multMagnitude]
  split
  next => rw [roundMagnitude_pair _ (by omega), honce]; congr 1; omega
  next =>
    have htwice := pairNat_shiftPair (p := shiftPair p) (by omega)
    rw [roundMagnitude_pair _ (by omega), htwice, honce, add_sub_cancel_right]
    congr 1
    omega

/-- `fp_mult` is the rounded exact product with the product of the signs, normalized; a zero operand is no exception. -/
theorem fpMult_eq {a b : Flt} (ha : a.mant.toInt.natAbs < 2 ^ 31) (hb : b.mant.toInt.natAbs < 2 ^ 31) {r : Flt}
    (hr : r = multMagnitude (a.mant.toInt.natAbs * b.mant.toInt.natAbs) (a.exp + b.exp)) :
    fpMult a b = fpNormalize ⟨signProduct a.mant b.mant * r.mant, r.exp⟩ := by
  have hprod : pairNat (mantLongUmult (mantAbs a.mant) (mantAbs b.mant)) =
      a.mant.toInt.natAbs * b.mant.toInt.natAbs := by
    rw [pairNat_mantLongUmult, toNat_mantAbs, toNat_mantAbs, Nat.mod_eq_of_lt ha]
  have hbound : pairNat (mantLongUmult (mantAbs a.mant) (mantAbs b.mant)) < 2 ^ 62 := by
    rw [hprod]
    exact (Nat.mul_lt_mul'' ha hb).trans_eq (by norm_num)
  simp only [fpMult, mantNeg_where_signs_differ, round_shiftPair_eq_multMagnitude _ hbound, hprod, hr]

theorem fpMult_comm {a b : Flt} (ha : a.mant.toInt.natAbs < 2 ^ 31) (hb : b.mant.toInt.natAbs < 2 ^ 31) :
    fpMult a b = fpMult b a := by
  rw [fpMult_eq ha hb rfl, fpMult_eq hb ha rfl, signProduct_comm, Nat.mul_comm, Int.add_comm]

/-- The product with 2^30 is below 2^61 and rounds back to the other magnitude. -/
theorem multMagnitude_mul_two_pow {A : Nat} (e : Int) (h : A < 2 ^ 31) :
    multMagnitude (A * 2 ^ 30) e = ⟨BitVec.ofNat 32 A, e⟩ := by
  have hround : (A * 2 ^ 30 + 2 ^ 29) / 2 ^ 30 = A := by omega
  rw [multMagnitude, if_neg (by omega), hround, fltOfMagnitude, if_neg h.ne, if_neg h.ne]

theorem fpMult_one {a : Flt} (ha : a.mant.toInt.natAbs < 2 ^ 31) : fpMult a fltOne = fpNormalize a := by
  have hr := multMagnitude_mul_two_pow (a.exp + fltOne.exp) ha
  rw [fpMult_eq ha (by decide) hr.symm, signProduct_mul_natAbs (by decide), show fltOne.exp = 0 from rfl, add_zero]

end Sys2Proof.Machine

namespace Sys2Proof.Proofs

open Sys2Proof.Machine

/-- Settles O50: the exact product and the product of the signs are symmetric, and 1 has the magnitude 2^30. -/
theorem multiplyIsCommutativeWithUnitAndZero : Obligations.MultiplyIsCommutativeWithUnitAndZero := by
  intro a b ha hb
  have hA := natAbs_lt_of_canonical ha
  refine ⟨fpMult_comm hA (natAbs_lt_of_canonical hb), ?_, ?_⟩
  · exact (fpMult_one hA).trans (fpNormalize_of_canonical ha)
  · rw [fpMult_comm hA (by decide), fpMult_zero_left]

/-- Settles O51: the two ranges of the product are the two cases of `multMagnitude`. -/
theorem multiplyRoundsTheExactProduct : Obligations.MultiplyRoundsTheExactProduct := by
  intro a b ha hb _ _ P q e hP hq he
  have hr : fltOfMagnitude q e = multMagnitude P (a.exp + b.exp) := by
    rw [multMagnitude, hq, he]
    split <;> rfl
  rw [hP] at hr
  exact fpMult_eq (natAbs_lt_of_canonical ha) (natAbs_lt_of_canonical hb) hr

end Sys2Proof.Proofs

namespace Sys2Proof.Machine

/-! ## The long division as exact arithmetic (R135) -/

theorem mantUcompare_neg_iff (A B : Mant) : mantUcompare A B < 0 ↔ A.toNat < B.toNat := by
  unfold mantUcompare
  split
  next h => simp [h]
  next h => split <;> simp [h]

theorem mantUcompare_nonneg_iff (A B : Mant) : mantUcompare A B ≥ 0 ↔ B.toNat ≤ A.toNat := by
  rw [ge_iff_le, ← not_lt, mantUcompare_neg_iff, not_lt]

theorem toNat_mantSub {A B : Mant} (h : B.toNat ≤ A.toNat) : (mantSub A B).toNat = A.toNat - B.toNat := by
  rw [mantSub, mantAdd_fst, mantNeg_eq_neg, ← BitVec.sub_eq_add_neg, BitVec.toNat_sub_of_le h]

theorem toNat_mantShl1 {m : Mant} (h : 2 * m.toNat < 2 ^ 32) : (mantShl1 m).1.toNat = 2 * m.toNat := by
  rw [mantShl1, BitVec.toNat_shiftLeft, Nat.shiftLeft_eq, pow_one, mul_comm, Nat.mod_eq_of_lt h]

theorem toNat_mantShl1_or_one {m : Mant} (h : 2 * m.toNat < 2 ^ 32) :
    ((mantShl1 m).1 ||| 1#32).toNat = 2 * m.toNat + 1 := by
  rw [BitVec.toNat_or, toNat_mantShl1 h]
  exact (Nat.two_pow_add_eq_or_of_lt (i := 1) one_lt_two m.toNat).symm

/-- One iteration of the long division doubles what the remainder and the quotient stand for, and keeps the remainder
below twice the divisor, so that no bit is lost. -/
theorem divLoop_succ (n : Nat) {A B q : Mant} (hB : B.toNat < 2 ^ 31) (hA : A.toNat < 2 * B.toNat)
    (hq : 2 * q.toNat < 2 ^ 32) :
    ∃ A' q' : Mant, divLoop (n + 1) A B q = divLoop n A' B q' ∧ A'.toNat < 2 * B.toNat ∧
      q'.toNat ≤ 2 * q.toNat + 1 ∧ A'.toNat + 2 * B.toNat * q'.toNat = 2 * (A.toNat + 2 * B.toNat * q.toNat) := by
  simp only [divLoop, mantUcompare_nonneg_iff]
  split
  next hle =>
    have hsub := toNat_mantSub hle
    have hrem := toNat_mantShl1 (m := mantSub A B) (by omega)
    refine ⟨_, _, rfl, by omega, (toNat_mantShl1_or_one hq).le, ?_⟩
    rw [hrem, hsub, toNat_mantShl1_or_one hq, mul_add_one, mul_add 2, mul_left_comm 2]
    omega
  next hlt =>
    have hrem := toNat_mantShl1 (m := A) (by omega)
    refine ⟨_, _, rfl, by omega, by rw [toNat_mantShl1 hq]; omega, ?_⟩
    rw [hrem, toNat_mantShl1 hq]
    ring

/-- The long division of `A` by `B` is exact: `n` iterations answer the remainder and the quotient of `2 ^ n * A` by
`2 * B`. -/
theorem divLoop_exact (n : Nat) {A B q : Mant} (hB : B.toNat < 2 ^ 31) (hA : A.toNat < 2 * B.toNat)
    (hq : (q.toNat + 1) * 2 ^ n ≤ 2 ^ 32) :
    (divLoop n A B q).1.toNat < 2 * B.toNat ∧
      (divLoop n A B q).1.toNat + 2 * B.toNat * (divLoop n A B q).2.toNat =
        2 ^ n * (A.toNat + 2 * B.toNat * q.toNat) := by
  induction n generalizing A q with
  | zero => exact ⟨hA, (one_mul _).symm⟩
  | succ n ih =>
    have hroom : (2 * q.toNat + 2) * 2 ^ n ≤ 2 ^ 32 := by
      calc (2 * q.toNat + 2) * 2 ^ n = (q.toNat + 1) * 2 ^ (n + 1) := by ring
        _ ≤ 2 ^ 32 := hq
    have hfit := (Nat.le_mul_of_pos_right _ (Nat.two_pow_pos n)).trans hroom
    obtain ⟨A', q', hstep, hA', hq', hsum⟩ := divLoop_succ n (q := q) hB hA (by omega)
    have hgrow : q'.toNat + 1 ≤ 2 * q.toNat + 2 := by omega
    obtain ⟨hrem, hexact⟩ := ih hA' ((Nat.mul_le_mul_right _ hgrow).trans hroom)
    rw [hstep]
    exact ⟨hrem, by rw [hexact, hsum, ← mul_assoc, ← pow_succ]⟩

/-! ## Rounding the quotient (R135) -/

/-- The pre-aligned dividend: doubled where it is below the divisor (R135). -/
def preAligned (A B : Nat) : Nat := if A < B then 2 * A else A

/-- The quotient of a pre-aligned dividend, scaled by 2^30, rounded half up (R135). -/
def roundedQuotient (A B : Nat) : Nat := (2 * (A * 2 ^ 30) + B) / (2 * B)

theorem preAligned_lt {A B : Nat} (h : A < 2 * B) : preAligned A B < 2 * B := by
  unfold preAligned
  split <;> omega

/-- A rounded quotient that reaches 2^31 would need a remainder that is not below twice the divisor. -/
theorem roundedQuotient_lt {A B : Nat} (hB : B < 2 ^ 31) (hA : A < 2 * B) : roundedQuotient A B < 2 ^ 31 := by
  rw [roundedQuotient, Nat.div_lt_iff_lt_mul (by omega)]
  omega

/-- One more compare with the last remainder rounds the quotient half up. -/
theorem round_of_remainder {R Q A B : Nat} (hR : R < 2 * B) (hexact : R + 2 * B * Q = 2 * (A * 2 ^ 30)) :
    Q + (decide (B ≤ R)).toNat = roundedQuotient A B := by
  have hround : (R + B) / (2 * B) = (decide (B ≤ R)).toNat := by
    by_cases h : B ≤ R
    · rw [decide_eq_true h, Bool.toNat_true, Nat.div_eq_of_lt_le] <;> omega
    · rw [decide_eq_false h, Bool.toNat_false, Nat.div_eq_of_lt (by omega)]
  rw [roundedQuotient, ← hexact, Nat.add_right_comm, Nat.add_mul_div_left _ _ (by omega), hround, add_comm]

/-- The 31 iterations and the last compare give the rounded exact quotient of a pre-aligned dividend. -/
theorem roundMagnitude_divLoop {A B : Mant} (e : Int) (hB : B.toNat < 2 ^ 31) (hA : A.toNat < 2 * B.toNat) :
    roundMagnitude (divLoop 31 A B 0#32).2 e (decide (mantUcompare (divLoop 31 A B 0#32).1 B ≥ 0)) =
      ⟨BitVec.ofNat 32 (roundedQuotient A.toNat B.toNat), e⟩ := by
  obtain ⟨hrem, hexact⟩ := divLoop_exact 31 (q := 0#32) hB hA (by decide)
  have hround := round_of_remainder (A := A.toNat) hrem (by rw [hexact, BitVec.toNat_zero]; ring)
  have hne := (roundedQuotient_lt hB hA).ne
  simp only [mantUcompare_nonneg_iff]
  rw [roundMagnitude_eq_fltOfMagnitude e _ (divLoop_quotient_lt 31 0 A B 0#32 (by decide)), hround, fltOfMagnitude,
    if_neg hne, if_neg hne]

/-- The division of magnitudes is exact arithmetic and one rounding, which never overflows (R135). -/
theorem divMagnitude_eq {A B : Mant} (hB : B.toNat < 2 ^ 31) (hA : A.toNat < 2 * B.toNat) :
    divMagnitude A B =
      ⟨BitVec.ofNat 32 (roundedQuotient (preAligned A.toNat B.toNat) B.toNat),
        -(if A.toNat < B.toNat then 1 else 0)⟩ := by
  have halign : (if A.toNat < B.toNat then (mantShl1 A).1 else A).toNat = preAligned A.toNat B.toNat := by
    unfold preAligned
    split
    · exact toNat_mantShl1 (by omega)
    · rfl
  have hround := fun e => roundMagnitude_divLoop e hB (by rw [halign]; exact preAligned_lt hA)
  simp only [divMagnitude, mantUcompare_neg_iff, decide_eq_true_eq, hround, halign, neg_ite, neg_zero]

theorem fpDiv_eq {a b : Flt} (hb : b.mant ≠ 0#32) :
    fpDiv a b = .ok (fpNormalize
      ⟨signProduct a.mant b.mant * (divMagnitude (mantAbs a.mant) (mantAbs b.mant)).mant,
        a.exp - b.exp + (divMagnitude (mantAbs a.mant) (mantAbs b.mant)).exp⟩) := by
  rw [fpDiv, if_neg (mt (isZero_iff _).mp hb)]
  simp only [mantNeg_where_signs_differ]

theorem le_natAbs_of_canonical {f : Flt} (h : canonical f = true) (hz : f.mant ≠ 0#32) :
    2 ^ 30 ≤ f.mant.toInt.natAbs := by
  obtain ⟨-, ⟨hm, -⟩ | ⟨hlo, -⟩⟩ := (canonical_iff f).mp h
  · exact absurd hm hz
  · exact hlo

/-! ## Commands that read and then divide (R136, R137, R176) -/

/-- A command that divides what it has read writes the quotient, or takes the fault on a zero divisor. -/
theorem exists_next_of_divide {α : Type} {x : Except Refusal α} {v : α} {s : State} {regs : List RegNum}
    {rd : RegNum} {k : α → Except Exc Flt} {a b : Flt} (hrun : Safety.Running s) (hwf : ∀ q ∈ regs, LegalReg q)
    (hrd : LegalReg rd) (hx : x = .ok v) (hk : k v = fpDiv a b) :
    (b.mant ≠ 0#32 → ∃ q t, fpDiv a b = .ok q ∧ issue regs s (withRead x fun p => finish (k p) rd s) = .next t ∧
      Safety.OnlyFloat s t rd q) ∧
    (b.mant = 0#32 → ∃ t, issue regs s (withRead x fun p => finish (k p) rd s) = .next t ∧
      Safety.OnlyErr s t 3) := by
  rw [issue_withRead_ok hrun hwf hx, hk]
  refine ⟨fun hb => ?_, fun hb => ?_⟩
  · rw [fpDiv_eq hb]
    exact ⟨_, _, rfl, rfl, onlyFloat_putFloat s rd _ hrd⟩
  · rw [(fpDiv_error_iff a b .divideByZero).mpr ⟨hb, rfl⟩]
    exact ⟨_, rfl, onlyErr_takeFault s .divideByZero⟩

end Sys2Proof.Machine

namespace Sys2Proof.Proofs

open Sys2Proof.Machine Sys2Proof.Safety

/-- Settles O52: canonical magnitudes meet the bound `A < 2 * B` under which the long division loses no bit. -/
theorem divideRoundsTheExactQuotient : Obligations.DivideRoundsTheExactQuotient := by
  rintro a b ha hb hz _ _ _ rfl rfl rfl
  have hA := natAbs_lt_of_canonical ha
  have hB := natAbs_lt_of_canonical hb
  have hlead := le_natAbs_of_canonical hb hz
  have hlt : a.mant.toInt.natAbs < 2 * b.mant.toInt.natAbs := by omega
  refine ⟨roundedQuotient_lt hB (preAligned_lt hlt), ?_⟩
  rw [fpDiv_eq hz, divMagnitude_eq (by rwa [toNat_mantAbs]) (by rwa [toNat_mantAbs, toNat_mantAbs]), toNat_mantAbs,
    toNat_mantAbs, ← sub_eq_add_neg]
  rfl

/-- Settles O35: DIV reads both operands, DIVI takes `set_int` of its immediate, which is zero for the immediate 0
only. -/
theorem divideResults : Obligations.DivideResults := by
  intro rd s a hrd hrun ha
  refine ⟨fun rs b hrs hb => ?_, fun imm => ?_⟩
  · have hwf : ∀ q ∈ [rd, rs], LegalReg q := List.forall_mem_cons.mpr ⟨hrd, List.forall_mem_singleton.mpr hrs⟩
    have hread : readCanonicalPair s rd rs = .ok (a, b) := readCanonicalPair_eq_ok.mpr ⟨ha, hb⟩
    exact ⟨rfl, exists_next_of_divide (k := fun p => fpDiv p.1 p.2) hrun hwf hrd hread rfl⟩
  · have hwf : ∀ q ∈ [rd], LegalReg q := List.forall_mem_singleton.mpr hrd
    have hread : readCanonical s rd = .ok a := readCanonical_eq_ok.mpr ha
    have hnext := exists_next_of_divide (k := (fpDiv · (setInt imm))) hrun hwf hrd hread rfl
    rw [ne_eq, setInt_mant_eq_zero_iff] at hnext
    exact ⟨rfl, hnext⟩

end Sys2Proof.Proofs

namespace Sys2Proof.Machine

/-! ## `fp_sqrt` by the sign of its operand (R140, R177) -/

/-- On an operand that is not negative none of the six divisions faults, and ZERO is its own root. -/
theorem exists_fpSqrt_ok {n : Flt} (hn : canonical n = true) (hsign : isNeg n.mant = false) :
    ∃ v, fpSqrt n = .ok v ∧ canonical v = true ∧ (n.mant = 0#32 → v = n) := by
  cases hroot : fpSqrt n with
  | error e =>
    obtain ⟨hneg, -⟩ := (fpSqrt_error_iff hn e).mp hroot
    exact absurd (hsign.symm.trans hneg) Bool.false_ne_true
  | ok v =>
    refine ⟨v, rfl, canonical_of_fpSqrt hn hroot, fun hz => ?_⟩
    have hzero : fpSqrt n = .ok n := by simp [fpSqrt, hsign, (isZero_iff _).mpr hz]
    exact Except.ok.inj (hroot.symm.trans hzero)

theorem execSqrt_eq_finish {s : State} {rd : RegNum} {n : Flt} (hrun : Safety.Running s) (hrd : LegalReg rd)
    (hn : Safety.HoldsCanonical s rd n) : execSqrt rd s = finish (fpSqrt n) rd s :=
  issue_withRead_ok hrun (List.forall_mem_singleton.mpr hrd) (readCanonical_eq_ok.mpr hn)

end Sys2Proof.Machine

namespace Sys2Proof.Proofs

open Sys2Proof.Machine Sys2Proof.Safety

/-- Settles O36: `fp_sqrt` raises its exception by the sign bit alone, since the Newton guess keeps its leading bit and
so never is a zero divisor (`newton_ok`). -/
theorem sqrtResult : Obligations.SqrtResult := by
  intro rd s n hrd hrun hn
  have hexec : exec (.sqrt rd) s = finish (fpSqrt n) rd s := execSqrt_eq_finish hrun hrd hn
  refine ⟨rfl, fun hpos => ?_, fun hneg => ?_⟩
  · obtain ⟨v, hroot, hcanon, hzero⟩ := exists_fpSqrt_ok hn.canon hpos
    rw [hexec, hroot, finish_ok]
    exact ⟨v, _, rfl, hcanon, rfl, onlyFloat_putFloat s rd v hrd, hzero⟩
  · rw [hexec, (fpSqrt_error_iff hn.canon .sqrtOfNegative).mpr ⟨hneg, rfl⟩, finish_error]
    exact ⟨_, rfl, onlyErr_takeFault s .sqrtOfNegative⟩

end Sys2Proof.Proofs

namespace Sys2Proof.Machine

/-! ## Commands that return in `IRES` a value of what they read (R146 to R150) -/

theorem exists_next_onlyIres_of_value {α : Type} {x : Except Refusal α} {v : α} {w : Half} {s : State}
    {regs : List RegNum} (g : α → Half) (hrun : Safety.Running s) (hwf : ∀ q ∈ regs, LegalReg q) (hx : x = .ok v)
    (hw : g v = w) :
    ∃ t, issue regs s (withRead x fun a => .next (s.putIres (g a))) = .next t ∧ Safety.OnlyIres s t w := by
  subst hw
  exact ⟨_, issue_withRead_ok hrun hwf hx, onlyIres_putIres s (g v)⟩

/-! ## The tests by the halves (R148 to R150) -/

theorem isNeg_iff (m : Mant) : isNeg m = true ↔ m.toInt < 0 := signBit_iff m

theorem isZero_mantOf_iff (h l : Half) : isZero (mantOf h l) = true ↔ h = 0 ∧ l = 0 := by
  rw [isZero_iff, ← mantOf_eq_zero_iff]
  rfl

theorem isPos_mantOf_iff (h l : Half) :
    isPos (mantOf h l) = true ↔ h.getLsbD 15 = false ∧ (h ≠ 0 ∨ l ≠ 0) := by
  rw [isPos, Bool.and_eq_true, Bool.not_eq_true', Bool.not_eq_true', ← Bool.not_eq_true (isZero _), isZero_mantOf_iff,
    isNeg_mantOf, not_and_or, and_comm]

theorem bitHalf_eq_ite {b : Bool} {p : Prop} [Decidable p] (h : b = true ↔ p) :
    bitHalf b = if p then 1#16 else 0#16 := by
  simp only [bitHalf, h]

/-- Zero has no sign bit, so no mantissa is both zero and negative, and what is neither is positive (R150). -/
theorem exactly_one_sign_test (m : Mant) :
    (isZero m = true ∧ isNeg m = false ∧ isPos m = false) ∨ (isZero m = false ∧ isNeg m = true ∧ isPos m = false) ∨
      (isZero m = false ∧ isNeg m = false ∧ isPos m = true) := by
  cases hz : isZero m with
  | true =>
    rw [isPos, hz, (isZero_iff m).mp hz]
    exact .inl ⟨rfl, rfl, rfl⟩
  | false => cases hn : isNeg m <;> simp [isPos, hz, hn]

/-! ## `fp_compare` by the sign of the difference (R145) -/

/-- `fp_compare` as CMP and CMPI return it (R17). -/
theorem ofInt_fpCompare (a b : Flt) :
    BitVec.ofInt 16 (fpCompare a b) =
      if (fpSub a b).mant.toInt < 0 then 0xFFFF#16 else if (fpSub a b).mant = 0 then 0#16 else 1#16 := by
  simp only [fpCompare, isNeg_iff, isZero_iff]
  split
  next => rfl
  next => split <;> rfl

theorem value_pos_iff (f : Flt) : 0 < f.value ↔ 0 < f.mant.toInt := by
  have hu : (0 : ℚ) < 2 ^ (f.exp - 30) := zpow_pos (by norm_num) _
  rw [Flt.value, mul_pos_iff_of_pos_right hu, Int.cast_pos]

theorem value_neg_iff (f : Flt) : f.value < 0 ↔ f.mant.toInt < 0 := by
  rw [← not_le, ← not_le, value_nonneg_iff]

theorem value_pos_of_fpCompare {a b : Flt} (h : fpCompare a b = 1) : 0 < (fpSub a b).value := by
  simp only [fpCompare, isNeg_iff, isZero_iff, ← BitVec.toInt_inj (y := 0)] at h
  rw [value_pos_iff]
  split at h
  next => cases h
  next hneg =>
    split at h
    next => cases h
    next hz => exact (not_lt.mp hneg).lt_of_ne fun h0 => hz h0.symm

theorem value_neg_of_fpCompare {a b : Flt} (h : fpCompare a b = -1) : (fpSub a b).value < 0 := by
  simp only [fpCompare, isNeg_iff] at h
  rw [value_neg_iff]
  split at h
  next hneg => exact hneg
  next => split at h <;> cases h

/-! ## No step of `fp_sub` turns a sign round (R145) -/

/-- `x` is 0 or has the sign of `y`: what rounding and underflow may do to `y`. -/
structure NotWrongInSign {α : Type} [Zero α] [LT α] (x y : α) : Prop where
  pos : 0 < x → 0 < y
  neg : x < 0 → y < 0

namespace NotWrongInSign

theorem refl (x : ℚ) : NotWrongInSign x x := ⟨id, id⟩

theorem of_eq_zero {x : ℚ} (h : x = 0) (y : ℚ) : NotWrongInSign x y :=
  ⟨fun hpos => absurd h hpos.ne', fun hneg => absurd h hneg.ne⟩

theorem of_pos {x y : ℚ} (hx : 0 < x) (hy : 0 < y) : NotWrongInSign x y :=
  ⟨fun _ => hy, fun hneg => absurd hx hneg.not_gt⟩

theorem of_neg {x y : ℚ} (hx : x < 0) (hy : y < 0) : NotWrongInSign x y :=
  ⟨fun hpos => absurd hx hpos.not_gt, fun _ => hy⟩

theorem trans {x y z : ℚ} (hxy : NotWrongInSign x y) (hyz : NotWrongInSign y z) : NotWrongInSign x z :=
  ⟨hyz.pos ∘ hxy.pos, hyz.neg ∘ hxy.neg⟩

theorem negate {x y : ℚ} (h : NotWrongInSign x y) : NotWrongInSign (-x) (-y) :=
  ⟨fun hx => neg_pos.mpr (h.neg (neg_pos.mp hx)), fun hx => neg_lt_zero.mpr (h.pos (neg_lt_zero.mp hx))⟩

end NotWrongInSign

theorem value_fltZero : fltZero.value = 0 := by simp [Flt.value, fltZero]

theorem value_fltInf_pos : 0 < fltInf.value := (value_pos_iff _).mpr (by decide)

theorem value_fltNegInf_neg : fltNegInf.value < 0 := (value_neg_iff _).mpr (by decide)

/-- The clamp flushes a Float, keeps it, or replaces it by the infinity of its sign (R110 step 5). -/
theorem normClamp_notWrongInSign {g : Flt} (hn : NormMant g.mant) :
    NotWrongInSign (normClamp g.mant g.exp).value g.value := by
  unfold normClamp
  split
  next => exact .of_eq_zero value_fltZero _
  next =>
    split
    next =>
      have hlead := hn.1
      split
      next hs => exact .of_neg value_fltNegInf_neg ((value_neg_iff g).mpr ((signBit_iff _).mp hs))
      next hs =>
        have hm := mt (signBit_iff g.mant).mpr hs
        exact .of_pos value_fltInf_pos ((value_pos_iff g).mpr (by omega))
    next => exact .refl _

theorem fpNormalize_notWrongInSign (f : Flt) : NotWrongInSign (fpNormalize f).value f.value := by
  rcases fpNormalize_cases f with ⟨hzero, -⟩ | ⟨g, hn, hv, -, hg⟩
  · exact .of_eq_zero (by rw [hzero, value_fltZero]) _
  · rw [hg, ← hv]
    exact normClamp_notWrongInSign hn

/-- A sum that overflows keeps its sign as an infinity and when it is halved (R122). -/
theorem fltOfSum_mant_sign {S : Int} (e : Int) (hlo : -2 ^ 32 ≤ S) (hhi : S < 2 ^ 32) :
    ((fltOfSum S e).mant.toInt < 0 ↔ S < 0) ∧ (0 < (fltOfSum S e).mant.toInt ↔ 0 < S) := by
  unfold fltOfSum
  split
  next hfits => rw [toInt_ofInt_of_fits hfits]; exact ⟨.rfl, .rfl⟩
  next hover =>
    split
    next =>
      split
      next => rw [show fltNegInf.mant.toInt = -(2 ^ 31 - 1) from rfl]; omega
      next => rw [show fltInf.mant.toInt = 2 ^ 31 - 1 from rfl]; omega
    next => rw [toInt_ofInt_of_fits (by omega)]; omega

theorem shiftedSum_bounds (m t : Mant) (n : Nat) : -2 ^ 32 ≤ shiftedSum m t n ∧ shiftedSum m t n < 2 ^ 32 := by
  have := mant_toInt_bounds m
  have := mant_toInt_bounds (mantSra t n).1
  unfold shiftedSum alignedSum
  split <;> omega

section
variable {m t : Mant} {n : Nat}

/-- Operands of one sign: the sum has it, whatever the rounding. -/
theorem shiftedSum_notWrongInSign_of_signs_agree (h : m.toInt < 0 ↔ t.toInt < 0) :
    NotWrongInSign (shiftedSum m t n) (m.toInt * 2 ^ n + t.toInt) := by
  have hpow : (0 : Int) < 2 ^ n := by positivity
  have hneg : shiftedSum m t n < 0 ↔ m.toInt < 0 := alignedSum_neg_iff _ (by rwa [mantSra_neg_iff])
  refine ⟨fun hS => ?_, fun hS => ?_⟩
  · have hm : 0 ≤ m.toInt := not_lt.mp fun hm => hS.not_gt (hneg.mpr hm)
    have ht : 0 ≤ t.toInt := not_lt.mp fun ht => hm.not_gt (h.mpr ht)
    rcases ht.lt_or_eq with htpos | htzero
    · exact add_pos_of_nonneg_of_pos (mul_nonneg hm hpow.le) htpos
    · obtain rfl : t = 0#32 := BitVec.toInt_inj.mp htzero.symm
      rw [shiftedSum_zero_right] at hS
      rw [BitVec.toInt_zero, add_zero]
      exact mul_pos hS hpow
  · have hm := hneg.mp hS
    exact add_neg (mul_neg_of_neg_of_pos hm hpow) (h.mp hm)

/-- Operands of opposite signs: the sum is the exact one rounded down, and rounding down to an integer makes no number
positive and none negative. -/
theorem shiftedSum_notWrongInSign_of_signs_differ (h : ¬ (m.toInt < 0 ↔ t.toInt < 0)) :
    NotWrongInSign (shiftedSum m t n) (m.toInt * 2 ^ n + t.toInt) := by
  have hpow : (0 : Int) < 2 ^ n := by positivity
  have hfloor : shiftedSum m t n = (m.toInt * 2 ^ n + t.toInt) / 2 ^ n := by
    rw [shiftedSum_eq, if_neg h, Int.add_comm (_ * _), Int.add_mul_ediv_right _ _ hpow.ne', add_comm]
  rw [hfloor]
  refine ⟨fun hS => ?_, lt_imp_lt_of_le_imp_le (Int.ediv_nonneg_iff_of_pos hpow).mpr⟩
  calc (0 : Int) < 1 * 2 ^ n := by rwa [one_mul]
    _ ≤ m.toInt * 2 ^ n + t.toInt := (Int.le_ediv_iff_mul_le hpow).mp hS

end

/-- The rounded sum of two aligned mantissas is 0 or has the sign of the exact one. -/
theorem shiftedSum_notWrongInSign (m t : Mant) (n : Nat) :
    NotWrongInSign (shiftedSum m t n) (m.toInt * 2 ^ n + t.toInt) := by
  by_cases h : m.toInt < 0 ↔ t.toInt < 0
  · exact shiftedSum_notWrongInSign_of_signs_agree h
  · exact shiftedSum_notWrongInSign_of_signs_differ h

theorem value_add_of_exp_eq_add {a b : Flt} {n : Nat} (h : a.exp = b.exp + n) :
    a.value + b.value = ((a.mant.toInt * 2 ^ n + b.mant.toInt : Int) : ℚ) * 2 ^ (b.exp - 30) := by
  rw [Flt.value, Flt.value, h, show b.exp + n - 30 = n + (b.exp - 30) by ring, zpow_add₀ (by norm_num), zpow_natCast]
  push_cast
  ring

/-- The sum that `fp_add` normalizes, for operands in the order of their exponents. -/
theorem fltOfSum_notWrongInSign {a b : Flt} {n : Nat} (h : a.exp = b.exp + n) :
    NotWrongInSign (fltOfSum (shiftedSum a.mant b.mant n) a.exp).value (a.value + b.value) := by
  have hu : (0 : ℚ) < 2 ^ (b.exp - 30) := zpow_pos (by norm_num) _
  obtain ⟨hlo, hhi⟩ := shiftedSum_bounds a.mant b.mant n
  obtain ⟨hneg, hpos⟩ := fltOfSum_mant_sign a.exp hlo hhi
  obtain ⟨hsum_pos, hsum_neg⟩ := shiftedSum_notWrongInSign a.mant b.mant n
  rw [value_add_of_exp_eq_add h]
  refine ⟨fun hv => mul_pos (Int.cast_pos.mpr (hsum_pos ?_)) hu,
    fun hv => mul_neg_of_neg_of_pos (Int.cast_lt_zero.mpr (hsum_neg ?_)) hu⟩
  · rwa [value_pos_iff, hpos] at hv
  · rwa [value_neg_iff, hneg] at hv

/-- The sum of `fp_add` is 0 or has the sign of the exact sum, for any two Floats (R122). -/
theorem fpAdd_notWrongInSign (a b : Flt) : NotWrongInSign (fpAdd a b).value (a.value + b.value) := by
  wlog h : b.exp ≤ a.exp generalizing a b
  · rw [fpAdd_comm, add_comm]
    exact this b a (not_le.mp h).le
  obtain ⟨n, hn⟩ := Int.le.dest h
  rw [fpAdd_of_exp_eq_add hn.symm]
  exact (fpNormalize_notWrongInSign _).trans (fltOfSum_notWrongInSign hn.symm)

/-- `fp_neg` is exact on canonical Floats, whose mantissa is never −2^31 (R120). -/
theorem value_fpNeg {f : Flt} (h : canonical f = true) : (fpNeg f).value = -f.value := by
  have hmin : f.mant ≠ BitVec.intMin 32 := by
    intro hm
    have := neg_two_pow_lt_toInt_of_canonical h
    rw [hm] at this
    exact absurd this (by decide)
  rw [fpNeg, mantNeg_eq_neg, Flt.value, BitVec.toInt_neg_of_ne_intMin hmin, Int.cast_neg, neg_mul, Flt.value]

/-- The difference of `fp_sub` is 0 or has the sign of the exact difference (R124). -/
theorem fpSub_notWrongInSign {a : Flt} (ha : canonical a = true) (b : Flt) :
    NotWrongInSign (fpSub a b).value (a.value - b.value) := by
  have hadd := (fpAdd_notWrongInSign (fpNeg a) b).negate
  rwa [value_fpNeg ha, ← value_fpNeg (canonical_fpAdd _ _), neg_add, neg_neg, ← sub_eq_add_neg] at hadd

end Sys2Proof.Machine

namespace Sys2Proof.Proofs

open Sys2Proof.Machine Sys2Proof.Safety

/-- Settles O37: both operands are read, or one and `set_int` of the immediate, and only IRES is written. -/
theorem compareResults : Obligations.CompareResults := by
  intro rd s a hrd hrun ha
  refine ⟨fun rs b hrs hb => ?_, fun imm => ?_⟩
  · have hwf : ∀ q ∈ [rd, rs], LegalReg q :=
      List.forall_mem_cons.mpr ⟨hrd, List.forall_mem_singleton.mpr hrs⟩
    have hread : readCanonicalPair s rd rs = .ok (a, b) := readCanonicalPair_eq_ok.mpr ⟨ha, hb⟩
    have hnext := exists_next_onlyIres_of_value (fun p : Flt × Flt => BitVec.ofInt 16 (fpCompare p.1 p.2))
      hrun hwf hread (ofInt_fpCompare a b)
    exact ⟨rfl, hnext⟩
  · have hwf : ∀ q ∈ [rd], LegalReg q := List.forall_mem_singleton.mpr hrd
    have hread : readCanonical s rd = .ok a := readCanonical_eq_ok.mpr ha
    have hnext := exists_next_onlyIres_of_value (fun p => BitVec.ofInt 16 (fpCompare p (setInt imm))) hrun hwf hread
      (ofInt_fpCompare a (setInt imm))
    exact ⟨rfl, hnext⟩

/-- Settles O38: each test looks at the halves that it reads, and ISN at the high half alone. -/
theorem signTestResults : Obligations.SignTestResults := by
  intro rd s hrd hrun
  have hwf : ∀ q ∈ [rd], LegalReg q := List.forall_mem_singleton.mpr hrd
  refine ⟨⟨rfl, fun hv => ?_⟩, ⟨rfl, fun hv => ?_⟩, ⟨rfl, fun hv => ?_⟩, exactly_one_sign_test⟩
  · exact exists_next_onlyIres_of_value (fun m => bitHalf (isZero m)) hrun hwf (readMant_eq_ok.mpr ⟨hv, rfl⟩)
      (bitHalf_eq_ite (isZero_mantOf_iff _ _))
  · exact exists_next_onlyIres_of_value (fun h => bitHalf (isNeg (mantOf h 0))) hrun hwf
      (readMsw_eq_ok.mpr ⟨hv, rfl⟩) (bitHalf_eq_ite (by rw [isNeg_mantOf]))
  · exact exists_next_onlyIres_of_value (fun m => bitHalf (isPos m)) hrun hwf (readMant_eq_ok.mpr ⟨hv, rfl⟩)
      (bitHalf_eq_ite (isPos_mantOf_iff _ _))

/-- Settles O53: where the signs differ the alignment rounds down, where they agree the sum has the common sign; the
overflow of the sum keeps that sign, and `normalize` keeps it or gives 0. -/
theorem compareIsNeverWrongInSign : Obligations.CompareIsNeverWrongInSign := by
  intro a b ha _
  have hsub := fpSub_notWrongInSign ha b
  exact ⟨fun h => sub_pos.mp (hsub.pos (value_pos_of_fpCompare h)),
    fun h => sub_neg.mp (hsub.neg (value_neg_of_fpCompare h))⟩

end Sys2Proof.Proofs

namespace Sys2Proof.Machine

open Sys2Proof.Safety

/-! ## Resets (R190) -/

/-- No field of a register is valid (R16). -/
abbrev Unreadable (f : FloatReg) : Prop := f.mswValid = false ∧ f.lswValid = false ∧ f.expValid = false

theorem unreadable_of_reset (r : RegNum) : Unreadable (State.reset.reg r) := by
  rw [State.reset_reg]
  exact ⟨rfl, rfl, rfl⟩

/-! ## The effect of a fault (R178) -/

/-- A command that changes `ERR` has taken the fault that it raises. -/
theorem Effect.onlyErr_of_err_ne {i : Instr} {s t : State} (h : Effect i s t) (hne : t.err ≠ s.err) :
    ∃ e, t.err = errCode e ∧ OnlyErr s t t.err := by
  cases h with
  | fault e => exact ⟨e, rfl, onlyErr_takeFault s e⟩
  | float | raw | ires | text => exact absurd rfl hne

/-! ## The conversions as commands (R158, R167) -/

/-- A half-word that is not negative is the same number signed and unsigned. -/
theorem half_toNat_of_nonneg {h : Half} (hpos : 0 ≤ h.toInt) : h.toInt.toNat = h.toNat := by
  rw [BitVec.toInt_eq_toNat_cond] at hpos ⊢
  split at hpos <;> omega

theorem clampDigits_eq (imm : Half) :
    clampDigits imm = if imm.toInt < 1 then 1 else if 10 < imm.toInt then 10 else imm.toNat := by
  unfold clampDigits
  split
  next => rfl
  next hlo => rw [half_toNat_of_nonneg (by omega)]

/-- A text with an unwritten byte is not read (R42). -/
theorem readText_eq_none {tb : Memory} {n : Nat} (h : ∃ i < n, tb.read i = none) : tb.readText 0 n = none := by
  obtain ⟨i, hi, hnone⟩ := h
  rw [Option.eq_none_iff_forall_ne_some]
  intro cs hcs
  obtain ⟨hlen, hread⟩ := (Memory.readText_eq_some tb 0 n cs).mp hcs
  have hwritten := hread i (by omega)
  rw [Nat.zero_add, hnone] at hwritten
  cases hwritten

/-! ## Infinities and other texts (R159) -/

theorem toText_fltInf (rom : Config.DecRom) (nd : Nat) : toText rom fltInf nd = [0x2B, 0x69, 0x6E, 0x66, 0x2E] := rfl

theorem toText_fltNegInf (rom : Config.DecRom) (nd : Nat) :
    toText rom fltNegInf nd = [0x2D, 0x69, 0x6E, 0x66, 0x2E] := rfl

/-- The magnitude that `to_string` scales (R157 step 2). -/
def fltMagnitude (f : Flt) : Flt := if isNeg f.mant then fpNeg f else f

/-- The text of a Float that is no infinity: a minus, the digits of the scaled magnitude, the exponent. -/
theorem toText_of_finite (rom : Config.DecRom) {f : Flt} (nd : Nat) (hpos : f ≠ fltInf) (hneg : f ≠ fltNegInf) :
    toText rom f nd = (if isNeg f.mant = true then [0x2D] else []) ++
      emitDigits nd true (scaleDecimal rom (fltMagnitude f) nd).1 ++
      emitExponent (if isZero f.mant then 0 else (scaleDecimal rom (fltMagnitude f) nd).2) := by
  rw [toText, if_neg hpos, if_neg hneg]
  rfl

theorem emitExponent_length (e : Int) : (emitExponent e).length = 5 := rfl

/-! ## Operations on equal operands (R195) -/

theorem ne_intMin_of_canonical {f : Flt} (h : canonical f = true) : f.mant ≠ BitVec.intMin 32 := fun hmin =>
  absurd (neg_two_pow_lt_toInt_of_canonical h) (by rw [hmin]; decide)

/-- The negated mantissa and the mantissa add to 0, which is no longer than 32 bits (R124). -/
theorem fpSub_self {x : Flt} (h : canonical x = true) : fpSub x x = fltZero := by
  have hsum : fpAdd (fpNeg x) x = fltZero := by
    rw [fpAdd_of_exp_eq (a := fpNeg x) (b := x) rfl, fpNeg, mantNeg_eq_neg,
      BitVec.toInt_neg_of_ne_intMin (ne_intMin_of_canonical h), neg_add_cancel]
    rfl
  rw [fpSub, hsum]
  rfl

theorem fpCompare_self {x : Flt} (h : canonical x = true) : fpCompare x x = 0 := by
  rw [fpCompare, fpSub_self h]
  rfl

/-- A quotient of equal magnitudes needs no alignment and leaves no remainder (R135). -/
theorem fpDiv_self {x : Flt} (h : canonical x = true) (hz : x.mant ≠ 0) : fpDiv x x = .ok fltOne := by
  obtain ⟨-, hquot⟩ := Proofs.divideRoundsTheExactQuotient x x h h hz _ _ _ rfl rfl rfl
  have hpos : 0 < x.mant.toInt.natAbs := (Nat.two_pow_pos 30).trans_le (le_natAbs_of_canonical h hz)
  have hround (A : Nat) (hA : 0 < A) : (2 * (A * 2 ^ 30) + A) / (2 * A) = 2 ^ 30 := by
    rw [show 2 * (A * 2 ^ 30) + A = A + 2 ^ 30 * (2 * A) by ring, Nat.add_mul_div_right _ _ (by omega),
      Nat.div_eq_of_lt (by omega), zero_add]
  rw [hquot, if_pos Iff.rfl, if_neg (lt_irrefl _), if_neg (lt_irrefl _), hround _ hpos, sub_self]
  rfl

/-- The mantissa −2^31 is rewritten as −2^30 at the next exponent (R110 step 4). -/
theorem fpNormalize_intMin {e : Int} (hlo : -512 ≤ e) (hhi : e < 511) :
    fpNormalize ⟨0x80000000#32, e⟩ = ⟨0xC0000000#32, e + 1⟩ := by
  have hshift : normShift 32 0x80000000#32 e = some ⟨0x80000000#32, e⟩ :=
    if_pos (show signBit 0x80000000#32 ≠ mantBit30 0x80000000#32 by decide)
  rw [fpNormalize_of_normShift_some (f := ⟨0x80000000#32, e⟩) (of_decide_eq_true rfl) (of_decide_eq_true rfl) hshift,
    normFinish, if_pos (show mantIsMaxNeg 0x80000000#32 = true from rfl), if_neg hhi.ne,
    normClamp_of_range (by dsimp only; omega) (by dsimp only; omega)]

/-- Doubling a normalized mantissa leaves 32 bits, but for −2^30, whose double `normalize` writes as −2^30 again
(R122). -/
theorem fpAdd_self {x : Flt} (h : canonical x = true) (hz : x.mant ≠ 0) (hexp : x.exp < 511) :
    fpAdd x x = ⟨x.mant, x.exp + 1⟩ := by
  obtain ⟨⟨hlo, -⟩, ⟨hmant, -⟩ | hn⟩ := (canonical_iff x).mp h
  · exact absurd hmant hz
  have hnext : canonical ⟨x.mant, x.exp + 1⟩ = true :=
    (canonical_iff _).mpr ⟨⟨by dsimp only; omega, by dsimp only; omega⟩, .inr hn⟩
  have hlead := hn.1
  rw [fpAdd_of_exp_eq rfl, fpNormalize_fltOfSum, ← two_mul]
  split
  next hfits =>
    have hm : x.mant = 0xC0000000#32 := BitVec.toInt_inj.mp (show x.mant.toInt = -2 ^ 30 by omega)
    rw [hm]
    exact fpNormalize_intMin hlo hexp
  next =>
    rw [if_neg hexp.ne, Int.mul_ediv_cancel_left _ two_ne_zero, BitVec.ofInt_toInt, fpNormalize_of_canonical hnext]

end Sys2Proof.Machine

namespace Sys2Proof.Proofs

open Sys2Proof.Machine Sys2Proof.Safety

/-- Settles O39: the text has at most 17 characters, so its length fits `TLEN`. -/
theorem f2dResult : Obligations.F2dResult := by
  intro rd imm s f hrd hrun hf
  rw [← clampDigits_eq]
  have hlen := toText_length_le decRom f (clampDigits imm)
  have hdigits := clampDigits_bounds imm
  exact ⟨rfl, _, issue_withRead_ok hrun (List.forall_mem_singleton.mpr hrd) (readCanonical_eq_ok.mpr hf),
    onlyText_putText s _ (by omega)⟩

/-- Settles O55: `emitDigits` answers one character for each digit and the point. -/
theorem decimalTextLengths : Obligations.DecimalTextLengths := by
  intro f nd _ hnd
  refine ⟨fun h => h ▸ toText_fltInf _ _, fun h => h ▸ toText_fltNegInf _ _, fun hpos hneg => ?_⟩
  rw [toText_of_finite _ _ hpos hneg, List.length_append, List.length_append, emitDigits_length, emitExponent_length,
    isNeg, signBit]
  split <;> simp [show 0 < nd by omega, Nat.add_left_comm]

/-- Settles O40: the checks of D2F in their order, `TLEN` first. -/
theorem d2fResult : Obligations.D2fResult := by
  intro rd s hrd hrun
  have hwf : ∀ q ∈ [rd], LegalReg q := List.forall_mem_singleton.mpr hrd
  refine ⟨rfl, fun cs hcs => ⟨canonical_setString decRom cs, _, execD2f_holdsText hrun hwf hcs,
    onlyFloat_putFloat s rd _ hrd⟩, fun hlong => ?_, fun hshort hgap => ?_⟩
  · exact (issue_running hrun hwf).trans (if_pos hlong)
  · refine ((issue_running hrun hwf).trans (if_neg (Nat.not_lt.mpr hshort))).trans ?_
    rw [readText_eq_none hgap]

/-- Settles O14: of all effects only that of a fault writes `ERR`. -/
theorem faultChangesOnlyErr : Obligations.FaultChangesOnlyErr := by
  intro i s t hexec hne
  obtain ⟨-, rfl⟩ | ⟨hrun, -, heff⟩ := exec_next hexec
  · exact absurd rfl hne
  · obtain ⟨e, hcode, honly⟩ := heff.onlyErr_of_err_ne hne
    refine ⟨hrun, ?_, honly⟩
    rw [hcode]
    cases e with
    | divideByZero => exact .inl rfl
    | sqrtOfNegative => exact .inr rfl

/-- Settles O10: a reset keeps nothing of the unit, halted or not, and the rest of the host's list. -/
theorem resetLeavesTheHaltedState : Obligations.ResetLeavesTheHaltedState := by
  intro s rest hhost
  exact ⟨_, step_cons hhost, rfl, rfl, fun _ => rfl, unreadable_of_reset⟩

/-- Settles O49: the exact sum, difference and quotient of equal operands. -/
theorem sameOperandArithmetic : Obligations.SameOperandArithmetic := fun _ h =>
  ⟨fpSub_self h, fpCompare_self h, fun hz => ⟨fpDiv_self h hz, fpAdd_self h hz⟩⟩

/-- Settles O9: reset clears every valid bit and empties the list of text bytes. -/
theorem resetLeavesUnreadableRegisters : Obligations.ResetLeavesUnreadableRegisters :=
  ⟨rfl, fun r _ => unreadable_of_reset r, fun _ => rfl⟩

/-- Settles O12: `ERR` is 0 and an empty text buffer is canonical. -/
theorem resetHasTheInvariant : Obligations.ResetHasTheInvariant := ⟨.inl rfl, rfl⟩

end Sys2Proof.Proofs

namespace Sys2Proof.Machine

open Sys2Proof.Safety

/-! ## Where each phase of the scan stops (R165) -/

section
variable {cs : List Byte}

theorem skipSpaces_of_head (h : ∀ c ∈ cs.head?, isSpaceChar c = false) : skipSpaces cs = cs := by
  cases cs with
  | nil => rfl
  | cons c cs => simp [skipSpaces, h c rfl]

theorem scanSigns_of_head (neg : Bool) (h : ∀ c ∈ cs.head?, isSignChar c = false) : scanSigns neg cs = (neg, cs) := by
  cases cs with
  | nil => rfl
  | cons c cs => simp [scanSigns, h c rfl]

theorem scanInteger_of_head (r : Flt) (h : ∀ c ∈ cs.head?, isDigitChar c = false) : scanInteger r cs = (r, cs) := by
  cases cs with
  | nil => rfl
  | cons c cs => simp [scanInteger, h c rfl]

theorem scanFraction_of_head (rom : Config.DecRom) (place r : Flt) (h : ∀ c ∈ cs.head?, isDigitChar c = false) :
    scanFraction rom place r cs = (r, cs) := by
  cases cs with
  | nil => rfl
  | cons c cs => simp [scanFraction, h c rfl]

theorem scanExponent_of_head (x : Nat) (h : ∀ c ∈ cs.head?, isDigitChar c = false) : scanExponent x cs = x := by
  cases cs with
  | nil => rfl
  | cons c cs => simp [scanExponent, h c rfl]

theorem parseFraction_of_head (rom : Config.DecRom) (r : Flt) (h : ∀ c ∈ cs.head?, c ≠ 0x2E#8) :
    parseFraction rom r cs = (r, cs) := by
  cases cs with
  | nil => rfl
  | cons c cs => simp [parseFraction, h c rfl]

end

theorem parseFraction_point (rom : Config.DecRom) (r : Flt) (cs : List Byte) :
    parseFraction rom r (0x2E :: cs) = scanFraction rom fltOne r cs := rfl

/-! ## A text without a digit in its mantissa (R166) -/

theorem isSpaceChar_of_isSignChar {c : Byte} (h : isSignChar c = true) : isSpaceChar c = false := by
  have hc : c = 0x2B#8 ∨ c = 0x2D#8 := by simpa [isSignChar] using h
  obtain rfl | rfl := hc <;> rfl

theorem skipSpaces_append {ws : List Byte} (hws : ∀ c ∈ ws, isSpaceChar c = true) (cs : List Byte) :
    skipSpaces (ws ++ cs) = skipSpaces cs := by
  induction ws with
  | nil => rfl
  | cons w ws ih =>
    obtain ⟨hw, htail⟩ := List.forall_mem_cons.mp hws
    simp [skipSpaces, hw, ih htail]

/-- The signs are all taken, and which of them is last does not matter to the rest (D21). -/
theorem exists_scanSigns_append {sg cs : List Byte} (hsg : ∀ c ∈ sg, isSignChar c = true)
    (hcs : ∀ c ∈ cs.head?, isSignChar c = false) (neg : Bool) : ∃ neg', scanSigns neg (sg ++ cs) = (neg', cs) := by
  induction sg generalizing neg with
  | nil => exact ⟨neg, scanSigns_of_head neg hcs⟩
  | cons c sg ih =>
    obtain ⟨hc, htail⟩ := List.forall_mem_cons.mp hsg
    obtain ⟨neg', hscan⟩ := ih htail (c == 0x2D#8)
    exact ⟨neg', by simp [scanSigns, hc, hscan]⟩

/-- White space, then signs, are taken off the text; white space behind a sign is not. -/
theorem exists_scanSigns_skipSpaces {ws sg cs : List Byte} (hws : ∀ c ∈ ws, isSpaceChar c = true)
    (hsg : ∀ c ∈ sg, isSignChar c = true) (hsign : ∀ c ∈ cs.head?, isSignChar c = false)
    (hspace : sg = [] → ∀ c ∈ cs.head?, isSpaceChar c = false) :
    ∃ neg, scanSigns false (skipSpaces (ws ++ sg ++ cs)) = (neg, cs) := by
  have hskip : skipSpaces (sg ++ cs) = sg ++ cs := by
    cases sg with
    | nil => exact skipSpaces_of_head (hspace rfl)
    | cons c sg =>
      refine skipSpaces_of_head fun d hd => ?_
      obtain rfl : c = d := by simpa using hd
      exact isSpaceChar_of_isSignChar (hsg c (List.mem_cons_self ..))
  rw [List.append_assoc, skipSpaces_append hws, hskip]
  exact exists_scanSigns_append hsg hsign false

/-- A zero mantissa makes the whole text ZERO, whatever its sign and exponent (R131, R166). -/
theorem setString_of_zero_mantissa (rom : Config.DecRom) {cs rest : List Byte} {neg : Bool}
    (hscan : scanSigns false (skipSpaces cs) = (neg, rest)) (hrest : ∀ c ∈ rest.head?, isDigitChar c = false)
    (hzero : (parseFraction rom fltZero rest).1 = fltZero) : setString rom cs = fltZero := by
  have hsign : (if neg = true then fpNeg fltZero else fltZero) = fltZero := by cases neg <;> rfl
  simp only [setString, hscan, scanInteger_of_head fltZero hrest, hzero, hsign, fpMult_zero_left]

/-! ## A stray character (R165) -/

/-- What a stray character is not. -/
structure Stray (c : Byte) : Prop where
  space : isSpaceChar c = false
  sign : isSignChar c = false
  digit : isDigitChar c = false
  point : c ≠ 0x2E#8
  exponent : ¬ (c = 0x65#8 ∨ c = 0x45#8)

theorem stray_of_isStray {c : Byte} (h : isStray c = true) : Stray c := by
  simp only [isStray, Bool.and_eq_true, Bool.not_eq_true', bne_iff_ne] at h
  obtain ⟨⟨⟨⟨⟨hspace, hsign⟩, hdigit⟩, hpoint⟩, he⟩, hE⟩ := h
  exact ⟨hspace, hsign, hdigit, hpoint, not_or.mpr ⟨he, hE⟩⟩

/-- A fact about a character, as a fact about the first character of the text that it begins. -/
theorem forall_head_cons {p : Byte → Prop} {c : Byte} (hc : p c) (ds : List Byte) : ∀ d ∈ (c :: ds).head?, p d := by
  rintro d ⟨⟩
  exact hc

section
variable {c : Byte} (hc : Stray c) (ds : List Byte)
include hc

theorem skipSpaces_append_stray (cs : List Byte) : skipSpaces (cs ++ c :: ds) = skipSpaces cs ++ c :: ds := by
  induction cs with
  | nil => exact skipSpaces_of_head (forall_head_cons hc.space ds)
  | cons a cs ih =>
    rw [List.cons_append, skipSpaces, skipSpaces, ih]
    split <;> rfl

theorem scanSigns_append_stray (neg : Bool) (cs : List Byte) :
    scanSigns neg (cs ++ c :: ds) = ((scanSigns neg cs).1, (scanSigns neg cs).2 ++ c :: ds) := by
  induction cs generalizing neg with
  | nil => exact scanSigns_of_head neg (forall_head_cons hc.sign ds)
  | cons a cs ih =>
    rw [List.cons_append, scanSigns, scanSigns, ih]
    split <;> rfl

theorem scanInteger_append_stray (r : Flt) (cs : List Byte) :
    scanInteger r (cs ++ c :: ds) = ((scanInteger r cs).1, (scanInteger r cs).2 ++ c :: ds) := by
  induction cs generalizing r with
  | nil => exact scanInteger_of_head r (forall_head_cons hc.digit ds)
  | cons a cs ih =>
    rw [List.cons_append, scanInteger, scanInteger, ih]
    split <;> rfl

theorem scanFraction_append_stray (rom : Config.DecRom) (place r : Flt) (cs : List Byte) :
    scanFraction rom place r (cs ++ c :: ds) =
      ((scanFraction rom place r cs).1, (scanFraction rom place r cs).2 ++ c :: ds) := by
  induction cs generalizing place r with
  | nil => exact scanFraction_of_head rom place r (forall_head_cons hc.digit ds)
  | cons a cs ih =>
    simp only [List.cons_append, scanFraction, ih]
    split <;> rfl

theorem parseFraction_append_stray (rom : Config.DecRom) (r : Flt) (cs : List Byte) :
    parseFraction rom r (cs ++ c :: ds) = ((parseFraction rom r cs).1, (parseFraction rom r cs).2 ++ c :: ds) := by
  cases cs with
  | nil => exact parseFraction_of_head rom r (forall_head_cons (p := (· ≠ 0x2E#8)) hc.point ds)
  | cons a cs =>
    rw [List.cons_append, parseFraction, parseFraction, scanFraction_append_stray hc]
    split <;> rfl

theorem scanExponent_append_stray (x : Nat) (cs : List Byte) : scanExponent x (cs ++ c :: ds) = scanExponent x cs := by
  induction cs generalizing x with
  | nil => exact scanExponent_of_head x (forall_head_cons hc.digit ds)
  | cons a cs ih => rw [List.cons_append, scanExponent, scanExponent, ih]

/-- Behind the letter a stray character is no sign, and ends an exponent without digits. -/
theorem parseExponent_append_stray (cs : List Byte) : parseExponent (cs ++ c :: ds) = parseExponent cs := by
  have hminus : c ≠ 0x2D#8 := fun h => absurd hc.sign (by rw [h]; decide)
  have hplus : c ≠ 0x2B#8 := fun h => absurd hc.sign (by rw [h]; decide)
  match cs with
  | [] => exact if_neg hc.exponent
  | [a] =>
    have hnone : scanExponent 0 (c :: ds) = 0 := scanExponent_append_stray hc ds 0 []
    simp [parseExponent, hminus, hplus, hnone]
  | a :: b :: cs =>
    have hdigits := scanExponent_append_stray hc ds 0 (b :: cs)
    rw [List.cons_append] at hdigits
    simp only [List.cons_append, parseExponent, scanExponent_append_stray hc ds 0 cs, hdigits]

/-- What stands behind a stray character reaches no phase. -/
theorem setString_append_stray (rom : Config.DecRom) (cs : List Byte) :
    setString rom (cs ++ c :: ds) = setString rom cs := by
  simp only [setString, skipSpaces_append_stray hc, scanSigns_append_stray hc, scanInteger_append_stray hc,
    parseFraction_append_stray hc, parseExponent_append_stray hc]

end

end Sys2Proof.Machine

namespace Sys2Proof.Proofs

open Sys2Proof.Machine Sys2Proof.Safety

/-- Settles O57: the scan reaches the rest with the mantissa ZERO, and a point with no digit behind it adds nothing. -/
theorem missingMantissaParsesAsZero : Obligations.MissingMantissaParsesAsZero := by
  intro ws sg rest hws hsg hdigit
  refine ⟨fun hrest => ?_, ?_⟩
  · obtain ⟨neg, hscan⟩ := exists_scanSigns_skipSpaces hws hsg (fun c hc => (hrest c hc).2.1)
      fun hnil c hc => (hrest c hc).2.2 hnil
    refine setString_of_zero_mantissa decRom hscan hdigit ?_
    rw [parseFraction_of_head decRom fltZero fun c hc => (hrest c hc).1]
  · obtain ⟨neg, hscan⟩ := exists_scanSigns_skipSpaces (cs := 0x2E :: rest) hws hsg
      (forall_head_cons (p := (isSignChar · = false)) rfl rest)
      fun _ => forall_head_cons (p := (isSpaceChar · = false)) rfl rest
    refine setString_of_zero_mantissa decRom hscan (forall_head_cons (p := (isDigitChar · = false)) rfl rest) ?_
    rw [parseFraction_point, scanFraction_of_head decRom fltOne fltZero hdigit]

/-- Settles O58: no phase takes a stray character, and none goes on behind it. -/
theorem strayCharacterEndsTheText : Obligations.StrayCharacterEndsTheText := fun cs ds _ hc =>
  setString_append_stray (stray_of_isStray hc) ds decRom cs

end Sys2Proof.Proofs

namespace Sys2Proof.Machine

/-! ## The exponent and the mantissa by the value (R11, R12) -/

theorem eq_fltZero_of_mant_eq_zero {f : Flt} (h : canonical f = true) (hz : f.mant = 0#32) : f = fltZero := by
  obtain ⟨-, ⟨-, hexp⟩ | hn⟩ := (canonical_iff f).mp h
  · obtain ⟨m, e⟩ := f
    subst hz hexp
    rfl
  · exact absurd hz hn.ne_zero

theorem normMant_of_canonical {f : Flt} (h : canonical f = true) (hz : f.mant ≠ 0#32) : NormMant f.mant := by
  obtain ⟨-, ⟨hm, -⟩ | hn⟩ := (canonical_iff f).mp h
  · exact absurd hm hz
  · exact hn

theorem exp_lt_of_abs_value_lt {f : Flt} {k : Int} (h : canonical f = true) (hk : -512 < k)
    (hv : |f.value| < 2 ^ k) : f.exp < k := by
  obtain ⟨-, ⟨-, hexp⟩ | hn⟩ := (canonical_iff f).mp h
  · omega
  · exact (hn.exp_lt_iff k).mpr hv

/-- At exponent 30 the unit of the last place is 1. -/
theorem value_eq_div {f : Flt} {k : Nat} (h : f.exp + k = 30) : f.value = (f.mant.toInt : ℚ) / (2 ^ k : ℤ) := by
  rw [Flt.value, show f.exp - 30 = -(k : Int) by omega, zpow_neg, zpow_natCast, div_eq_mul_inv]
  push_cast
  rfl

theorem mant_of_value_eq_int {f : Flt} {N : Int} {k : Nat} (h : f.exp + k = 30) (hv : f.value = N) :
    f.mant.toInt = N * 2 ^ k := by
  rw [value_eq_div h, div_eq_iff (by positivity)] at hv
  exact_mod_cast hv

/-- The mantissa of an integer below 2^k is that integer shifted left by `31 - k` bits or more. -/
theorem exists_mant_of_int {f : Flt} {N : Int} {k : Nat} (h : canonical f = true) (hv : f.value = N)
    (hN : |N| < 2 ^ k) (hk : k ≤ 30) : ∃ j : Nat, f.exp + j = 30 ∧ 31 - k ≤ j ∧ f.mant.toInt = N * 2 ^ j := by
  have habs : |f.value| < 2 ^ (k : Int) := by
    rw [hv, zpow_natCast, ← Int.cast_abs]
    exact_mod_cast hN
  have hexp := exp_lt_of_abs_value_lt h (by omega) habs
  obtain ⟨j, hj⟩ := Int.eq_ofNat_of_zero_le (show 0 ≤ 30 - f.exp by omega)
  exact ⟨j, by omega, by omega, mant_of_value_eq_int (by omega) hv⟩

/-! ## `normalize` never enlarges a value (R110) -/

theorem abs_value_fltInf : |fltInf.value| < 2 ^ (512 : Int) := abs_value_lt_max le_rfl (by decide)

theorem abs_value_fltNegInf : |fltNegInf.value| < 2 ^ (512 : Int) := abs_value_lt_max le_rfl (by decide)

theorem abs_value_normClamp_le (g : Flt) (h : NormMant g.mant) : |(normClamp g.mant g.exp).value| ≤ |g.value| := by
  have hlarge (hexp : g.exp > Config.maxExp) : 2 ^ (512 : Int) ≤ |g.value| :=
    not_lt.mp (mt (h.exp_lt_iff 512).mpr (by simp only [Config.maxExp] at hexp; omega))
  unfold normClamp
  split
  next => rw [value_fltZero, abs_zero]; exact abs_nonneg _
  next =>
    split
    next hexp =>
      split
      next => exact abs_value_fltNegInf.le.trans (hlarge hexp)
      next => exact abs_value_fltInf.le.trans (hlarge hexp)
    next => exact le_rfl

theorem abs_value_fpNormalize_le (f : Flt) : |(fpNormalize f).value| ≤ |f.value| := by
  rcases fpNormalize_cases f with ⟨hzero, -⟩ | ⟨g, hn, hv, -, hg⟩
  · rw [hzero, value_fltZero, abs_zero]
    exact abs_nonneg _
  · rw [hg, ← hv]
    exact abs_value_normClamp_le g hn

theorem value_fpNormalize_nonneg {f : Flt} (h : 0 ≤ f.value) : 0 ≤ (fpNormalize f).value :=
  not_lt.mp fun hneg => h.not_gt ((fpNormalize_notWrongInSign f).neg hneg)

/-! ## The rounding error of `fp_mult` (R130) -/

theorem value_fltOfMagnitude {q : Nat} (e : Int) (h : q ≤ 2 ^ 31) :
    (fltOfMagnitude q e).value = q * 2 ^ (e - 30) ∧ 0 ≤ (fltOfMagnitude q e).mant.toInt := by
  have hint (p : Nat) (hp : p < 2 ^ 31) : (BitVec.ofNat 32 p).toInt = p :=
    by rw [BitVec.toInt_ofNat', Int.bmod_eq_of_le] <;> omega
  unfold fltOfMagnitude Flt.value
  split
  next hq =>
    rw [hint _ (by norm_num), hq, show e + 1 - 30 = e - 30 + 1 by ring, zpow_add_one₀ (by norm_num)]
    refine ⟨?_, by positivity⟩
    push_cast
    ring
  next hq =>
    rw [hint _ (by omega)]
    exact ⟨rfl, by positivity⟩

/-- The rounded product of two magnitudes differs from the exact one by at most its 2^31-th part, and not at all where
the exact one ends in 31 zeros. -/
theorem value_multMagnitude {P : Nat} (e : Int) (hlo : P = 0 ∨ 2 ^ 60 ≤ P) (hhi : P < 2 ^ 62) :
    ∃ R : Nat, (multMagnitude P e).value = R * 2 ^ (e - 60) ∧ 0 ≤ (multMagnitude P e).mant.toInt ∧
      |(R : Int) - P| * 2 ^ 31 ≤ P ∧ (2 ^ 31 ∣ P → R = P) := by
  unfold multMagnitude
  split
  next hbig =>
    obtain ⟨hv, hpos⟩ := value_fltOfMagnitude (q := (P + 2 ^ 30) / 2 ^ 31) (e + 1) (by omega)
    refine ⟨(P + 2 ^ 30) / 2 ^ 31 * 2 ^ 31, ?_, hpos, by rw [Int.abs_eq_natAbs]; omega, by omega⟩
    rw [hv, show e + 1 - 30 = e - 60 + (31 : Nat) by push_cast; ring, zpow_add₀ (by norm_num), zpow_natCast]
    push_cast
    ring
  next hsmall =>
    obtain ⟨hv, hpos⟩ := value_fltOfMagnitude (q := (P + 2 ^ 29) / 2 ^ 30) e (by omega)
    refine ⟨(P + 2 ^ 29) / 2 ^ 30 * 2 ^ 30, ?_, hpos, by rw [Int.abs_eq_natAbs]; omega, by omega⟩
    rw [hv, show e - 30 = e - 60 + (30 : Nat) by push_cast; ring, zpow_add₀ (by norm_num), zpow_natCast]
    push_cast
    ring

/-- The product that `fp_mult` normalizes (R130). -/
def roundedProduct (a b : Flt) : Flt :=
  let r := multMagnitude (a.mant.toInt.natAbs * b.mant.toInt.natAbs) (a.exp + b.exp)
  ⟨signProduct a.mant b.mant * r.mant, r.exp⟩

theorem roundedProduct_exp (a b : Flt) :
    a.exp + b.exp ≤ (roundedProduct a b).exp ∧ (roundedProduct a b).exp ≤ a.exp + b.exp + 2 := by
  simp only [roundedProduct, multMagnitude, fltOfMagnitude]
  split <;> dsimp only <;> split <;> omega

/-- The sign of a product as a number. -/
def signFactor (x y : Mant) : Int := if x.toInt < 0 ↔ y.toInt < 0 then 1 else -1

theorem mul_eq_signFactor_mul_natAbs (x y : Mant) :
    x.toInt * y.toInt = signFactor x y * ((x.toInt.natAbs * y.toInt.natAbs : ℕ) : Int) := by
  rw [Nat.cast_mul, Int.natCast_natAbs, Int.natCast_natAbs, signFactor]
  rcases lt_or_ge x.toInt 0 with hx | hx <;> rcases lt_or_ge y.toInt 0 with hy | hy <;>
    simp [hx, hy, hx.not_gt, hy.not_gt, abs_of_neg, abs_of_nonneg]

theorem abs_signFactor (x y : Mant) : |signFactor x y| = 1 := by
  unfold signFactor
  split <;> rfl

theorem toInt_signProduct_mul {x y m : Mant} (h : 0 ≤ m.toInt) :
    (signProduct x y * m).toInt = signFactor x y * m.toInt := by
  have hmin : m ≠ BitVec.intMin 32 := by rintro rfl; exact absurd h (by decide)
  unfold signProduct signFactor
  split
  · rw [show (1 : Mant) * m = m from one_mul m, one_mul]
  · rw [show (-1 : Mant) * m = -m from neg_one_mul m, BitVec.toInt_neg_of_ne_intMin hmin, neg_one_mul]

theorem value_mul (a b : Flt) :
    a.value * b.value = (a.mant.toInt * b.mant.toInt : Int) * 2 ^ (a.exp + b.exp - 60) := by
  rw [Flt.value, Flt.value, show a.exp + b.exp - 60 = (a.exp - 30) + (b.exp - 30) by ring, zpow_add₀ (by norm_num)]
  push_cast
  ring

section
variable {a b : Flt} (ha : canonical a = true) (hb : canonical b = true)
include ha hb

theorem fpMult_eq_fpNormalize : fpMult a b = fpNormalize (roundedProduct a b) :=
  fpMult_eq (natAbs_lt_of_canonical ha) (natAbs_lt_of_canonical hb) rfl

/-- The magnitudes of canonical Floats have their leading bits at bit 30, or are 0. -/
theorem natAbs_mul_bounds :
    (a.mant.toInt.natAbs * b.mant.toInt.natAbs = 0 ∨ 2 ^ 60 ≤ a.mant.toInt.natAbs * b.mant.toInt.natAbs) ∧
      a.mant.toInt.natAbs * b.mant.toInt.natAbs < 2 ^ 62 := by
  have hA := natAbs_lt_of_canonical ha
  have hB := natAbs_lt_of_canonical hb
  refine ⟨?_, (Nat.mul_lt_mul'' hA hB).trans_eq (by norm_num)⟩
  by_cases hza : a.mant = 0#32
  · exact .inl (by simp [hza])
  by_cases hzb : b.mant = 0#32
  · exact .inl (by simp [hzb])
  have hlead := Nat.mul_le_mul (le_natAbs_of_canonical ha hza) (le_natAbs_of_canonical hb hzb)
  exact .inr ((by norm_num : 2 ^ 60 = 2 ^ 30 * 2 ^ 30).trans_le hlead)

/-- The relative error of one rounding, and where there is none. -/
theorem value_roundedProduct :
    |(roundedProduct a b).value - a.value * b.value| ≤ |a.value * b.value| / 2 ^ 31 ∧
      (2 ^ 31 ∣ a.mant.toInt * b.mant.toInt → (roundedProduct a b).value = a.value * b.value) := by
  obtain ⟨hlo, hhi⟩ := natAbs_mul_bounds ha hb
  obtain ⟨R, hv, hpos, herr, hexact⟩ := value_multMagnitude (a.exp + b.exp) hlo hhi
  have hround : (roundedProduct a b).value =
      (signFactor a.mant b.mant * R : Int) * 2 ^ (a.exp + b.exp - 60) := by
    rw [Int.cast_mul, mul_assoc, Int.cast_natCast, ← hv, roundedProduct, Flt.value, toInt_signProduct_mul hpos,
      Int.cast_mul, mul_assoc, Flt.value]
  rw [hround, value_mul]
  refine ⟨?_, fun hdvd => ?_⟩
  · have hu : (0 : ℚ) < 2 ^ (a.exp + b.exp - 60) := zpow_pos (by norm_num) _
    have hq := (Int.cast_le (R := ℚ)).mpr herr
    rw [← sub_mul, ← Int.cast_sub, mul_eq_signFactor_mul_natAbs, ← mul_sub, abs_mul, abs_mul, abs_of_pos hu,
      ← Int.cast_abs, ← Int.cast_abs, abs_mul, abs_mul, abs_signFactor, one_mul, one_mul, mul_div_right_comm]
    gcongr
    rw [le_div_iff₀ (by norm_num), Int.abs_natCast]
    push_cast at hq ⊢
    exact hq
  · have hP : 2 ^ 31 ∣ a.mant.toInt.natAbs * b.mant.toInt.natAbs := by
      rw [← Int.natAbs_mul]
      exact Int.natCast_dvd.mp hdvd
    rw [hexact hP, mul_eq_signFactor_mul_natAbs]

/-- One product has a relative error of at most 2^−31, and `normalize` can only make it smaller. -/
theorem abs_value_fpMult_le : |(fpMult a b).value| ≤ |a.value * b.value| * (1 + 1 / 2 ^ 31) := by
  obtain ⟨herr, -⟩ := value_roundedProduct ha hb
  have hround := abs_sub_abs_le_abs_sub (roundedProduct a b).value (a.value * b.value)
  have hnorm := abs_value_fpNormalize_le (roundedProduct a b)
  rw [fpMult_eq_fpNormalize ha hb]
  linarith

theorem value_fpMult_nonneg (hpos : 0 ≤ a.value * b.value) : 0 ≤ (fpMult a b).value := by
  obtain ⟨herr, -⟩ := value_roundedProduct ha hb
  rw [fpMult_eq_fpNormalize ha hb]
  rw [abs_of_nonneg hpos] at herr
  have hlow := (abs_le.mp herr).1
  exact value_fpNormalize_nonneg (by linarith)

section
variable (hlo : -480 ≤ a.exp + b.exp) (hhi : a.exp + b.exp ≤ 508)
include hlo hhi

theorem value_fpMult : (fpMult a b).value = (roundedProduct a b).value := by
  have hexp := roundedProduct_exp a b
  rw [fpMult_eq_fpNormalize ha hb, value_fpNormalize (by omega) (by omega)]

theorem value_fpMult_of_dvd (hdvd : 2 ^ 31 ∣ a.mant.toInt * b.mant.toInt) :
    (fpMult a b).value = a.value * b.value :=
  (value_fpMult ha hb hlo hhi).trans ((value_roundedProduct ha hb).2 hdvd)

theorem abs_value_fpMult_sub_le : |(fpMult a b).value - a.value * b.value| ≤ |a.value * b.value| / 2 ^ 31 := by
  rw [value_fpMult ha hb hlo hhi]
  exact (value_roundedProduct ha hb).1

end

end

end Sys2Proof.Machine

namespace Sys2Proof.Machine

open Sys2Proof.Safety

/-! ## Sums without rounding (R122) -/

/-- Where the shift drops only zeros, there is nothing to round. -/
theorem shiftedSum_of_dvd {m t : Mant} {n : Nat} {T : Int} (h : t.toInt = T * 2 ^ n) :
    shiftedSum m t n = m.toInt + T := by
  have hpow : (0 : Int) < 2 ^ n := by positivity
  have hround : (2 * (T * 2 ^ n) + 2 ^ n) / 2 ^ (n + 1) = T := by
    rw [show 2 * (T * 2 ^ n) + 2 ^ n = 2 ^ n + T * 2 ^ (n + 1) by ring, Int.add_mul_ediv_right _ _ (by positivity),
      Int.ediv_eq_zero_of_lt hpow.le (by rw [pow_succ]; omega), zero_add]
  rw [shiftedSum_eq, h, hround, Int.mul_ediv_cancel _ hpow.ne', ite_self]

/-- A sum that fits, or is even, is kept: halving an even sum loses nothing (R122). -/
theorem value_fltOfSum {S e : Int} (hlo : -2 ^ 32 ≤ S) (hhi : S < 2 ^ 32) (he : e ≠ 511) (h : FitsMant S ∨ 2 ∣ S) :
    (fltOfSum S e).value = S * 2 ^ (e - 30) ∧ e ≤ (fltOfSum S e).exp ∧ (fltOfSum S e).exp ≤ e + 1 := by
  unfold fltOfSum
  split
  next hfits => exact ⟨value_ofInt hfits e, le_rfl, by dsimp only; omega⟩
  next hover =>
    obtain ⟨H, rfl⟩ := h.resolve_left hover
    rw [Int.mul_ediv_cancel_left H two_ne_zero, value_ofInt (by omega),
      show e + 1 - 30 = e - 30 + 1 by ring, zpow_add_one₀ (by norm_num)]
    refine ⟨?_, by dsimp only; omega, le_rfl⟩
    push_cast
    ring

/-- `fp_add` is exact where the smaller operand's mantissa ends in as many zeros as it is shifted, and the sum fits or
is even. -/
theorem value_fpAdd_of_dvd {a b : Flt} {n : Nat} {T : Int} (h : a.exp = b.exp + n)
    (hb : b.mant.toInt = T * 2 ^ n) (hlo : -480 ≤ a.exp) (hhi : a.exp ≤ 509)
    (hS : FitsMant (a.mant.toInt + T) ∨ 2 ∣ a.mant.toInt + T) : (fpAdd a b).value = a.value + b.value := by
  have hsum := shiftedSum_of_dvd (m := a.mant) hb
  obtain ⟨hmin, hmax⟩ := shiftedSum_bounds a.mant b.mant n
  rw [hsum] at hmin hmax
  obtain ⟨hv, hlow, hhigh⟩ := value_fltOfSum hmin hmax (e := a.exp) (by omega) hS
  have hb' : b.value = T * 2 ^ (a.exp - 30) := by
    rw [Flt.value, hb, h, show b.exp + n - 30 = n + (b.exp - 30) by ring, zpow_add₀ (by norm_num), zpow_natCast]
    push_cast
    ring
  rw [fpAdd_of_exp_eq_add h, hsum, value_fpNormalize (by omega) (by omega), hv, hb', Flt.value]
  push_cast
  ring

/-! ## Arithmetic on Floats of integers (R166) -/

/-- A canonical Float of an integer. -/
structure IsInt (f : Flt) (N : Int) : Prop where
  canon : canonical f = true
  value : f.value = N

theorem isInt_setInt (i : Half) : IsInt (setInt i) i.toInt := ⟨canonical_setInt i, value_setInt i⟩

theorem isInt_zero : IsInt fltZero 0 := ⟨rfl, by rw [value_fltZero, Int.cast_zero]⟩

theorem IsInt.eq_fltZero {f : Flt} (h : IsInt f 0) : f = fltZero := by
  apply eq_fltZero_of_mant_eq_zero h.canon
  have hv := h.value
  rw [Int.cast_zero, Flt.value, mul_eq_zero_iff_right (zpow_ne_zero _ (by norm_num)), Int.cast_eq_zero] at hv
  exact BitVec.toInt_inj.mp hv

theorem IsInt.exp_nonneg {f : Flt} {N : Int} (h : IsInt f N) (hN : N ≠ 0) : 0 ≤ f.exp := by
  have hz : f.mant ≠ 0#32 := fun hz => hN <| by
    have hv := h.value
    rw [eq_fltZero_of_mant_eq_zero h.canon hz, value_fltZero] at hv
    exact_mod_cast hv.symm
  have habs : 1 ≤ |f.value| := by
    rw [h.value, ← Int.cast_abs]
    exact_mod_cast Int.one_le_abs hN
  exact not_lt.mp fun hlt => habs.not_gt (((normMant_of_canonical h.canon hz).exp_lt_iff 0).mp hlt)

theorem fpMult_zero_right {a : Flt} (h : canonical a = true) : fpMult a fltZero = fltZero :=
  (Proofs.multiplyIsCommutativeWithUnitAndZero a a h h).2.2

/-- Two integers below 2^30 add exactly. -/
theorem IsInt.add {a b : Flt} {M N : Int} (ha : IsInt a M) (hb : IsInt b N) (hM : |M| < 2 ^ 30) (hN : |N| < 2 ^ 30) :
    IsInt (fpAdd a b) (M + N) := by
  wlog h : b.exp ≤ a.exp generalizing a b M N
  · rw [fpAdd_comm, add_comm]
    exact this hb ha hN hM (not_le.mp h).le
  obtain rfl | hM0 := eq_or_ne M 0
  · rw [ha.eq_fltZero, fpAdd_comm, fpAdd_zero hb.canon, zero_add]
    exact hb
  refine ⟨canonical_fpAdd a b, ?_⟩
  have hexp := ha.exp_nonneg hM0
  obtain ⟨n, hn⟩ := Int.le.dest h
  obtain ⟨j, hj, hj1, hmant⟩ := exists_mant_of_int ha.canon ha.value hM le_rfl
  have hb' : b.mant.toInt = N * 2 ^ j * 2 ^ n := by
    rw [mul_assoc, ← pow_add]
    exact mant_of_value_eq_int (by push_cast; omega) hb.value
  have heven : (2 : Int) ∣ a.mant.toInt + N * 2 ^ j := by
    rw [hmant, ← add_mul]
    exact (dvd_pow_self 2 (by omega)).mul_left _
  rw [value_fpAdd_of_dvd hn.symm hb' (by omega) (by omega) (.inr heven), ha.value, hb.value, Int.cast_add]

/-- Two integers whose bits together are no more than those of a mantissa multiply exactly. -/
theorem IsInt.mul {a b : Flt} {M N : Int} {k l : Nat} (ha : IsInt a M) (hb : IsInt b N) (hM : |M| < 2 ^ k)
    (hN : |N| < 2 ^ l) (hk : k ≤ 30) (hl : l ≤ 30) (hkl : k + l ≤ 31) : IsInt (fpMult a b) (M * N) := by
  obtain rfl | hM0 := eq_or_ne M 0
  · rw [ha.eq_fltZero, fpMult_zero_left, zero_mul]
    exact isInt_zero
  obtain rfl | hN0 := eq_or_ne N 0
  · rw [hb.eq_fltZero, fpMult_zero_right ha.canon, mul_zero]
    exact isInt_zero
  refine ⟨canonical_fpMult a b, ?_⟩
  have hea := ha.exp_nonneg hM0
  have heb := hb.exp_nonneg hN0
  obtain ⟨i, hi, hi1, hmanta⟩ := exists_mant_of_int ha.canon ha.value hM hk
  obtain ⟨j, hj, hj1, hmantb⟩ := exists_mant_of_int hb.canon hb.value hN hl
  have hdvd : 2 ^ 31 ∣ a.mant.toInt * b.mant.toInt := by
    rw [hmanta, hmantb, mul_mul_mul_comm, ← pow_add]
    exact (pow_dvd_pow 2 (by omega)).mul_left _
  rw [value_fpMult_of_dvd ha.canon hb.canon (by omega) (by omega) hdvd, ha.value, hb.value, Int.cast_mul]

/-! ## The integer digits of a text (R165, R166) -/

theorem digit_bounds {c : Byte} (h : isDigitChar c = true) : 0x30 ≤ c.toNat ∧ c.toNat ≤ 0x39 := by
  simpa [isDigitChar] using h

theorem digitOf_le_nine {c : Byte} (h : isDigitChar c = true) : digitOf c ≤ 9 := by
  have := digit_bounds h
  unfold digitOf
  omega

theorem isInt_digitFlt {c : Byte} (h : isDigitChar c = true) : IsInt (digitFlt c) (digitOf c) := by
  have hle := digitOf_le_nine h
  have hint : (BitVec.ofNat 16 (digitOf c)).toInt = digitOf c := by
    rw [BitVec.toInt_ofNat', Int.bmod_eq_of_le] <;> omega
  rw [← hint]
  exact isInt_setInt _

theorem not_space_nor_sign_of_digit {c : Byte} (h : isDigitChar c = true) :
    isSpaceChar c = false ∧ isSignChar c = false := by
  have hbounds := digit_bounds h
  have hne (b : Byte) (hb : b.toNat < 0x30) : (c == b) = false := beq_eq_false_iff_ne.mpr fun hc => by
    rw [hc] at hbounds
    omega
  simp [isSpaceChar, isSignChar, hne, show ¬ c.toNat ≤ 13 by omega]

theorem isInt_ten : IsInt (setInt 10) 10 := isInt_setInt 10

/-- As long as the number stays below 10^9, every digit is taken in exactly. -/
theorem scanInteger_digits {r : Flt} {n : Nat} {cs : List Byte} (hr : IsInt r n)
    (hn : (n + 1) * 10 ^ cs.length ≤ 10 ^ 9) (hcs : ∀ c ∈ cs, isDigitChar c = true) :
    ∃ r', scanInteger r cs = (r', []) ∧ IsInt r' (decimalNumber n cs) := by
  induction cs generalizing r n with
  | nil => exact ⟨r, rfl, hr⟩
  | cons c cs ih =>
    obtain ⟨hc, htail⟩ := List.forall_mem_cons.mp hcs
    have hd := digitOf_le_nine hc
    have hroom : (n * 10 + digitOf c + 1) * 10 ^ cs.length ≤ 10 ^ 9 := by
      calc (n * 10 + digitOf c + 1) * 10 ^ cs.length ≤ ((n + 1) * 10) * 10 ^ cs.length := by gcongr; omega
        _ = (n + 1) * 10 ^ (cs.length + 1) := by ring
        _ ≤ 10 ^ 9 := hn
    have hsmall : n * 10 + digitOf c + 1 ≤ 10 ^ 9 := (Nat.le_mul_of_pos_right _ (by positivity)).trans hroom
    have hmul : IsInt (fpMult r (setInt 10)) (n * 10) :=
      hr.mul (k := 27) (l := 4) isInt_ten (abs_lt.mpr ⟨by omega, by omega⟩) (by norm_num) (by norm_num) (by norm_num)
        (by norm_num)
    have hadd := hmul.add (isInt_digitFlt hc) (abs_lt.mpr ⟨by omega, by omega⟩) (abs_lt.mpr ⟨by omega, by omega⟩)
    obtain ⟨r', hscan, hr'⟩ := ih (n := n * 10 + digitOf c) (by exact_mod_cast hadd) hroom htail
    exact ⟨r', by rw [scanInteger, if_pos hc, hscan], hr'⟩

theorem powLoop_zero (ps : List Flt) (r : Flt) : powLoop ps 0 r = r := by
  induction ps with
  | nil => rfl
  | cons p ps ih => exact ih

theorem setPow10_zero (rom : Config.DecRom) : setPow10 rom 0 = fltOne := powLoop_zero _ _

/-- A text without a fraction and an exponent is its integer, with its sign (R166). -/
theorem setString_of_integer (rom : Config.DecRom) {cs ds : List Byte} {neg : Bool} {r : Flt}
    (hsign : scanSigns false (skipSpaces cs) = (neg, ds)) (hint : scanInteger fltZero ds = (r, []))
    (hr : canonical r = true) : setString rom cs = if neg = true then fpNeg r else r := by
  have hcanon : canonical (if neg = true then fpNeg r else r) = true := by
    split
    · exact canonical_fpNeg hr
    · exact hr
  simp only [setString, hsign, hint, parseFraction, parseExponent, setPow10_zero]
  rw [fpMult_one (natAbs_lt_of_canonical hcanon), fpNormalize_of_canonical hcanon]

end Sys2Proof.Machine

namespace Sys2Proof.Proofs

open Sys2Proof.Machine Sys2Proof.Safety

/-- Settles O59: nine digits need at most 30 bits, so neither the products by 10 nor the sums are rounded. -/
theorem integerTextsParseExactly : Obligations.IntegerTextsParseExactly := by
  intro cs hlen hcs
  have hroom : (0 + 1) * 10 ^ cs.length ≤ 10 ^ 9 := by
    rw [zero_add, one_mul]
    exact Nat.pow_le_pow_right (by norm_num) hlen
  obtain ⟨r, hint, hr⟩ := scanInteger_digits (n := 0) isInt_zero hroom hcs
  have hhead : ∀ c ∈ cs.head?, isSpaceChar c = false ∧ isSignChar c = false := fun c hc =>
    not_space_nor_sign_of_digit (hcs c (List.mem_of_mem_head? hc))
  have hsigns (neg : Bool) : scanSigns neg cs = (neg, cs) := scanSigns_of_head neg fun c hc => (hhead c hc).2
  have hplain : scanSigns false (skipSpaces cs) = (false, cs) := by
    rw [skipSpaces_of_head fun c hc => (hhead c hc).1, hsigns]
  have hminus : scanSigns false (skipSpaces (0x2D :: cs)) = (true, cs) := hsigns true
  constructor
  · rw [setString_of_integer decRom hplain hint hr.canon]
    exact_mod_cast hr.value
  · rw [setString_of_integer decRom hminus hint hr.canon, if_pos rfl, value_fpNeg hr.canon, hr.value]
    push_cast
    rfl

end Sys2Proof.Proofs

namespace Sys2Proof.Machine

/-! ## A sum is at most twice the exact one (R122) -/

/-- What `fltOfSum` does to a sum that is not negative: it keeps it, halves it rounding down, or saturates. -/
theorem value_fltOfSum_le {S : Int} (e : Int) (h0 : 0 ≤ S) (hhi : S < 2 ^ 32) :
    (fltOfSum S e).value ≤ S * 2 ^ (e - 30) := by
  have hu : (0 : ℚ) < 2 ^ (e - 30) := zpow_pos (by norm_num) _
  unfold fltOfSum
  split
  next hfits => exact (value_ofInt hfits e).le
  next hover =>
    split
    next he =>
      rw [if_neg h0.not_gt, he, show fltInf.value = (2 ^ 31 - 1 : ℤ) * 2 ^ (511 - 30 : ℤ) from rfl]
      gcongr
      omega
    next =>
      rw [value_ofInt (by omega), show e + 1 - 30 = e - 30 + 1 by ring, zpow_add_one₀ (by norm_num), mul_left_comm,
        mul_comm]
      gcongr
      have : S / 2 * 2 ≤ S := Int.ediv_mul_le S two_ne_zero
      exact_mod_cast this

/-- The round bit adds half a unit of the larger operand, which is no more than that operand. -/
theorem shiftedSum_le {a b : Flt} {n : Nat} (ha : canonical a = true) (hb : canonical b = true)
    (hpa : 0 ≤ a.mant.toInt) (hpb : 0 ≤ b.mant.toInt) (h : a.exp = b.exp + n) :
    shiftedSum a.mant b.mant n * 2 ^ n ≤ 2 * (a.mant.toInt * 2 ^ n + b.mant.toInt) := by
  by_cases hz : a.mant = 0#32
  · obtain rfl : n = 0 := by
      have := ((canonical_iff b).mp hb).1
      rw [eq_fltZero_of_mant_eq_zero ha hz] at h
      simp only [fltZero, Config.minExp] at h
      omega
    rw [shiftedSum_no_shift]
    omega
  have hlead : 2 ^ 30 ≤ a.mant.toInt := le_toInt_of_canonical ha hpa hz
  have hpow : (0 : Int) < 2 ^ n := by positivity
  have hdiv := Int.ediv_mul_le (2 * b.mant.toInt + 2 ^ n) (show (2 : Int) ^ (n + 1) ≠ 0 by positivity)
  rw [shiftedSum_eq, if_pos (by omega)]
  rw [pow_succ] at hdiv ⊢
  nlinarith

/-! ## Bounds on the results of a calculation with Floats that are not negative -/

/-- A canonical Float between 0 and `x`. -/
structure Within (f : Flt) (x : ℚ) : Prop where
  canon : canonical f = true
  nonneg : 0 ≤ f.value
  le : f.value ≤ x

/-- What one rounding can add to a product: its 2^31-th part (R130). -/
def roundingFactor : ℚ := 1 + 1 / 2 ^ 31

theorem one_le_roundingFactor : 1 ≤ roundingFactor := by norm_num [roundingFactor]

section
variable {a b : Flt} {x y : ℚ}

theorem Within.mono (h : Within a x) (hxy : x ≤ y) : Within a y := ⟨h.canon, h.nonneg, h.le.trans hxy⟩

theorem Within.bound_nonneg (h : Within a x) : 0 ≤ x := h.nonneg.trans h.le

theorem Within.mult (ha : Within a x) (hb : Within b y) : Within (fpMult a b) (x * y * roundingFactor) := by
  have hpos := mul_nonneg ha.nonneg hb.nonneg
  refine ⟨canonical_fpMult a b, value_fpMult_nonneg ha.canon hb.canon hpos, ?_⟩
  have hle := (le_abs_self _).trans (abs_value_fpMult_le ha.canon hb.canon)
  rw [abs_of_nonneg hpos] at hle
  exact hle.trans (mul_le_mul_of_nonneg_right (mul_le_mul ha.le hb.le hb.nonneg ha.bound_nonneg)
    (zero_le_one.trans one_le_roundingFactor))

theorem value_fpAdd_le (ha : canonical a = true) (hb : canonical b = true) (hpa : 0 ≤ a.value) (hpb : 0 ≤ b.value) :
    (fpAdd a b).value ≤ 2 * (a.value + b.value) := by
  wlog h : b.exp ≤ a.exp generalizing a b
  · rw [fpAdd_comm, add_comm]
    exact this hb ha hpb hpa (not_le.mp h).le
  obtain ⟨n, hn⟩ := Int.le.dest h
  have hA := (value_nonneg_iff a).mp hpa
  have hB := (value_nonneg_iff b).mp hpb
  have hu : (0 : ℚ) < 2 ^ (b.exp - 30) := zpow_pos (by norm_num) _
  have hS : 0 ≤ shiftedSum a.mant b.mant n :=
    not_lt.mp fun hneg => ((shiftedSum_notWrongInSign a.mant b.mant n).neg hneg).not_ge (by positivity)
  have hint := (Int.cast_le (R := ℚ)).mpr (shiftedSum_le ha hb hA hB hn.symm)
  rw [fpAdd_of_exp_eq_add hn.symm]
  calc (fpNormalize (fltOfSum (shiftedSum a.mant b.mant n) a.exp)).value
      ≤ |(fltOfSum (shiftedSum a.mant b.mant n) a.exp).value| := (le_abs_self _).trans (abs_value_fpNormalize_le _)
    _ = (fltOfSum (shiftedSum a.mant b.mant n) a.exp).value := by
        obtain ⟨hlo, hhi⟩ := shiftedSum_bounds a.mant b.mant n
        refine abs_of_nonneg ((value_nonneg_iff _).mpr (not_lt.mp fun hneg => ?_))
        exact hS.not_gt ((fltOfSum_mant_sign a.exp hlo hhi).1.mp hneg)
    _ ≤ shiftedSum a.mant b.mant n * 2 ^ (a.exp - 30) := value_fltOfSum_le a.exp hS (shiftedSum_bounds _ _ _).2
    _ = (shiftedSum a.mant b.mant n * 2 ^ n : ℤ) * 2 ^ (b.exp - 30) := by
        rw [← hn, show b.exp + n - 30 = n + (b.exp - 30) by ring, zpow_add₀ (by norm_num), zpow_natCast]
        push_cast
        ring
    _ ≤ (2 * (a.mant.toInt * 2 ^ n + b.mant.toInt) : ℤ) * 2 ^ (b.exp - 30) := by gcongr
    _ = 2 * (a.value + b.value) := by
        rw [value_add_of_exp_eq_add hn.symm, Int.cast_mul, mul_assoc]
        rfl

theorem Within.add (ha : Within a x) (hb : Within b y) : Within (fpAdd a b) (2 * (x + y)) := by
  refine ⟨canonical_fpAdd a b, not_lt.mp fun hneg => ?_,
    (value_fpAdd_le ha.canon hb.canon ha.nonneg hb.nonneg).trans (by gcongr; exacts [ha.le, hb.le])⟩
  exact ((fpAdd_notWrongInSign a b).neg hneg).not_ge (add_nonneg ha.nonneg hb.nonneg)

end

theorem value_fltOne : fltOne.value = 1 := by
  rw [Flt.value, show fltOne.mant.toInt = 2 ^ 30 from rfl, show fltOne.exp - 30 = -(30 : ℕ) from rfl, zpow_neg,
    zpow_natCast]
  norm_num

theorem within_one : Within fltOne 1 := ⟨rfl, by rw [value_fltOne]; norm_num, value_fltOne.le⟩

theorem isInt_one : IsInt (setInt 1) 1 := isInt_setInt 1

theorem within_ten : Within (setInt 10) 10 := by
  have hv := isInt_ten.value
  exact ⟨isInt_ten.canon, by rw [hv]; norm_num, by rw [hv]; norm_num⟩

/-- A compare that answers −1 tells the truth (R145). -/
theorem value_lt_of_fpCompare_neg {a b : Flt} (ha : canonical a = true) (hb : canonical b = true)
    (h : fpCompare a b < 0) : a.value < b.value := by
  refine (Proofs.compareIsNeverWrongInSign a b ha hb).2 ?_
  simp only [fpCompare] at h ⊢
  split
  next => rfl
  next hneg =>
    rw [if_neg hneg] at h
    split at h <;> omega

/-! ## Powers of ten (R155) -/

/-- A table whose entries are, but for one rounding, at most x, x^2, x^4, … -/
def PowersWithin : ℚ → List Flt → Prop
  | _, [] => True
  | x, p :: ps => Within p (x * roundingFactor) ∧ PowersWithin (x ^ 2) ps

/-- Each bit of the exponent costs one product, with its rounding and that of the table entry. -/
theorem within_powLoop {ps : List Flt} {n : Nat} {x y : ℚ} {r : Flt} (hy : 0 < y) (hps : PowersWithin y ps)
    (hn : n < 2 ^ ps.length) (hr : Within r x) :
    Within (powLoop ps n r) (x * y ^ n * roundingFactor ^ (2 * ps.length)) := by
  induction ps generalizing n x y r with
  | nil =>
    obtain rfl : n = 0 := by simpa using hn
    simpa [powLoop] using hr
  | cons p ps ih =>
    obtain ⟨hp, htail⟩ := hps
    rw [List.length_cons, pow_succ] at hn
    have hstep : Within (if n % 2 = 1 then fpMult r p else r) (x * y ^ (n % 2) * roundingFactor ^ 2) := by
      split
      next hbit =>
        rw [hbit, pow_one]
        exact (hr.mult hp).mono (le_of_eq (by ring))
      next hbit =>
        rw [show n % 2 = 0 by omega, pow_zero, mul_one]
        exact hr.mono (le_mul_of_one_le_right hr.bound_nonneg (one_le_pow₀ one_le_roundingFactor))
    refine (ih (by positivity) htail (by omega) hstep).mono (le_of_eq ?_)
    rw [← pow_mul]
    calc x * y ^ (n % 2) * roundingFactor ^ 2 * y ^ (2 * (n / 2)) * roundingFactor ^ (2 * ps.length)
        = x * y ^ (n % 2 + 2 * (n / 2)) * roundingFactor ^ (2 * (ps.length + 1)) := by ring
      _ = _ := by rw [Nat.mod_add_div]; rfl

/-- The Float nearest to a ratio exceeds it by less than one rounding: half a unit of its last place (R22). -/
theorem within_of_nearestToRatio {f : Flt} {a b : Nat} (h : nearestToRatio f a b = true) :
    Within f (a / b * roundingFactor) := by
  simp only [nearestToRatio, Bool.and_eq_true, Bool.or_eq_true, decide_eq_true_eq] at h
  obtain ⟨⟨hb, hc⟩, hnear⟩ := h
  have hs : (0 : ℚ) < 2 ^ (30 - f.exp).toNat := by positivity
  have hulp : (2 : ℚ) ^ (f.exp - 30) = 2 ^ (f.exp - 30).toNat / 2 ^ (30 - f.exp).toNat := by
    rw [← zpow_natCast, ← zpow_natCast, ← zpow_sub₀ (by norm_num)]
    congr 1
    omega
  have hm : 2 ^ 30 ≤ f.mant.toInt := hnear.elim (fun h => h.1.le) fun h => h.1
  refine ⟨hc, (value_nonneg_iff f).mpr (by omega), ?_⟩
  have hint : 2 ^ 31 * ((b * 2 ^ (f.exp - 30).toNat : ℤ) * f.mant.toInt) ≤
      (2 ^ 31 + 1) * (a * 2 ^ (30 - f.exp).toNat : ℤ) := by
    have hden : (0 : ℤ) ≤ b * 2 ^ (f.exp - 30).toNat := by positivity
    have hnum : (0 : ℤ) ≤ a * 2 ^ (30 - f.exp).toNat := by positivity
    generalize (b * 2 ^ (f.exp - 30).toNat : ℤ) = den at *
    generalize (a * 2 ^ (30 - f.exp).toNat : ℤ) = num at *
    obtain ⟨hlead, hclose⟩ | ⟨-, rfl⟩ := hnear
    · have hbig : den * (2 ^ 30 + 1) ≤ den * f.mant.toInt := mul_le_mul_of_nonneg_left hlead hden
      have habs := neg_abs_le (num - den * f.mant.toInt)
      linarith
    · linarith
  have hq := (Int.cast_le (R := ℚ)).mpr hint
  have hb' : (0 : ℚ) < b := by exact_mod_cast hb
  push_cast at hq
  rw [Flt.value, hulp, roundingFactor, ← mul_div_assoc, div_le_iff₀ hs, div_mul_eq_mul_div, div_mul_eq_mul_div,
    le_div_iff₀ hb']
  linarith

/-- A table whose entries are the Floats nearest to a number, its square, and so on. -/
theorem powersWithin_of_nearest {ps : List Flt} {k : Nat} {num den : Nat → Nat}
    (hsq : ∀ j, (num (j + 1) / den (j + 1) : ℚ) = (num j / den j) ^ 2)
    (h : ∀ p ∈ ps.zipIdx k, nearestToRatio p.1 (num p.2) (den p.2) = true) : PowersWithin (num k / den k) ps := by
  induction ps generalizing k with
  | nil => trivial
  | cons p ps ih =>
    rw [List.zipIdx_cons, List.forall_mem_cons] at h
    refine ⟨within_of_nearestToRatio h.1, ?_⟩
    rw [← hsq]
    exact ih h.2

theorem powersWithin_power10 : PowersWithin 10 decRom.power10 := by
  have h := powersWithin_of_nearest (num := fun j => 10 ^ 2 ^ j) (den := fun _ => 1)
    (fun j => by push_cast; ring) power10_nearest
  simpa using h

theorem powersWithin_negPower10 : PowersWithin (1 / 10) decRom.negPower10 := by
  have h := powersWithin_of_nearest (num := fun _ => 1) (den := fun j => 10 ^ 2 ^ j)
    (fun j => by push_cast; rw [div_pow]; ring) negPower10_nearest
  simpa using h

theorem within_setPow10 {n : Int} (hn : |n| < 256) : Within (setPow10 decRom n) (10 ^ n * roundingFactor ^ 16) := by
  have habs : n.natAbs < 2 ^ 8 := by rw [Int.abs_eq_natAbs] at hn; omega
  unfold setPow10
  split
  next hpos =>
    have h := within_powLoop (by norm_num) powersWithin_power10 habs within_one
    rw [one_mul, ← zpow_natCast, Int.natCast_natAbs, abs_of_pos hpos] at h
    exact h
  next hneg =>
    have h := within_powLoop (by norm_num) powersWithin_negPower10 habs within_one
    rw [one_mul, ← zpow_natCast, Int.natCast_natAbs, abs_of_nonpos (not_lt.mp hneg), one_div, inv_zpow, zpow_neg,
      inv_inv] at h
    exact h

end Sys2Proof.Machine

namespace Sys2Proof.Machine

/-! ## `fp_floor` (R156) -/

theorem toInt_lswOf {m : Mant} (hlo : -2 ^ 15 ≤ m.toInt) (hhi : m.toInt < 2 ^ 15) : (lswOf m).toInt = m.toInt := by
  have hm := m.isLt
  rw [BitVec.toInt_eq_toNat_cond, toNat_lswOf]
  rw [BitVec.toInt_eq_toNat_cond] at hlo hhi ⊢
  split at hlo <;> split <;> omega

/-- Within 16 bits `fp_floor` is the floor. -/
theorem toInt_fpFloor {f : Flt} (hc : canonical f = true) (hlo : -2 ^ 15 ≤ f.value) (hhi : f.value < 2 ^ 15) :
    (fpFloor f).toInt = ⌊f.value⌋ := by
  have habs : |f.value| < 2 ^ (16 : Int) :=
    abs_lt.mpr ⟨by norm_num at hlo ⊢; linarith, by norm_num at hhi ⊢; linarith⟩
  have hexp := exp_lt_of_abs_value_lt hc (by norm_num) habs
  obtain ⟨k, hk⟩ := Int.eq_ofNat_of_zero_le (show 0 ≤ 30 - f.exp by omega)
  have hfloor : ⌊f.value⌋ = f.mant.toInt / 2 ^ k := by
    rw [value_eq_div (k := k) (by omega)]
    exact_mod_cast Rat.floor_intCast_div_natCast f.mant.toInt (2 ^ k)
  have hshift : (fpDenormalize f 30).1.mant.toInt = ⌊f.value⌋ := by
    rw [fpDenormalize_eq, hk, Int.toNat_natCast, toInt_mantSra, hfloor]
  rw [fpFloor, ← hshift]
  apply toInt_lswOf
  · rw [hshift, Int.le_floor]
    exact_mod_cast hlo
  · rw [hshift, Int.floor_lt]
    exact_mod_cast hhi

/-! ## The digits (R157 step 7) -/

/-- A canonical Float from 0 to below 10, whose floor is a digit. -/
structure DigitRange (w : Flt) : Prop where
  canon : canonical w = true
  nonneg : 0 ≤ w.value
  lt_ten : w.value < 10

theorem DigitRange.floor {w : Flt} (h : DigitRange w) :
    (fpFloor w).toInt = ⌊w.value⌋ ∧ 0 ≤ ⌊w.value⌋ ∧ ⌊w.value⌋ < 10 := by
  have hpos := h.nonneg
  have hlt := h.lt_ten
  exact ⟨toInt_fpFloor h.canon (by linarith) (by linarith), Int.floor_nonneg.mpr hpos,
    Int.floor_lt.mpr (by exact_mod_cast hlt)⟩

/-- The difference of `fp_sub` at operands that `fp_add` adds exactly. -/
theorem value_fpSub_of_fpAdd {a b : Flt} (ha : canonical a = true)
    (h : (fpAdd (fpNeg a) b).value = (fpNeg a).value + b.value) : (fpSub a b).value = a.value - b.value := by
  rw [fpSub, value_fpNeg (canonical_fpAdd _ _), h, value_fpNeg ha]
  ring

/-- Subtracting its digit from the remainder is exact: the digit has no bit below the last place of the remainder. -/
theorem value_fpSub_digit {w d : Flt} {D : Int} (hw : canonical w = true) (hd : IsInt d D) (hD0 : 0 ≤ D)
    (hDw : (D : ℚ) ≤ w.value) (hw10 : w.value < 10) : (fpSub w d).value = w.value - D := by
  obtain rfl | hD := eq_or_ne D 0
  · rw [hd.eq_fltZero, (Proofs.addCommutesWithZeroNeutral.2 w hw).2, Int.cast_zero, sub_zero]
  have hd1 : 1 ≤ d.value := by
    rw [hd.value]
    exact_mod_cast (show 1 ≤ D by omega)
  have hwpos : 0 < w.value := by linarith [hd.value]
  have hwz : w.mant ≠ 0#32 := fun hz => by
    rw [eq_fltZero_of_mant_eq_zero hw hz, value_fltZero] at hwpos
    exact hwpos.false
  have hexp4 : w.exp < 4 := exp_lt_of_abs_value_lt hw (by norm_num) (by rw [abs_of_pos hwpos]; norm_num; linarith)
  have hexple : d.exp < w.exp + 1 := by
    refine exp_lt_of_abs_value_lt hd.canon (by have := ((canonical_iff w).mp hw).1; omega) ?_
    calc |d.value| = d.value := abs_of_pos (by linarith)
      _ ≤ |w.value| := by rw [abs_of_pos hwpos, hd.value]; exact hDw
      _ < 2 ^ (w.exp + 1) := (normMant_of_canonical hw hwz).abs_value_lt
  obtain ⟨n, hn⟩ := Int.le.dest (show d.exp ≤ w.exp by omega)
  obtain ⟨j, hj⟩ := Int.eq_ofNat_of_zero_le (show 0 ≤ 30 - w.exp by omega)
  have hd0 := hd.exp_nonneg hD
  have hmant : d.mant.toInt = D * 2 ^ j * 2 ^ n := by
    rw [mul_assoc, ← pow_add]
    exact mant_of_value_eq_int (by push_cast; omega) hd.value
  have hle : D * 2 ^ j ≤ w.mant.toInt := by
    rw [value_eq_div (k := j) (by omega), le_div_iff₀ (by positivity)] at hDw
    exact_mod_cast hDw
  have hneg : (fpNeg w).mant.toInt = -w.mant.toInt := by
    rw [fpNeg, mantNeg_eq_neg, BitVec.toInt_neg_of_ne_intMin (ne_intMin_of_canonical hw)]
  have hfits : FitsMant ((fpNeg w).mant.toInt + D * 2 ^ j) := by
    have := mant_toInt_bounds w.mant
    have := neg_two_pow_lt_toInt_of_canonical hw
    have : 0 ≤ D * 2 ^ j := by positivity
    omega
  rw [value_fpSub_of_fpAdd hw, hd.value]
  exact value_fpAdd_of_dvd (a := fpNeg w) hn.symm hmant (by dsimp only [fpNeg]; omega) (by dsimp only [fpNeg]; omega)
    (.inl hfits)

/-- Below 1 the last place is 2^−31 or smaller. -/
theorem value_le_of_lt_one {x : Flt} (hc : canonical x = true) (h0 : 0 ≤ x.value) (h1 : x.value < 1) :
    x.value ≤ 1 - 1 / 2 ^ 31 := by
  have hexp : x.exp < 0 := exp_lt_of_abs_value_lt hc (by norm_num) (by rwa [abs_of_nonneg h0, zpow_zero])
  have hmant := mant_toInt_bounds x.mant
  calc x.value = x.mant.toInt * (2 : ℚ) ^ (x.exp - 30) := rfl
    _ ≤ (2 ^ 31 - 1 : ℤ) * (2 : ℚ) ^ (-(31 : ℕ) : ℤ) := by
        gcongr
        · omega
        · norm_num
        · omega
    _ = 1 - 1 / 2 ^ 31 := by rw [zpow_neg, zpow_natCast]; norm_num

/-- What is left below 1 is at most 1 − 2^−31, and ten times that rounds to less than 10. -/
theorem digitRange_next {w : Flt} (h : DigitRange w) :
    DigitRange (fpMult (fpSub w (setInt (fpFloor w))) (setInt 10)) := by
  obtain ⟨hfloor, hpos, hlt⟩ := h.floor
  have hd := isInt_setInt (fpFloor w)
  rw [hfloor] at hd
  have hsub := value_fpSub_digit h.canon hd hpos (Int.floor_le _) h.lt_ten
  rw [Int.self_sub_floor] at hsub
  have h0 : 0 ≤ (fpSub w (setInt (fpFloor w))).value := hsub ▸ Int.fract_nonneg _
  have h1 : (fpSub w (setInt (fpFloor w))).value < 1 := hsub ▸ Int.fract_lt_one _
  have hrest : Within (fpSub w (setInt (fpFloor w))) (1 - 1 / 2 ^ 31) :=
    ⟨canonical_fpSub _ _, h0, value_le_of_lt_one (canonical_fpSub _ _) h0 h1⟩
  obtain ⟨hc, hnonneg, hle⟩ := hrest.mult within_ten
  exact ⟨hc, hnonneg, hle.trans_lt (by norm_num [roundingFactor])⟩

theorem isDigitChar_add {d : Half} (h0 : 0 ≤ d.toInt) (h9 : d.toInt < 10) :
    isDigitChar ((0x30#16 + d).setWidth 8) = true := by
  have hd : d.toNat < 10 := by
    rw [BitVec.toInt_eq_toNat_cond] at h0 h9
    split at h0 <;> omega
  have hnat : ((0x30#16 + d).setWidth 8).toNat = 0x30 + d.toNat := by
    rw [BitVec.toNat_setWidth, BitVec.toNat_add, BitVec.toNat_ofNat]
    omega
  simp only [isDigitChar, hnat, Bool.and_eq_true, decide_eq_true_eq]
  omega

theorem isDigitChar_floor {w : Flt} (h : DigitRange w) : isDigitChar ((0x30#16 + fpFloor w).setWidth 8) = true := by
  obtain ⟨hfloor, hpos, hlt⟩ := h.floor
  exact isDigitChar_add (hfloor ▸ hpos) (hfloor ▸ hlt)

theorem emitDigits_digits {n : Nat} {w : Flt} (h : DigitRange w) :
    ∀ c ∈ emitDigits n false w, isDigitChar c = true := by
  induction n generalizing w with
  | zero => exact List.forall_mem_nil _
  | succ n ih => exact List.forall_mem_cons.mpr ⟨isDigitChar_floor h, ih (digitRange_next h)⟩

/-- The digits of step 7: one, the point, and the others. -/
theorem emitDigits_format {nd : Nat} {w : Flt} (h : DigitRange w) (hnd : 1 ≤ nd) :
    ∃ (d : Byte) (ds : List Byte), emitDigits nd true w = [d, 0x2E] ++ ds ∧ ds.length = nd - 1 ∧
      isDigitChar d = true ∧ ∀ c ∈ ds, isDigitChar c = true := by
  obtain ⟨n, rfl⟩ := Nat.exists_eq_add_of_le' hnd
  exact ⟨_, _, rfl, by rw [emitDigits_length]; rfl, isDigitChar_floor h, emitDigits_digits (digitRange_next h)⟩

theorem isDigitChar_digitChar {d : Nat} (h : d < 10) : isDigitChar (digitChar d) = true := by
  have hnat : (digitChar d).toNat = 0x30 + d := by
    rw [digitChar, BitVec.toNat_ofNat]
    omega
  simp only [isDigitChar, hnat, Bool.and_eq_true, decide_eq_true_eq]
  omega

theorem emitExponent_format {e : Int} (h : |e| < 1000) :
    ∃ sg x y z : Byte, emitExponent e = [0x65, sg, x, y, z] ∧ (sg = 0x2B ∨ sg = 0x2D) ∧
      ∀ c ∈ [x, y, z], isDigitChar c = true := by
  rw [Int.abs_eq_natAbs] at h
  refine ⟨_, _, _, _, rfl, (ite_eq_or_eq _ _ _).symm, ?_⟩
  simp only [List.forall_mem_cons, List.not_mem_nil, false_imp_iff, implies_true, and_true]
  exact ⟨isDigitChar_digitChar (by omega), isDigitChar_digitChar (by omega), isDigitChar_digitChar (by omega)⟩

end Sys2Proof.Machine

namespace Sys2Proof.Machine

/-! ## The decimal exponent (R157 step 3) -/

/-- The estimate of `to_string` for the decimal exponent of a Float with the exponent `e` (R157 step 3). -/
def decimalExponent (e : Int) : Int := (fpFloor (fpMult (setInt (BitVec.ofInt 16 e)) decRom.log10_2)).toInt

theorem value_log10_2 : decRom.log10_2.value = 0x4D104D42 / 2 ^ 32 := by
  rw [Flt.value, show decRom.log10_2.mant.toInt = 0x4D104D42 from rfl,
    show decRom.log10_2.exp - 30 = -(32 : ℕ) from rfl, zpow_neg, zpow_natCast]
  norm_num

section
variable {e : Int} (hlo : -512 ≤ e) (hhi : e ≤ 511)
include hlo hhi

theorem abs_value_mul_log10_2_sub_le :
    |(fpMult (setInt (BitVec.ofInt 16 e)) decRom.log10_2).value - e * decRom.log10_2.value| ≤
      |e * decRom.log10_2.value| / 2 ^ 31 := by
  have he : IsInt (setInt (BitVec.ofInt 16 e)) e := by
    have h := isInt_setInt (BitVec.ofInt 16 e)
    rwa [BitVec.toInt_ofInt_eq_self (by norm_num) (by omega) (by omega)] at h
  obtain rfl | hne := eq_or_ne e 0
  · rw [he.eq_fltZero, fpMult_zero_left, value_fltZero]
    simp
  have hexp := he.exp_nonneg hne
  have hexp' : (setInt (BitVec.ofInt 16 e)).exp < 10 := by
    refine exp_lt_of_abs_value_lt he.canon (by norm_num) ?_
    rw [he.value, ← Int.cast_abs]
    exact_mod_cast show |e| < 2 ^ 10 from abs_lt.mpr ⟨by omega, by omega⟩
  rw [← he.value]
  refine abs_value_fpMult_sub_le he.canon rfl ?_ ?_ <;> rw [show decRom.log10_2.exp = -2 from rfl] <;> omega

/-- The estimate is the floor of a number close to `e * log10(2)`. -/
theorem decimalExponent_bounds :
    (decimalExponent e : ℚ) ≤ (fpMult (setInt (BitVec.ofInt 16 e)) decRom.log10_2).value ∧
      (fpMult (setInt (BitVec.ofInt 16 e)) decRom.log10_2).value < decimalExponent e + 1 ∧
      |(e * 0.30103 : ℚ) - (fpMult (setInt (BitVec.ofInt 16 e)) decRom.log10_2).value| ≤ 1 / 100 := by
  have herr := abs_value_mul_log10_2_sub_le hlo hhi
  have hlo' : (-512 : ℚ) ≤ e := by exact_mod_cast hlo
  have hhi' : (e : ℚ) ≤ 511 := by exact_mod_cast hhi
  rw [value_log10_2] at herr
  have hclose : |(e * 0.30103 : ℚ) - (fpMult (setInt (BitVec.ofInt 16 e)) decRom.log10_2).value| ≤ 1 / 100 := by
    have he : |(e : ℚ)| ≤ 512 := abs_le.mpr ⟨hlo', by linarith⟩
    rw [abs_mul, abs_of_pos (by norm_num : (0 : ℚ) < 0x4D104D42 / 2 ^ 32)] at herr
    obtain ⟨herr1, herr2⟩ := abs_le.mp herr
    exact abs_le.mpr ⟨by linarith, by linarith⟩
  have hfloor : decimalExponent e = ⌊(fpMult (setInt (BitVec.ofInt 16 e)) decRom.log10_2).value⌋ := by
    obtain ⟨hclose1, hclose2⟩ := abs_le.mp hclose
    exact toInt_fpFloor (canonical_fpMult _ _) (by linarith) (by linarith)
  rw [hfloor]
  exact ⟨Int.floor_le _, Int.lt_floor_add_one _, hclose⟩

theorem abs_decimalExponent_le : |decimalExponent e| ≤ 160 := by
  obtain ⟨hle, hlt, hclose⟩ := decimalExponent_bounds hlo hhi
  have hlo' : (-512 : ℚ) ≤ e := by exact_mod_cast hlo
  have hhi' : (e : ℚ) ≤ 511 := by exact_mod_cast hhi
  obtain ⟨hclose1, hclose2⟩ := abs_le.mp hclose
  have habs : |(decimalExponent e : ℚ)| ≤ 160 := abs_le.mpr ⟨by linarith, by linarith⟩
  exact_mod_cast habs

/-- The estimate is less than 2 below `e * log10(2)`, which two fractions enclose closely enough. -/
theorem mul_logb_two_le : e * Real.logb 10 2 ≤ (decimalExponent e + 2 : ℤ) := by
  obtain ⟨-, hlt, hclose⟩ := decimalExponent_bounds hlo hhi
  have hclose2 := (abs_le.mp hclose).2
  have hlow : (59 : ℕ) / (196 : ℕ) < Real.logb 10 2 := div_lt_logb_two (by norm_num) (by norm_num)
  have hhigh : Real.logb 10 2 < (28 : ℕ) / (93 : ℕ) := logb_two_lt_div (by norm_num) (by norm_num)
  rcases le_total 0 e with hpos | hneg
  · have hpos' : (0 : ℝ) ≤ e := by exact_mod_cast hpos
    have hhi' : (e : ℚ) ≤ 511 := by exact_mod_cast hhi
    have hrat : (e : ℚ) * (28 / 93) ≤ (decimalExponent e + 2 : ℤ) := by push_cast; linarith
    calc (e : ℝ) * Real.logb 10 2 ≤ e * ((28 : ℕ) / (93 : ℕ)) := by gcongr
      _ ≤ (decimalExponent e + 2 : ℤ) := by simpa using (Rat.cast_le (K := ℝ)).mpr hrat
  · have hneg' : (e : ℝ) ≤ 0 := by exact_mod_cast hneg
    have hlo' : (-512 : ℚ) ≤ e := by exact_mod_cast hlo
    have hrat : (e : ℚ) * (59 / 196) ≤ (decimalExponent e + 2 : ℤ) := by push_cast; linarith
    calc (e : ℝ) * Real.logb 10 2 ≤ e * ((59 : ℕ) / (196 : ℕ)) := mul_le_mul_of_nonpos_left hlow.le hneg'
      _ ≤ (decimalExponent e + 2 : ℤ) := by simpa using (Rat.cast_le (K := ℝ)).mpr hrat

theorem two_zpow_le_ten_zpow : (2 : ℚ) ^ e ≤ 10 ^ (decimalExponent e + 2) := by
  have hzpow (x : ℝ) (n : Int) : Real.logb 10 (x ^ n) = n * Real.logb 10 x := by
    rw [Real.logb, Real.log_zpow, mul_div_assoc, Real.logb]
  have hlog : Real.logb 10 ((2 : ℝ) ^ e) ≤ Real.logb 10 ((10 : ℝ) ^ (decimalExponent e + 2)) := by
    rw [hzpow, hzpow, Real.logb_self_eq_one (by norm_num), mul_one]
    exact mul_logb_two_le hlo hhi
  have hreal := (Real.logb_le_logb (by norm_num) (by positivity) (by positivity)).mp hlog
  exact (Rat.cast_le (K := ℝ)).mp (by push_cast; exact hreal)

end

/-! ## The scaled magnitude (R157 steps 3 to 6) -/

theorem within_tenth_constant : Within (decRom.negPower10.headD fltOne) (1 / 10 * roundingFactor) :=
  powersWithin_negPower10.1

theorem within_rounding {nd : Nat} (h1 : 1 ≤ nd) (h2 : nd ≤ 10) : Within (decRom.rounding.getD (nd - 1) fltZero) 1 := by
  have hlt : nd - 1 < decRom.rounding.length := by
    rw [show decRom.rounding.length = 10 from rfl]
    omega
  have hmem : (decRom.rounding[nd - 1], nd - 1) ∈ decRom.rounding.zipIdx :=
    List.mem_zipIdx_iff_getElem?.mpr (List.getElem?_eq_getElem hlt)
  rw [List.getD_eq_getElem _ _ hlt]
  refine (within_of_nearestToRatio (rounding_nearest _ hmem)).mono ?_
  have hpow : (1 : ℚ) ≤ 10 ^ (nd - 1) := one_le_pow₀ (by norm_num)
  push_cast
  calc 1 / (2 * 10 ^ (nd - 1)) * roundingFactor ≤ 1 / 2 * roundingFactor := by
        gcongr
        · exact zero_le_one.trans one_le_roundingFactor
        · linarith
    _ ≤ 1 := by norm_num [roundingFactor]

/-- The magnitude scaled by the estimate is below 201: 2 for the mantissa, 100 for the estimate, and the roundings. -/
theorem within_scaled {w : Flt} (hc : canonical w = true) (h0 : 0 ≤ w.value) :
    Within (fpMult w (setPow10 decRom (-decimalExponent w.exp))) 201 := by
  obtain ⟨hlo, hhi⟩ := ((canonical_iff w).mp hc).1
  have hE := abs_decimalExponent_le hlo hhi
  have hpow := two_zpow_le_ten_zpow hlo hhi
  have hw : Within w (2 ^ (w.exp + 1)) := ⟨hc, h0, (le_abs_self _).trans (abs_value_le w)⟩
  refine (hw.mult (within_setPow10 (by rw [abs_neg]; omega))).mono ?_
  calc (2 : ℚ) ^ (w.exp + 1) * (10 ^ (-decimalExponent w.exp) * roundingFactor ^ 16) * roundingFactor
      = 2 ^ w.exp * 10 ^ (-decimalExponent w.exp) * (2 * roundingFactor ^ 17) := by
        rw [zpow_add_one₀ (by norm_num)]
        ring
    _ ≤ 10 ^ (decimalExponent w.exp + 2) * 10 ^ (-decimalExponent w.exp) * (2 * roundingFactor ^ 17) := by
        gcongr
        norm_num [roundingFactor]
    _ = 100 * (2 * roundingFactor ^ 17) := by
        rw [← zpow_add₀ (by norm_num)]
        norm_num
    _ ≤ 201 := by norm_num [roundingFactor]

/-- Step 5 leaves at most 21. -/
theorem within_bracket {w : Flt} (e : Int) (h : Within w 201) :
    Within (bracket decRom w e).1 21 ∧ |(bracket decRom w e).2 - e| ≤ 1 := by
  unfold bracket
  split
  next =>
    refine ⟨(h.mult within_tenth_constant).mono (by norm_num [roundingFactor]), by simp [tenth]⟩
  next hten =>
    have hlt := value_lt_of_fpCompare_neg h.canon within_ten.canon (not_le.mp hten)
    rw [isInt_ten.value] at hlt
    split
    next hone =>
      have hlt1 := value_lt_of_fpCompare_neg h.canon isInt_one.canon hone
      rw [isInt_one.value] at hlt1
      have hw : Within w 1 := ⟨h.canon, h.nonneg, by exact_mod_cast hlt1.le⟩
      exact ⟨(hw.mult within_ten).mono (by norm_num [roundingFactor]), by simp⟩
    next => exact ⟨⟨h.canon, h.nonneg, by norm_num at hlt ⊢; linarith⟩, by simp⟩

/-- Step 6 leaves a value below 10: either the compare says so, or a tenth is taken of at most 44. -/
theorem digitRange_roundDecimal {w : Flt} {e : Int} {nd : Nat} (h : Within w 21) (h1 : 1 ≤ nd) (h2 : nd ≤ 10) :
    DigitRange (roundDecimal decRom w e nd).1 ∧ |(roundDecimal decRom w e nd).2 - e| ≤ 1 := by
  have hsum := h.add (within_rounding h1 h2)
  unfold roundDecimal
  dsimp only
  split
  next =>
    obtain ⟨hc, hpos, hle⟩ := hsum.mult within_tenth_constant
    exact ⟨⟨hc, hpos, hle.trans_lt (by norm_num [roundingFactor])⟩, by simp [tenth]⟩
  next hten =>
    have hlt := value_lt_of_fpCompare_neg hsum.canon within_ten.canon (not_le.mp hten)
    rw [isInt_ten.value] at hlt
    exact ⟨⟨hsum.canon, hsum.nonneg, by exact_mod_cast hlt⟩, by simp⟩

theorem scaleDecimal_eq (w : Flt) (nd : Nat) : scaleDecimal decRom w nd =
    let p := bracket decRom (fpMult w (setPow10 decRom (-decimalExponent w.exp))) (decimalExponent w.exp)
    roundDecimal decRom p.1 p.2 nd := rfl

/-- Steps 3 to 6 leave a value below 10 and a decimal exponent of at most three digits. -/
theorem scaleDecimal_spec {w : Flt} {nd : Nat} (hc : canonical w = true) (h0 : 0 ≤ w.value) (h1 : 1 ≤ nd)
    (h2 : nd ≤ 10) : DigitRange (scaleDecimal decRom w nd).1 ∧ |(scaleDecimal decRom w nd).2| < 1000 := by
  obtain ⟨hlo, hhi⟩ := ((canonical_iff w).mp hc).1
  have hE := abs_decimalExponent_le hlo hhi
  obtain ⟨hbracket, hexp5⟩ := within_bracket (decimalExponent w.exp) (within_scaled hc h0)
  rw [scaleDecimal_eq]
  generalize bracket decRom _ _ = p at *
  obtain ⟨hround, hexp6⟩ := digitRange_roundDecimal (e := p.2) hbracket h1 h2
  rw [abs_le] at hE hexp5 hexp6
  exact ⟨hround, abs_lt.mpr ⟨by dsimp only; omega, by dsimp only; omega⟩⟩

theorem fltMagnitude_spec {f : Flt} (h : canonical f = true) :
    canonical (fltMagnitude f) = true ∧ 0 ≤ (fltMagnitude f).value := by
  unfold fltMagnitude
  split
  next hneg =>
    refine ⟨canonical_fpNeg h, ?_⟩
    rw [value_fpNeg h]
    linarith [(value_neg_iff f).mpr ((isNeg_iff _).mp hneg)]
  next hpos => exact ⟨h, (value_nonneg_iff f).mpr (not_lt.mp (mt (isNeg_iff _).mpr hpos))⟩

end Sys2Proof.Machine

namespace Sys2Proof.Proofs

open Sys2Proof.Machine

/-- Settles O56: step 6 leaves a value from 0 to below 10, and so does each step of the digits, since the subtraction of
a digit is exact and ten times a Float below 1 rounds to less than 10. -/
theorem decimalTextFormat : Obligations.DecimalTextFormat := by
  intro f nd hc hpos hneg h1 h2
  obtain ⟨hcanon, hnonneg⟩ := fltMagnitude_spec hc
  obtain ⟨hrange, hexp⟩ := scaleDecimal_spec hcanon hnonneg h1 h2
  have hshown : |if isZero f.mant then 0 else (scaleDecimal decRom (fltMagnitude f) nd).2| < 1000 := by
    split
    · norm_num
    · exact hexp
  obtain ⟨d, ds, hdigits, hlen, hd, hds⟩ := emitDigits_format hrange h1
  obtain ⟨sg, x, y, z, hexponent, hsg, hxyz⟩ := emitExponent_format hshown
  refine ⟨d, x, y, z, sg, ds, ?_, hlen, ?_, hsg⟩
  · rw [toText_of_finite _ _ hpos hneg, hdigits, hexponent]
    simp [isNeg, signBit]
  · exact List.forall_mem_append.mpr ⟨List.forall_mem_cons.mpr ⟨hd, hxyz⟩, hds⟩

end Sys2Proof.Proofs
